-- ==== Sys2Proof/Word.lean ====
section
/-! DEFINITION. The word types of BITCODE-CORE, named as spec/ names them, each at the one width spec/ gives it. -/

namespace Sys2Proof

/-- One byte of a byte store: `BYTE_BITS = 8` (00_scope R5). -/
abbrev Byte := BitVec 8

/-- A 64-bit word: argument and element words (30_encoding R92), the result word `r0` (R94), every cursor, total-length,
byte-count and element-count register (`CW = 64`, 00_scope R5). -/
abbrev Word := BitVec 64

/-- The 32-bit command word `cw` (30_encoding R90). -/
abbrev CmdWord := BitVec 32

/-- A 4-bit context number, `cw[11:8]` or `cw[15:12]` (30_encoding R91). -/
abbrev Ctx := BitVec 4

/-- The 7-bit field width, `cw[22:16]` (30_encoding R91); the codes 65 to 127 are reserved (R97). -/
abbrev Width := BitVec 7

/-- The 72-bit window `WIN` (10_state R27). -/
abbrev Window := BitVec 72

end Sys2Proof
end

