-- ==== Sys2Proof/Syntax.lean ====
section
/-! DEFINITION. The commands of BITCODE-CORE as syntax: the thirteen opcodes, the decoded commands and the packets that
carry them (30_encoding R90 to R96). -/

namespace Sys2Proof

/-- The thirteen rows of the opcode map (30_encoding R96). -/
inductive Opcode where
  | wOpen | wBits | wAppend | wFinish | wArray | wByte
  | rOpen | rOpenB | rBits | rPeek | rRemain | rArray | rClose
  deriving DecidableEq, Repr

/-- A command, one constructor per row of spec/opcode_table.json. Operands are those of 30_encoding R92 and R93: contexts
and widths from the command word, argument words, element words, and the bound source bytes. The element count `N` of
`W_ARRAY` is the length of its element list (R90: the packet holds exactly `a0` element words). -/
inductive Instr where
  /-- `W_OPEN w`: create a writer (R141). -/
  | wOpen (w : Ctx)
  /-- `W_BITS w, width, value`: append the low `width` bits of `value` (R142). -/
  | wBits (w : Ctx) (width : Width) (value : Word)
  /-- `W_APPEND w, v`: append the bits of writer `v` to writer `w` (R143). -/
  | wAppend (w v : Ctx)
  /-- `W_FINISH w`: fix the output buffer (R144). -/
  | wFinish (w : Ctx)
  /-- `W_ARRAY w, width, elems`: append the elements (R183). -/
  | wArray (w : Ctx) (width : Width) (elems : List Word)
  /-- `W_BYTE w, index`: read one byte of the finished output (R145). -/
  | wByte (w : Ctx) (index : Word)
  /-- `R_OPEN r, nbytes, total, src`: open a reader with an exact bit length (R161). -/
  | rOpen (r : Ctx) (nbytes total : Word) (src : List Byte)
  /-- `R_OPENB r, nbytes, src`: open a reader over whole bytes (R162). -/
  | rOpenB (r : Ctx) (nbytes : Word) (src : List Byte)
  /-- `R_BITS r, width`: read `width` bits (R163). -/
  | rBits (r : Ctx) (width : Width)
  /-- `R_PEEK r, width`: read `width` bits without advancing (R164). -/
  | rPeek (r : Ctx) (width : Width)
  /-- `R_REMAIN r`: the number of bits left (R165). -/
  | rRemain (r : Ctx)
  /-- `R_ARRAY r, width, N`: read `N` elements (R188). -/
  | rArray (r : Ctx) (width : Width) (n : Word)
  /-- `R_CLOSE r`: discard a reader (R166). -/
  | rClose (r : Ctx)
  deriving DecidableEq, Repr

/-- A framed command packet (30_encoding R90): the command word, the 64-bit words that follow it (argument words, then
element words), and the out-of-band binding of source bytes where the host gives one (R93). -/
structure Packet where
  cw : CmdWord
  words : List Word
  binding : Option (List Byte)
  deriving DecidableEq, Repr

end Sys2Proof
end

