-- ==== Sys2Proof/WellFormed.lean ====
section
/-! DEFINITION. Well-formed commands: the operand ranges of 30_encoding R97 that do not depend on how the block is built
(items 3, 4, 6, the element count of item 7, and item 8 but for `RCAP`). What depends on the build (`NW`, `NR`, `RCAP`) is
checked with these by the machine, in Machine/Operands.lean. -/

namespace Sys2Proof

/-- The width of one bit field: 0 to 64 (R97 item 3). -/
def Width.fieldOk (width : Width) : Bool := width.toNat ≤ 64

/-- The width of an array element: 1 to 64 (R97 items 3 and 4, 43_fastpath_array R180). -/
def Width.elementOk (width : Width) : Bool := 1 ≤ width.toNat && width.toNat ≤ 64

/-- The operands lie in the ranges spec/ gives them, whatever the build. -/
def Instr.wf : Instr → Bool
  | .wOpen _ => true
  | .wBits _ width _ => width.fieldOk
  | .wAppend w v => w != v
  | .wFinish _ => true
  | .wArray _ width elems => width.elementOk && elems.length < 2 ^ 64
  | .wByte _ _ => true
  | .rOpen _ nbytes total src => src.length == nbytes.toNat && total.toNat ≤ 8 * nbytes.toNat
  | .rOpenB _ nbytes src => src.length == nbytes.toNat
  | .rBits _ width => width.fieldOk
  | .rPeek _ width => width.fieldOk
  | .rRemain _ => true
  | .rArray _ width _ => width.elementOk
  | .rClose _ => true

end Sys2Proof
end

