-- ==== Sys2Proof/Decode.lean ====
section
/-! DEFINITION. The decoder and the encoder of command packets (30_encoding R90 to R98). The decoder is total: it looks up
the opcode, tests the mask and checks the packet's length and binding, and answers a command or a named rejection. The
operand ranges of R97 items 3 to 6 and 8 are checked by the machine with the same verdict, `IllegalCommand`
(Machine/Operands.lean, log 16). -/

namespace Sys2Proof

/-- Why a packet is no packet of any command. Every one of them is answered `IllegalCommand` (30_encoding R97). -/
inductive DecodeError where
  /-- `cw[7:0]` is in no row of the opcode map (R97 item 1). -/
  | unknownOpcode
  /-- a reserved bit, an unused `ctx2` or an unused `width` is not zero (R97 item 2). -/
  | nonzeroUnusedField
  /-- the packet has not the argument words of R92 (R97 item 7). -/
  | wrongArgumentCount
  /-- a `W_ARRAY` packet has not exactly `a0` element words (R97 item 7). -/
  | wrongElementCount
  /-- an `R_OPEN` or `R_OPENB` packet has no source binding (R90, log 15). -/
  | missingBinding
  /-- a packet of another command has a source binding (R90, log 15). -/
  | unexpectedBinding
  deriving DecidableEq, Repr

/-- The opcode byte of each row (30_encoding R96). -/
def Opcode.code : Opcode → BitVec 8
  | .wOpen => 0x10
  | .wBits => 0x11
  | .wAppend => 0x12
  | .wFinish => 0x13
  | .wArray => 0x14
  | .wByte => 0x15
  | .rOpen => 0x20
  | .rOpenB => 0x21
  | .rBits => 0x22
  | .rPeek => 0x23
  | .rRemain => 0x24
  | .rArray => 0x25
  | .rClose => 0x26

/-- The `mask` column of 30_encoding R96. -/
def Opcode.mask : Opcode → CmdWord
  | .wOpen => 0xFFFFF0FF
  | .wBits => 0xFF80F0FF
  | .wAppend => 0xFFFF00FF
  | .wFinish => 0xFFFFF0FF
  | .wArray => 0xFF80F0FF
  | .wByte => 0xFFFFF0FF
  | .rOpen => 0xFFFFF0FF
  | .rOpenB => 0xFFFFF0FF
  | .rBits => 0xFF80F0FF
  | .rPeek => 0xFF80F0FF
  | .rRemain => 0xFFFFF0FF
  | .rArray => 0xFF80F0FF
  | .rClose => 0xFFFFF0FF

/-- The `match` column of 30_encoding R96. -/
def Opcode.matchWord (o : Opcode) : CmdWord := o.code.setWidth 32

/-- The number `k` of argument words (30_encoding R92). -/
def Opcode.argWords : Opcode → Nat
  | .wOpen | .wAppend | .wFinish | .rBits | .rPeek | .rRemain | .rClose => 0
  | .wBits | .wArray | .wByte | .rOpenB | .rArray => 1
  | .rOpen => 2

/-- The packet carries a source binding (30_encoding R93). -/
def Opcode.binds : Opcode → Bool
  | .rOpen | .rOpenB => true
  | .wOpen | .wBits | .wAppend | .wFinish | .wArray | .wByte | .rBits | .rPeek | .rRemain | .rArray | .rClose => false

/-- The rows of the opcode map in its order. -/
def Opcode.all : List Opcode :=
  [.wOpen, .wBits, .wAppend, .wFinish, .wArray, .wByte, .rOpen, .rOpenB, .rBits, .rPeek, .rRemain, .rArray, .rClose]

/-- Look up an opcode byte (R95 step 2). -/
def Opcode.ofCode (b : BitVec 8) : Option Opcode := Opcode.all.find? fun o => o.code == b

/-- `cw[7:0]` (R91). -/
def opField (cw : CmdWord) : BitVec 8 := cw.extractLsb' 0 8

/-- `cw[11:8]` (R91). -/
def ctxField (cw : CmdWord) : Ctx := cw.extractLsb' 8 4

/-- `cw[15:12]` (R91). -/
def ctx2Field (cw : CmdWord) : Ctx := cw.extractLsb' 12 4

/-- `cw[22:16]` (R91). -/
def widthField (cw : CmdWord) : Width := cw.extractLsb' 16 7

/-- A packet with no argument word. -/
def words0 (i : Instr) : List Word → Except DecodeError Instr
  | [] => .ok i
  | _ :: _ => .error .wrongArgumentCount

/-- A packet with the one argument word `a0`. -/
def words1 (f : Word → Instr) : List Word → Except DecodeError Instr
  | [a0] => .ok (f a0)
  | [] => .error .wrongArgumentCount
  | _ :: _ :: _ => .error .wrongArgumentCount

/-- A packet with the two argument words `a0`, `a1`. -/
def words2 (f : Word → Word → Instr) : List Word → Except DecodeError Instr
  | [a0, a1] => .ok (f a0 a1)
  | [] => .error .wrongArgumentCount
  | [_] => .error .wrongArgumentCount
  | _ :: _ :: _ :: _ => .error .wrongArgumentCount

/-- A packet with `a0` and then exactly `a0` element words (R90, R98). -/
def wordsElems (f : List Word → Instr) : List Word → Except DecodeError Instr
  | [] => .error .wrongArgumentCount
  | a0 :: es => if es.length = a0.toNat then .ok (f es) else .error .wrongElementCount

/-- A packet without a source binding. -/
def unbound (x : Except DecodeError Instr) : Option (List Byte) → Except DecodeError Instr
  | none => x
  | some _ => .error .unexpectedBinding

/-- A packet with a source binding (R93). -/
def bound (f : List Byte → Except DecodeError Instr) : Option (List Byte) → Except DecodeError Instr
  | some src => f src
  | none => .error .missingBinding

/-- Read the operands of a row from the fields of the command word and the rest of the packet (R92, R93, R95 step 5). -/
def operandsOf (o : Opcode) (c c2 : Ctx) (width : Width) (ws : List Word) (src : Option (List Byte)) :
    Except DecodeError Instr :=
  match o with
  | .wOpen => unbound (words0 (.wOpen c) ws) src
  | .wBits => unbound (words1 (fun value => .wBits c width value) ws) src
  | .wAppend => unbound (words0 (.wAppend c c2) ws) src
  | .wFinish => unbound (words0 (.wFinish c) ws) src
  | .wArray => unbound (wordsElems (fun es => .wArray c width es) ws) src
  | .wByte => unbound (words1 (fun index => .wByte c index) ws) src
  | .rOpen => bound (fun b => words2 (fun nbytes total => .rOpen c nbytes total b) ws) src
  | .rOpenB => bound (fun b => words1 (fun nbytes => .rOpenB c nbytes b) ws) src
  | .rBits => unbound (words0 (.rBits c width) ws) src
  | .rPeek => unbound (words0 (.rPeek c width) ws) src
  | .rRemain => unbound (words0 (.rRemain c) ws) src
  | .rArray => unbound (words1 (fun n => .rArray c width n) ws) src
  | .rClose => unbound (words0 (.rClose c) ws) src

/-- Decode a packet: R95 steps 2, 3 and 5. -/
def decode (p : Packet) : Except DecodeError Instr :=
  match Opcode.ofCode (opField p.cw) with
  | none => .error .unknownOpcode
  | some o =>
    if p.cw &&& o.mask = o.matchWord then
      operandsOf o (ctxField p.cw) (ctx2Field p.cw) (widthField p.cw) p.words p.binding
    else .error .nonzeroUnusedField

/-- `op | ctx << 8 | ctx2 << 12 | width << 16` (R96). -/
def cmdWord (o : Opcode) (c c2 : Ctx) (width : Width) : CmdWord :=
  o.code.setWidth 32 ||| c.setWidth 32 <<< 8 ||| c2.setWidth 32 <<< 12 ||| width.setWidth 32 <<< 16

/-- The packet of a command (R90 to R93, R96). -/
def encode : Instr → Packet
  | .wOpen w => ⟨cmdWord .wOpen w 0 0, [], none⟩
  | .wBits w width value => ⟨cmdWord .wBits w 0 width, [value], none⟩
  | .wAppend w v => ⟨cmdWord .wAppend w v 0, [], none⟩
  | .wFinish w => ⟨cmdWord .wFinish w 0 0, [], none⟩
  | .wArray w width es => ⟨cmdWord .wArray w 0 width, BitVec.ofNat 64 es.length :: es, none⟩
  | .wByte w index => ⟨cmdWord .wByte w 0 0, [index], none⟩
  | .rOpen r nbytes total src => ⟨cmdWord .rOpen r 0 0, [nbytes, total], some src⟩
  | .rOpenB r nbytes src => ⟨cmdWord .rOpenB r 0 0, [nbytes], some src⟩
  | .rBits r width => ⟨cmdWord .rBits r 0 width, [], none⟩
  | .rPeek r width => ⟨cmdWord .rPeek r 0 width, [], none⟩
  | .rRemain r => ⟨cmdWord .rRemain r 0 0, [], none⟩
  | .rArray r width n => ⟨cmdWord .rArray r 0 width, [n], none⟩
  | .rClose r => ⟨cmdWord .rClose r 0 0, [], none⟩

/-- The row of the opcode map a command belongs to (R96). -/
def Instr.opcode : Instr → Opcode
  | .wOpen _ => .wOpen
  | .wBits _ _ _ => .wBits
  | .wAppend _ _ => .wAppend
  | .wFinish _ => .wFinish
  | .wArray _ _ _ => .wArray
  | .wByte _ _ => .wByte
  | .rOpen _ _ _ _ => .rOpen
  | .rOpenB _ _ _ => .rOpenB
  | .rBits _ _ => .rBits
  | .rPeek _ _ => .rPeek
  | .rRemain _ => .rRemain
  | .rArray _ _ _ => .rArray
  | .rClose _ => .rClose

/-- Word `j` after the command word, in a packet whose bits are `bits`, bit 0 the least significant bit of `cw`. -/
def tableWordAt (bits j : Nat) : Word := BitVec.ofNat 64 (bits / 2 ^ (32 + 64 * j))

/-- The packet whose low `nbits` bits are those of `w` and whose other bits are 0: the command word is bits 31..0, argument
word `j` is the 64 bits from bit `32 + 64 j`, and a `W_ARRAY` packet's `a0` element words follow them. Where the command
binds source bytes, the binding is `a0` zero bytes. -/
def packetOfTableWord (nbits w : Nat) : Packet :=
  let bits := w % 2 ^ nbits
  let cw : CmdWord := BitVec.ofNat 32 bits
  let a0 := (tableWordAt bits 0).toNat
  match Opcode.ofCode (opField cw) with
  | none => ⟨cw, [], none⟩
  | some o =>
    let count := if o = .wArray then 1 + a0 else o.argWords
    ⟨cw, (List.range count).map (tableWordAt bits), if o.binds then some (List.replicate a0 0) else none⟩

/-- The command this decoder reads from a table word (the host's numbering of bits). -/
def decodeTableWord (nbits w : Nat) : Option Instr := (decode (packetOfTableWord nbits w)).toOption

end Sys2Proof
end

