-- ==== Sys2Proof/Config.lean ====
section
/-! DEFINITION. What an implementation of the block fixes (the parameters of 00_scope R5 that are built in), and the free
values. -/

namespace Sys2Proof

/-- The parameters fixed when the block is built (00_scope R5, 70_reset R271). All are OPEN: the model carries them in its
state, and a statement about every state is a statement about every build. -/
structure Params where
  /-- `NW`: number of writer contexts. -/
  nw : Nat
  /-- `NR`: number of reader contexts. -/
  nr : Nat
  /-- `WCAP`: largest number of bytes one writer context can hold. -/
  wcap : Nat
  /-- `RCAP`: largest number of source bytes one reader context can be bound to. -/
  rcap : Nat
  deriving DecidableEq, Repr

/-- The ranges 00_scope R5 gives: `1 <= NW, NR <= 16` and `1 <= WCAP, RCAP <= 2^61 - 1`. -/
def Params.wf (p : Params) : Bool :=
  1 ≤ p.nw && p.nw ≤ 16 && 1 ≤ p.nr && p.nr ≤ 16 &&
    1 ≤ p.wcap && p.wcap ≤ 2 ^ 61 - 1 && 1 ≤ p.rcap && p.rcap ≤ 2 ^ 61 - 1

/-- The cursor of a reader after a failed read is unspecified (10_state R26, 93_implementation_defined U1): the `k`-th
such value is this free value, bounded where it is used (log 7). It has no body, so nothing can be proved of it. -/
opaque Config.freeCursor : Nat → Word

end Sys2Proof
end

