-- ==== Sys2Proof/Machine/Build.lean ====
section
/-! DEFINITION. The build and the straps that State.reset stands for. spec/ leaves all six parameters OPEN (00_scope R5);
the values here are those of the worked vectors of 95_test_vectors ("Unless said otherwise ... `NW = NR = 2`,
`WCAP = RCAP = 2^20`, `FAST_EN = HOST_LE = 1`"). DESIGN CHOICE (log 1, log 2): no statement rests on them. -/

namespace Sys2Proof.Machine

/-- The build of State.reset. -/
def defaultParams : Params := { nw := 2, nr := 2, wcap := 2 ^ 20, rcap := 2 ^ 20 }

/-- The strap `FAST_EN` of State.reset. -/
def defaultFastEn : Bool := true

/-- The strap `HOST_LE` of State.reset. -/
def defaultHostLe : Bool := true

end Sys2Proof.Machine
end

