-- ==== Sys2Proof/Machine/State.lean ====
section
/-! DEFINITION. The state of the block as plain data: everything 10_state R20, R30 and R31 give it, the build parameters of
00_scope R5, the host's command stream and the last response. -/

namespace Sys2Proof.Machine

/-- A byte store: the bytes that are not 0x00, by address. An unlisted address reads as 0x00 (10_state R21, log 10). -/
abbrev Memory := List Host.Cell

/-- Addresses strictly rising from `lo` on, and no 0x00 listed. -/
def Memory.wfFrom (lo : Nat) : Memory → Bool
  | [] => true
  | (a, b) :: rest => lo ≤ a && b != 0 && Memory.wfFrom (a + 1) rest

/-- The canonical form of a byte store. -/
def Memory.wf (m : Memory) : Bool := Memory.wfFrom 0 m

/-- Lifecycle of a writer context (10_state R20, R23). -/
inductive WriterState where
  | idle | opened | done
  deriving DecidableEq, Repr

/-- Lifecycle of a reader context (10_state R20, R26). -/
inductive ReaderState where
  | idle | opened | poisoned
  deriving DecidableEq, Repr

/-- A writer context `W[w]` (10_state R20, R21). -/
structure Writer where
  /-- `W[w].st`. -/
  st : WriterState
  /-- `W[w].cur`, the bit cursor. -/
  cur : Word
  /-- `W[w].byte[]`, the address space `WS[w]`. -/
  store : Memory
  /-- `W[w].alloc`, the hidden allocated capacity in bytes (R31; no width is given). -/
  alloc : Nat
  deriving DecidableEq, Repr

/-- A reader context `R[r]` (10_state R20, R24). -/
structure Reader where
  /-- `R[r].st`. -/
  st : ReaderState
  /-- `R[r].cur`, the bit cursor. -/
  cur : Word
  /-- `R[r].total`, the total bit length. -/
  total : Word
  /-- `R[r].nbytes`, the number of source bytes bound. -/
  nbytes : Word
  /-- `R[r].src[]`, the address space `SRC[r]`, captured by value at open (R24, log 12). -/
  src : Memory
  deriving DecidableEq, Repr

/-- The names of the status codes (60_exceptions R240). -/
inductive Status where
  | ok | truncated | invalidData | illegalCommand | illegalState | poisoned | fatal
  deriving DecidableEq, Repr

/-- A response packet (30_encoding R94). -/
structure Response where
  status : Status
  r0 : Word
  elems : List Word
  deriving DecidableEq, Repr

/-- What the host can do to the block (00_scope R6, 70_reset R270, R273): send a command packet, or reset it with the two
straps. -/
inductive HostEvent where
  | command (p : Packet)
  | reset (fastEn hostLe : Bool)
  deriving DecidableEq, Repr

/-- The exceptions of 00_scope R10 and 60_exceptions R240. -/
inductive Exception where
  /-- fewer bits remain than asked of reader `r` (R241). -/
  | truncated (r : Ctx)
  /-- reported by the client layer only; the block never raises it (R242). -/
  | invalidData
  /-- the packet or its operands are not legal (R243). -/
  | illegalCommand
  /-- a named context is not in the lifecycle state the command needs (R244). -/
  | illegalState
  /-- the reader is poisoned (R245). -/
  | poisoned
  /-- a store would need more than `WCAP` bytes, or the block is halted (R246). -/
  | fatal
  deriving DecidableEq, Repr

/-- Accesses to addresses that spec/ says do not exist (log 11). No state that meets the invariants of 10_state R22 and R25
reaches one. -/
inductive Fault where
  /-- Raised by `R_BITS`, `R_PEEK`, `R_ARRAY` when the bits asked for lie outside the `nbytes` source bytes, which needs a
  state with `total > 8 * nbytes`. Safe: the machine stops where spec/ gives no byte. -/
  | sourceOutside
  /-- Raised by `W_BYTE` when the byte asked for lies at or above `WCAP`, which needs a state with `cur > 8 * WCAP`. Safe:
  the machine stops where spec/ gives no byte. -/
  | storeOutside
  deriving DecidableEq, Repr

/-- Why a command has no meaning. No arm of this model answers one. -/
inductive Refusal where
  /-- Raised by no arm: every row of the opcode table has its meaning. Safe. -/
  | notModelled (mnemonic : String)
  deriving DecidableEq, Repr

/-- The whole state. The vectors have 16 places, the largest build (00_scope R5); places at or above `NW`, `NR` do not
exist and no command reaches them (log 17). -/
structure State where
  /-- the build parameters, constant (00_scope R5, log 1). -/
  params : Params
  /-- `W[0..NW-1]`. -/
  writers : Vector Writer 16
  /-- `R[0..NR-1]`. -/
  readers : Vector Reader 16
  /-- `FATAL`: the block is halted (10_state R29). -/
  fatal : Bool
  /-- `CFG.FAST_EN` (10_state R30). -/
  fastEn : Bool
  /-- `CFG.HOST_LE` (10_state R30). -/
  hostLe : Bool
  /-- `fp_taken`: the last array command took the fast path; hidden (10_state R31). -/
  fpTaken : Bool
  /-- the host's events not yet taken, oldest first (the model's own field, log 3). -/
  input : List HostEvent
  /-- the last response, none before the first (the model's own field, log 4). -/
  resp : Option Response
  /-- how many free values have been drawn (the model's own field, log 8). -/
  freeCount : Nat
  deriving DecidableEq, Repr

/-- A writer after reset: `IDLE` (10_state R35). The other fields are unspecified there; DESIGN CHOICE zero (log 6). -/
def Writer.atReset : Writer := { st := .idle, cur := 0, store := [], alloc := 0 }

/-- A reader after reset: `IDLE`, no binding (10_state R35). The other fields are unspecified there; DESIGN CHOICE zero
(log 6). -/
def Reader.atReset : Reader := { st := .idle, cur := 0, total := 0, nbytes := 0, src := [] }

/-- The block of build `p` right after a reset that sampled the straps (10_state R35, 70_reset R270). -/
def State.resetWith (p : Params) (fastEn hostLe : Bool) : State :=
  { params := p
    writers := Vector.replicate 16 Writer.atReset
    readers := Vector.replicate 16 Reader.atReset
    fatal := false
    fastEn := fastEn
    hostLe := hostLe
    fpTaken := false
    input := []
    resp := none
    freeCount := 0 }

/-- The machine right after reset, for the build and the straps of Machine/Build.lean. -/
def State.reset : State := State.resetWith defaultParams defaultFastEn defaultHostLe

/-- What one command answers. -/
abbrev Result := Host.Outcome State Fault Refusal

end Sys2Proof.Machine
end

