-- ==== Sys2Proof/Machine/Ops.lean ====
section
/-! DEFINITION. The named operations over byte stores and contexts, the response, taking an exception, reset, and taking
the host's next event. -/

namespace Sys2Proof.Machine

/-! ### Byte stores -/

/-- `B[a]`. -/
def readByte : Memory → Nat → Byte
  | [], _ => 0
  | (a', b) :: rest, a => if a = a' then b else readByte rest a

/-- `B[a] <- v`, keeping the canonical form. -/
def writeByte : Memory → Nat → Byte → Memory
  | [], a, v => if v = 0 then [] else [(a, v)]
  | (a', b) :: rest, a, v =>
    if a < a' then (if v = 0 then (a', b) :: rest else (a, v) :: (a', b) :: rest)
    else if a = a' then (if v = 0 then rest else (a, v) :: rest)
    else (a', b) :: writeByte rest a v

/-- `B[a + t] <- bs[t]` for every `t`. -/
def writeBytes : Memory → Nat → List Byte → Memory
  | m, _, [] => m
  | m, a, b :: bs => writeBytes (writeByte m a b) (a + 1) bs

/-- The store that holds the given bytes from address `a` on and nothing else. -/
def cellsFrom : Nat → List Byte → Memory
  | _, [] => []
  | a, b :: bs => if b = 0 then cellsFrom (a + 1) bs else (a, b) :: cellsFrom (a + 1) bs

/-- The store that holds the given bytes from address 0 on: a source binding (30_encoding R93, "byte 0 first"). -/
def Memory.ofBytes (bs : List Byte) : Memory := cellsFrom 0 bs

/-! ### Contexts -/

/-- `W[w]`. -/
def State.writer (s : State) (w : Ctx) : Writer := s.writers[w.toNat]'(w.isLt)

/-- `R[r]`. -/
def State.reader (s : State) (r : Ctx) : Reader := s.readers[r.toNat]'(r.isLt)

/-- `W[w] <- x`. -/
def State.setWriter (s : State) (w : Ctx) (x : Writer) : State :=
  { s with writers := s.writers.set w.toNat x w.isLt }

/-- `R[r] <- x`. -/
def State.setReader (s : State) (r : Ctx) (x : Reader) : State :=
  { s with readers := s.readers.set r.toNat x r.isLt }

/-- `fp_taken <- b` (43_fastpath_array R181). -/
def State.setFpTaken (s : State) (b : Bool) : State := { s with fpTaken := b }

/-! ### Responses and exceptions -/

/-- The 8-bit code of a status (60_exceptions R240). -/
def Status.code : Status → BitVec 8
  | .ok => 0x00
  | .truncated => 0x01
  | .invalidData => 0x02
  | .illegalCommand => 0x03
  | .illegalState => 0x04
  | .poisoned => 0x05
  | .fatal => 0x06

/-- The 2-bit code of `W[w].st` (10_state R20). -/
def WriterState.code : WriterState → BitVec 2
  | .idle => 0
  | .opened => 1
  | .done => 2

/-- The 2-bit code of `R[r].st` (10_state R20). -/
def ReaderState.code : ReaderState → BitVec 2
  | .idle => 0
  | .opened => 1
  | .poisoned => 2

/-- Put a response packet on the response port (30_encoding R94). -/
def State.respond (s : State) (status : Status) (r0 : Word) (elems : List Word) : State :=
  { s with resp := some { status := status, r0 := r0, elems := elems } }

/-- The status an exception is answered with (60_exceptions R240). -/
def Exception.status : Exception → Status
  | .truncated _ => .truncated
  | .invalidData => .invalidData
  | .illegalCommand => .illegalCommand
  | .illegalState => .illegalState
  | .poisoned => .poisoned
  | .fatal => .fatal

/-- The `k`-th free cursor of a reader of `total` bits: unspecified but for `cur <= total` (10_state R25 item 1, R26, log 7). -/
def freeCursorUpTo (k : Nat) (total : Word) : Word :=
  BitVec.ofNat 64 ((Config.freeCursor k).toNat % (total.toNat + 1))

/-- `R[r].st <- POISONED`, and `R[r].cur` becomes unspecified (60_exceptions R249). DESIGN CHOICE (log 7): item 3 of 10_state
R25 does not bind this step, so the new cursor may lie below the earlier one; R26 and U1 give it no value. -/
def State.poison (s : State) (r : Ctx) : State :=
  { s.setReader r { s.reader r with st := .poisoned, cur := freeCursorUpTo s.freeCount (s.reader r).total } with
    freeCount := s.freeCount + 1 }

/-- The state changes of an exception, and no others (the table of 60_exceptions R249). -/
def State.exceptionChange (s : State) : Exception → State
  | .truncated r => s.poison r
  | .invalidData => s
  | .illegalCommand => s
  | .illegalState => s
  | .poisoned => s
  | .fatal => { s with fatal := true }

/-- Taking an exception: the changes of R249, then the response `(status, r0 = 0)` with no element words. Nothing is saved
and control goes nowhere; there is no return from it (60_exceptions R249, R251). -/
def State.take (s : State) (e : Exception) : State := (s.exceptionChange e).respond e.status 0 []

/-- `raise e` (00_scope R10). -/
def raise (e : Exception) (s : State) : Result := .next (s.take e)

/-- `respond(OK, r0, elems)` (00_scope R10). -/
def answer (s : State) (r0 : Word) (elems : List Word) : Result := .next (s.respond .ok r0 elems)

/-- Every command's first checks in the order of 60_exceptions R248: `Fatal` if the block is halted, `IllegalCommand` if
the operands are not legal, then the command's own rule. -/
@[inline] def checked (s : State) (legal : Bool) (body : Result) : Result :=
  if s.fatal then raise .fatal s
  else if legal then body
  else raise .illegalCommand s

/-! ### Reset and the host's events -/

/-- A reset that samples the straps (70_reset R270, R271). The build stays, and so does what the host has still to send.
Free values already drawn are not drawn again. -/
def State.applyReset (s : State) (fastEn hostLe : Bool) : State :=
  { State.resetWith s.params fastEn hostLe with input := s.input, freeCount := s.freeCount }

/-- The host's events after the next one. -/
def State.dropEvent (s : State) : State := { s with input := s.input.tail }

/-- What the block takes in at a step. -/
inductive Intake where
  /-- the step is complete: nothing to do, a reset, or a packet that is no command. -/
  | complete (t : State)
  /-- a command to execute. -/
  | run (i : Instr) (t : State)
  deriving DecidableEq, Repr

/-- A packet that does not decode: `Fatal` if the block is halted, else `IllegalCommand` (30_encoding R95 steps 1 to 5). -/
def State.undecodable (s : State) : State := s.take (if s.fatal then .fatal else .illegalCommand)

/-- Take the host's next event. With none the block holds its state (00_scope R6, 60_exceptions R258, log 5). -/
def intake (s : State) : Intake :=
  match s.input with
  | [] => .complete s
  | .reset fastEn hostLe :: _ => .complete (s.dropEvent.applyReset fastEn hostLe)
  | .command p :: _ =>
    match decode p with
    | .ok i => .run i s.dropEvent
    | .error _ => .complete s.dropEvent.undecodable

end Sys2Proof.Machine
end

