-- ==== Sys2Proof/Machine/Operands.lean ====
section
/-! DEFINITION. The operand checks of 30_encoding R97 and the pure functions of 40_cursor_arithmetic: `split`, `pack`,
`unpack`, `span`, the two multiplexers and the bit-block copy. -/

namespace Sys2Proof.Machine

/-! ### Operand checks (30_encoding R97) -/

/-- `ctx < NW` (item 5). -/
def State.hasWriter (s : State) (w : Ctx) : Bool := w.toNat < s.params.nw

/-- `ctx < NR` (item 5). -/
def State.hasReader (s : State) (r : Ctx) : Bool := r.toNat < s.params.nr

/-- The width of a bit field (item 3). -/
def fieldWidthOk (width : Width) : Bool := width.toNat ≤ 64

/-- The width of an array element (items 3 and 4). -/
def elementWidthOk (width : Width) : Bool := 1 ≤ width.toNat && width.toNat ≤ 64

/-- The binding of a reader (item 8, 42_reader_ops R161). -/
def State.bindingOk (s : State) (nbytes total : Nat) (src : List Byte) : Bool :=
  nbytes ≤ s.params.rcap && src.length == nbytes && total ≤ 8 * nbytes

/-- Every operand of a command is legal for this build (30_encoding R95 step 4, R97 items 3 to 6 and 8). The element list
of `W_ARRAY` must be one a packet can carry (item 7). -/
def State.legal (s : State) : Instr → Bool
  | .wOpen w => s.hasWriter w
  | .wBits w width _ => s.hasWriter w && fieldWidthOk width
  | .wAppend w v => s.hasWriter w && s.hasWriter v && w != v
  | .wFinish w => s.hasWriter w
  | .wArray w width elems => s.hasWriter w && elementWidthOk width && elems.length < 2 ^ 64
  | .wByte w _ => s.hasWriter w
  | .rOpen r nbytes total src => s.hasReader r && s.bindingOk nbytes.toNat total.toNat src
  | .rOpenB r nbytes src => s.hasReader r && s.bindingOk nbytes.toNat (8 * nbytes.toNat) src
  | .rBits r width => s.hasReader r && fieldWidthOk width
  | .rPeek r width => s.hasReader r && fieldWidthOk width
  | .rRemain r => s.hasReader r
  | .rArray r width _ => s.hasReader r && elementWidthOk width
  | .rClose r => s.hasReader r

/-! ### Cursor arithmetic (40_cursor_arithmetic), exact on natural numbers (R130) -/

/-- `cdiv8(n)`: the number of bytes that hold `n` bits (00_scope R7). -/
def cdiv8 (n : Nat) : Nat := (n + 7) / 8

/-- `split(bit_offset) -> (byte_index, bit_in_byte)` (R120). -/
def split (bitOffset : Nat) : Nat × Nat := (bitOffset / 8, bitOffset % 8)

/-- `pack(value, width)`: the low `width` bits of `value` in the accumulator (R121). -/
def pack (value : Word) (width : Nat) : Word := BitVec.ofNat 64 (value.toNat % 2 ^ width)

/-- `unpack(bits, width)`: the low `width` bits of the shifted window, zero-extended to 64 bits (R122). -/
def unpack (bits : Window) (width : Nat) : Word := BitVec.ofNat 64 (bits.toNat % 2 ^ width)

/-- `span(s, n)`: the number of bytes that hold `n` bits from bit `s` of the first (R123). -/
def span (s n : Nat) : Nat := if n = 0 then 0 else cdiv8 (s + n)

/-- Stream bit `k` of a byte sequence: bit `k mod 8` of byte `k div 8` (00_scope R11, 20_memory R60). -/
def streamBit (m : Memory) (k : Nat) : Bool := (readByte m (k / 8)).getLsbD (k % 8)

/-! ### The multiplexers -/

/-- `WIN[8k+7 : 8k]`. -/
def windowByte (win : Window) (k : Nat) : Byte := win.extractLsb' (8 * k) 8

/-- The window of a write: the packed accumulator shifted to its place (R124). -/
def storeWindow (shift n : Nat) (v : Word) : Window := (pack v n).setWidth 72 <<< shift

/-- Merge the first `m` bytes of a window into a store from byte `b` on, by bitwise or (the loop of R124). -/
def mergeWindow (win : Window) (b m : Nat) (store : Memory) : Memory :=
  (List.range m).foldl (fun st k => writeByte st (b + k) (readByte st (b + k) ||| windowByte win k)) store

/-- The write multiplexer `store_bits(B, c, n, v)` (R124). -/
def storeBits (store : Memory) (c n : Nat) (v : Word) : Memory :=
  mergeWindow (storeWindow (split c).2 n v) (split c).1 (span (split c).2 n) store

/-- `sum over k < m of B[b + k] << (8k)`, the window of a read (R125); the bytes do not overlap, so the sum is a bitwise
or. -/
def loadWindow (m : Memory) (b count : Nat) : Window :=
  (List.range count).foldl (fun win k => win ||| (readByte m (b + k)).setWidth 72 <<< (8 * k)) 0

/-- The read multiplexer `load_bits(B, c, n)` (R125). -/
def loadBits (m : Memory) (c n : Nat) : Word :=
  unpack (loadWindow m (split c).1 (span (split c).2 n) >>> (split c).2) n

/-- The bit-block copy `copy_bits(D, c, S, n)`: successive stores of chunks of at most 64 bits (R129). -/
def copyBits (dst : Memory) (c : Nat) (src : Memory) (n : Nat) : Memory :=
  (List.range ((n + 63) / 64)).foldl
    (fun d i => storeBits d (c + 64 * i) (min 64 (n - 64 * i)) (loadBits src (64 * i) (min 64 (n - 64 * i)))) dst

end Sys2Proof.Machine
end

