-- ==== Sys2Proof/Machine/Flags.lean ====
section
/-! DEFINITION. The block's flags (10_state R29): the lifecycle states a command requires, the capacity and bounds checks
that set `FATAL` or poison a reader, and the fast-path selector. -/

namespace Sys2Proof.Machine

/-- The command needs writer `w` in state `st`, else `IllegalState` (60_exceptions R244). -/
@[inline] def needWriter (s : State) (w : Ctx) (st : WriterState) (body : Result) : Result :=
  if (s.writer w).st = st then body else raise .illegalState s

/-- The command needs reader `r` `OPEN`: `IllegalState` when `IDLE`, `Poisoned` when `POISONED` (60_exceptions R244, R245,
42_reader_ops R160). -/
@[inline] def needReader (s : State) (r : Ctx) (body : Result) : Result :=
  match (s.reader r).st with
  | .idle => raise .illegalState s
  | .poisoned => raise .poisoned s
  | .opened => body

/-- The store of writer `w` can hold `n` more bits: `cdiv8(cur + n) <= WCAP` (60_exceptions R246). -/
def State.hasRoom (s : State) (w : Ctx) (n : Nat) : Bool := cdiv8 ((s.writer w).cur.toNat + n) ≤ s.params.wcap

/-- Capacity is ensured before any byte is written, else `Fatal` (41_writer_ops R142). -/
@[inline] def needRoom (s : State) (w : Ctx) (n : Nat) (body : Result) : Result :=
  if s.hasRoom w n then body else raise .fatal s

/-- At least `n` bits remain in the reader: `cur + n <= total`, exactly (42_reader_ops R163, 40_cursor_arithmetic R130). -/
def Reader.hasBits (x : Reader) (n : Nat) : Bool := x.cur.toNat + n ≤ x.total.toNat

/-- The bytes an access of `n` bits at the cursor fetches exist in `SRC[r]` (10_state R32). -/
def Reader.sourceCovers (x : Reader) (n : Nat) : Bool :=
  n = 0 || (split x.cur.toNat).1 + span (split x.cur.toNat).2 n ≤ x.nbytes.toNat

/-- The bounds check of a read of `n` bits, made before any source byte is fetched: `Truncated`, which poisons the reader
(42_reader_ops R163). An access to bytes that do not exist is a fault (log 11). -/
@[inline] def needBits (s : State) (r : Ctx) (n : Nat) (body : Result) : Result :=
  if (s.reader r).hasBits n then
    if (s.reader r).sourceCovers n then body else .fault .sourceOutside
  else raise (.truncated r) s

/-- The fast-path selector `fast_ok(cur, w)` (43_fastpath_array R181). -/
def State.fastOk (s : State) (cur width : Nat) : Bool :=
  s.fastEn && cur % 8 == 0 && width % 8 == 0 && s.hostLe

/-- The hidden growth policy: `alloc <- min(WCAP, max(need, 2 * alloc))` whenever `need > alloc` (10_state R31). -/
def grownAlloc (wcap need alloc : Nat) : Nat :=
  if alloc < need then min wcap (max need (2 * alloc)) else alloc

end Sys2Proof.Machine
end

