-- ==== Sys2Proof/Machine/ReaderOps.lean ====
section
/-! DEFINITION. The reader commands `R_OPEN`, `R_OPENB`, `R_BITS`, `R_PEEK`, `R_REMAIN`, `R_CLOSE` (42_reader_ops). -/

namespace Sys2Proof.Machine

/-- Bind reader `r` to the source bytes, captured by value (R161, 10_state R24). -/
def State.bindReader (s : State) (r : Ctx) (nbytes total : Word) (src : List Byte) : State :=
  s.setReader r { st := .opened, cur := 0, total := total, nbytes := nbytes, src := Memory.ofBytes src }

/-- The cursor of reader `r` moves on by `n` bits (10_state R28). -/
def State.advanceReader (s : State) (r : Ctx) (n : Nat) : State :=
  s.setReader r { s.reader r with cur := BitVec.ofNat 64 ((s.reader r).cur.toNat + n) }

/-- The bits left unread: `total - cur` (R165). -/
def Reader.remaining (x : Reader) : Word := BitVec.ofNat 64 (x.total.toNat - x.cur.toNat)

/-- `R_OPEN r, nbytes, total, src` (R161). -/
def execROpen (r : Ctx) (nbytes total : Word) (src : List Byte) (s : State) : Result :=
  checked s (s.legal (.rOpen r nbytes total src)) <|
  answer (s.bindReader r nbytes total src) total []

/-- `R_OPENB r, nbytes, src`: `R_OPEN` with `total = 8 * nbytes` (R162). -/
def execROpenB (r : Ctx) (nbytes : Word) (src : List Byte) (s : State) : Result :=
  checked s (s.legal (.rOpenB r nbytes src)) <|
  answer (s.bindReader r nbytes (BitVec.ofNat 64 (8 * nbytes.toNat)) src) (BitVec.ofNat 64 (8 * nbytes.toNat)) []

/-- `R_BITS r, width` (R163). -/
def execRBits (r : Ctx) (width : Width) (s : State) : Result :=
  checked s (s.legal (.rBits r width)) <|
  needReader s r <|
  needBits s r width.toNat <|
  answer (s.advanceReader r width.toNat) (loadBits (s.reader r).src (s.reader r).cur.toNat width.toNat) []

/-- `R_PEEK r, width` (R164). -/
def execRPeek (r : Ctx) (width : Width) (s : State) : Result :=
  checked s (s.legal (.rPeek r width)) <|
  needReader s r <|
  needBits s r width.toNat <|
  answer s (loadBits (s.reader r).src (s.reader r).cur.toNat width.toNat) []

/-- `R_REMAIN r` (R165). -/
def execRRemain (r : Ctx) (s : State) : Result :=
  checked s (s.legal (.rRemain r)) <|
  needReader s r <|
  answer s (s.reader r).remaining []

/-- `R_CLOSE r` (R166). The other fields of the context have no meaning from then on and keep their values (log 9). -/
def execRClose (r : Ctx) (s : State) : Result :=
  checked s (s.legal (.rClose r)) <|
  match (s.reader r).st with
  | .idle => raise .illegalState s
  | .opened => answer (s.setReader r { s.reader r with st := .idle }) (s.reader r).remaining []
  | .poisoned => answer (s.setReader r { s.reader r with st := .idle }) 0 []

end Sys2Proof.Machine
end

