-- ==== Sys2Proof/Machine/WriterOps.lean ====
section
/-! DEFINITION. The writer commands `W_OPEN`, `W_BITS`, `W_APPEND`, `W_FINISH`, `W_BYTE` (41_writer_ops). -/

namespace Sys2Proof.Machine

/-- Writer `w` holds the given store and its cursor has moved on by `n` bits; the hidden capacity has grown as needed
(41_writer_ops R149). -/
def State.extendWriter (s : State) (w : Ctx) (n : Nat) (store : Memory) : State :=
  s.setWriter w
    { s.writer w with
      cur := BitVec.ofNat 64 ((s.writer w).cur.toNat + n)
      store := store
      alloc := grownAlloc s.params.wcap (cdiv8 ((s.writer w).cur.toNat + n)) (s.writer w).alloc }

/-- `W_OPEN w` (R141). -/
def execWOpen (w : Ctx) (s : State) : Result :=
  checked s (s.legal (.wOpen w)) <|
  answer (s.setWriter w { st := .opened, cur := 0, store := [], alloc := 0 }) 0 []

/-- `W_BITS w, width, value` (R142). -/
def execWBits (w : Ctx) (width : Width) (value : Word) (s : State) : Result :=
  checked s (s.legal (.wBits w width value)) <|
  needWriter s w .opened <|
  needRoom s w width.toNat <|
  answer (s.extendWriter w width.toNat
    (storeBits (s.writer w).store (s.writer w).cur.toNat width.toNat value)) 0 []

/-- The source writer of an append is consumed (R143, 10_state R23). Its other fields have no meaning from then on and
keep their values (log 9). -/
def State.consumeWriter (s : State) (v : Ctx) : State := s.setWriter v { s.writer v with st := .idle }

/-- `W_APPEND w, v` (R143). -/
def execWAppend (w v : Ctx) (s : State) : Result :=
  checked s (s.legal (.wAppend w v)) <|
  needWriter s w .opened <|
  needWriter s v .opened <|
  needRoom s w (s.writer v).cur.toNat <|
  answer ((s.extendWriter w (s.writer v).cur.toNat
    (copyBits (s.writer w).store (s.writer w).cur.toNat (s.writer v).store (s.writer v).cur.toNat)).consumeWriter v) 0 []

/-- `W_FINISH w` (R144). -/
def execWFinish (w : Ctx) (s : State) : Result :=
  checked s (s.legal (.wFinish w)) <|
  needWriter s w .opened <|
  answer (s.setWriter w { s.writer w with st := .done }) (s.writer w).cur []

/-- `W_BYTE w, index` (R145). -/
def execWByte (w : Ctx) (index : Word) (s : State) : Result :=
  checked s (s.legal (.wByte w index)) <|
  needWriter s w .done <|
  if index.toNat < cdiv8 (s.writer w).cur.toNat then
    if index.toNat < s.params.wcap then
      answer s ((readByte (s.writer w).store index.toNat).setWidth 64) []
    else .fault .storeOutside
  else raise .illegalCommand s

end Sys2Proof.Machine
end

