-- ==== Sys2Proof/Machine/ArrayOps.lean ====
section
/-! DEFINITION. The array commands `W_ARRAY` and `R_ARRAY`, defined by the slow datapath (43_fastpath_array R183, R188),
and beside them the fast datapath and the selector between the two (R181, R182, R185, R190), whose equivalence with the
slow one is a statement of the model (R187, R191), not an assumption. -/

namespace Sys2Proof.Machine

/-! ### Slow datapath -/

/-- Append the elements one by one from stream bit `c` on (R183, R184). -/
def storeElems : Memory → Nat → Nat → List Word → Memory
  | m, _, _, [] => m
  | m, c, width, e :: es => storeElems (storeBits m c width e) (c + width) width es

/-- Read `n` elements one by one from stream bit `c` on (R188, R189). -/
def loadElems (m : Memory) (c width n : Nat) : List Word :=
  (List.range n).map fun i => loadBits m (c + i * width) width

/-! ### Fast datapath -/

/-- Byte `k` of an element: `E[8k+7 : 8k]`. -/
def elementByte (e : Word) (k : Nat) : Byte := e.extractLsb' (8 * k) 8

/-- The host image of an element list of `m` bytes per element (R182). -/
def hostImage (hostLe : Bool) (m : Nat) (es : List Word) : List Byte :=
  es.flatMap fun e => (List.range m).map fun k => elementByte e (if hostLe then k else m - 1 - k)

/-- The fast datapath of `W_ARRAY`: a plain byte copy of the host image (R185). -/
def fastStoreElems (hostLe : Bool) (m : Memory) (c width : Nat) (es : List Word) : Memory :=
  writeBytes m (c / 8) (hostImage hostLe (width / 8) es)

/-- `sum over k of bs[k] << (8k)`: bytes reinterpreted as an element by a little-endian host (R190). -/
def littleEndian : List Byte → Word
  | [] => 0
  | b :: bs => b.setWidth 64 ||| littleEndian bs <<< 8

/-- The fast datapath of `R_ARRAY` (R190). -/
def fastLoadElems (m : Memory) (c width n : Nat) : List Word :=
  (List.range n).map fun i => littleEndian ((List.range (width / 8)).map fun k => readByte m (c / 8 + i * (width / 8) + k))

/-- The store the selected datapath of `W_ARRAY` leaves (R181). -/
def State.arrayStore (s : State) (w : Ctx) (width : Nat) (es : List Word) : Memory :=
  if s.fastOk (s.writer w).cur.toNat width then
    fastStoreElems s.hostLe (s.writer w).store (s.writer w).cur.toNat width es
  else storeElems (s.writer w).store (s.writer w).cur.toNat width es

/-- The elements the selected datapath of `R_ARRAY` delivers (R181). -/
def State.arrayLoad (s : State) (r : Ctx) (width n : Nat) : List Word :=
  if s.fastOk (s.reader r).cur.toNat width then fastLoadElems (s.reader r).src (s.reader r).cur.toNat width n
  else loadElems (s.reader r).src (s.reader r).cur.toNat width n

/-! ### The commands -/

/-- `W_ARRAY w, width, [E[0], ..., E[N-1]]` (R183). -/
def execWArray (w : Ctx) (width : Width) (elems : List Word) (s : State) : Result :=
  checked s (s.legal (.wArray w width elems)) <|
  needWriter s w .opened <|
  needRoom s w (elems.length * width.toNat) <|
  answer ((s.extendWriter w (elems.length * width.toNat)
    (storeElems (s.writer w).store (s.writer w).cur.toNat width.toNat elems)).setFpTaken
      (s.fastOk (s.writer w).cur.toNat width.toNat)) 0 []

/-- `R_ARRAY r, width, N` (R188). -/
def execRArray (r : Ctx) (width : Width) (n : Word) (s : State) : Result :=
  checked s (s.legal (.rArray r width n)) <|
  needReader s r <|
  needBits s r (n.toNat * width.toNat) <|
  answer ((s.advanceReader r (n.toNat * width.toNat)).setFpTaken (s.fastOk (s.reader r).cur.toNat width.toNat)) n
    (loadElems (s.reader r).src (s.reader r).cur.toNat width.toNat n.toNat)

end Sys2Proof.Machine
end

