-- ==== Sys2Proof/Machine/Dispatch.lean ====
section
/-! DEFINITION. One arm per command of the opcode table. -/

namespace Sys2Proof.Machine

def exec (i : Instr) (s : State) : Host.Outcome State Fault Refusal :=
  match i with
  | .wOpen w => Sys2Proof.Machine.execWOpen w s
  | .wBits w width value => Sys2Proof.Machine.execWBits w width value s
  | .wAppend w v => Sys2Proof.Machine.execWAppend w v s
  | .wFinish w => Sys2Proof.Machine.execWFinish w s
  | .wArray w width elems => Sys2Proof.Machine.execWArray w width elems s
  | .wByte w index => Sys2Proof.Machine.execWByte w index s
  | .rOpen r nbytes total src => Sys2Proof.Machine.execROpen r nbytes total src s
  | .rOpenB r nbytes src => Sys2Proof.Machine.execROpenB r nbytes src s
  | .rBits r width => Sys2Proof.Machine.execRBits r width s
  | .rPeek r width => Sys2Proof.Machine.execRPeek r width s
  | .rRemain r => Sys2Proof.Machine.execRRemain r s
  | .rArray r width n => Sys2Proof.Machine.execRArray r width n s
  | .rClose r => Sys2Proof.Machine.execRClose r s

end Sys2Proof.Machine
end

