-- ==== Sys2Proof/Machine/Step.lean ====
section
/-! DEFINITION. One step of the block: take the host's next event and, where it is a command, execute it
(00_scope R6, 30_encoding R95). -/

namespace Sys2Proof.Machine

/-- One step. -/
def step (s : State) : Host.Outcome State Fault Refusal :=
  match intake s with
  | .complete t => .next t
  | .run i t => exec i t

/-- `s` with the packet of a table word in front of what the host has still to send, so that the next step takes it. -/
def State.withFetchWord (s : State) (nbits w : Nat) : State :=
  { s with input := .command (packetOfTableWord nbits w) :: s.input }

end Sys2Proof.Machine
end

