-- ==== Sys2Proof/Machine/Client.lean ====
section
/-! DEFINITION. The client codecs of 44_client_codecs. They are not the block (00_scope R3): each `enc...` is the list of
commands a pseudo-operation `ENC_x` expands to, and each `dec...` issues the commands of `DEC_x` to the block and rebuilds
the value (R200). What 93_implementation_defined U6, U7 and U9 leave to the client is the parameter `Contract`: the
variable-length scheme, the code points, the text encoding, the bound on zero-size elements; `specContract` holds the
defaults that spec/ documents (log 21). -/

namespace Sys2Proof.Client

open Sys2Proof.Machine

/-! ### The client beside the block -/

/-- What a client sequence ends with: a value, the first error (R218), or a machine that stopped. -/
inductive Outcome (α : Type) where
  | value (a : α) (s : State)
  | error (e : Status) (s : State)
  | stopped
  deriving Repr

/-- A client sequence, run against the block's state. -/
abbrev Codec (α : Type) := State → Outcome α

/-- End with a value. -/
def done {α : Type} (a : α) : Codec α := fun s => .value a s

/-- End with an error of the client's own (R242). -/
def reject {α : Type} (e : Status) : Codec α := fun s => .error e s

/-- First `x`, then `f` on its value; the first error ends the whole sequence (R218). -/
def andThen {α β : Type} (x : Codec α) (f : α → Codec β) : Codec β := fun s =>
  match x s with
  | .value a t => f a t
  | .error e t => .error e t
  | .stopped => .stopped

/-- Issue one command and look at the response. -/
def issue (i : Instr) : Codec Response := fun s =>
  match exec i s with
  | .next t =>
    match t.resp with
    | some a => if a.status = .ok then .value a t else .error a.status t
    | none => .stopped
  | .fault _ => .stopped
  | .refused _ => .stopped

/-- Issue commands in order; the responses of those that went well, oldest first. -/
def issueAll : List Instr → Codec (List Response)
  | [] => done []
  | i :: is => andThen (issue i) fun a => andThen (issueAll is) fun as => done (a :: as)

/-- `R_BITS r, width -> v`. -/
def readField (r : Ctx) (width : Nat) : Codec Word :=
  andThen (issue (.rBits r (BitVec.ofNat 7 width))) fun a => done a.r0

/-- `W_BITS w, width, value`. -/
def writeField (w : Ctx) (width value : Nat) : Instr := .wBits w (BitVec.ofNat 7 width) (BitVec.ofNat 64 value)

/-- `DEC` an element `n` times, in order; the first failure ends it (R214). -/
def repeated {α : Type} (d : Codec α) : Nat → Codec (List α)
  | 0 => done []
  | n + 1 => andThen d fun a => andThen (repeated d n) fun as => done (a :: as)

/-- The least `k <= 64` with `count <= 2^k`, else 65. -/
def leastWidth (count : Nat) : Nat := ((List.range 65).find? fun k => count ≤ 2 ^ k).getD 65

/-- The bit-width descriptor `bw(count)` of a bounded type (R217); none for an empty type or one wider than 64 bits. -/
def bw (count : Nat) : Option Nat := if 1 ≤ count && count ≤ 2 ^ 64 then some (leastWidth count) else none

/-! ### What spec/ leaves to the client (93_implementation_defined U6, U7, U9) -/

/-- How a decoder reads an unbounded number: a decision after each `R_BITS` on the bits read so far (U6: "`dec` over `R_BITS`
results"). -/
inductive ReadPlan where
  /-- the number is read. -/
  | value (n : Nat)
  /-- the prefix is malformed: `InvalidData` (60_exceptions R242). -/
  | malformed
  /-- read a field of `width` bits and go on with its value. -/
  | read (width : Nat) (next : Nat → ReadPlan)

/-- A variable-length scheme `VARLEN` (R206): the fields `(width, value)` that encode a number, and how it is read back. What a
scheme must meet is `VarLen.Lawful` (Safety.lean). -/
structure VarLen where
  enc : Nat → List (Nat × Nat)
  dec : ReadPlan

/-- The code points of a client (R209, U7): 0 to `count - 1`, of which `ok` are valid. -/
structure CharRange where
  count : Nat
  ok : Nat → Bool

/-- The parameters of the client layer. -/
structure Contract where
  /-- `VARLEN` (R206, U6). -/
  varLen : VarLen
  /-- the code points (R209, U7). -/
  chars : CharRange
  /-- well-formed text in the client's text encoding (R211, U7). -/
  textOk : List Byte → Bool
  /-- `ZLEN_MAX`, the largest count of zero-size elements accepted; none: unbounded (U9). -/
  zlenMax : Option Nat
  /-- how a count above `ZLEN_MAX` is answered; spec/ names no error for it (DESIGN CHOICE, log 26). -/
  zlenError : Status

/-- A count of zero-size elements is accepted (U9). -/
def Contract.acceptsZeroSize (C : Contract) (len : Nat) : Bool :=
  match C.zlenMax with
  | none => true
  | some most => len ≤ most

/-! ### Primitive codecs -/

/-- A value that is one field: its width, its bit pattern, and the value a pattern read back stands for. -/
structure Primitive (α : Type) where
  width : Nat
  pattern : α → Nat
  value : Word → α
  /-- the values of the client's type. -/
  valid : α → Bool

/-- The one `W_BITS` of a primitive. -/
def encPrimitive {α : Type} (P : Primitive α) (w : Ctx) (v : α) : List Instr := [writeField w P.width (P.pattern v)]

/-- The one `R_BITS` of a primitive. -/
def decPrimitive {α : Type} (P : Primitive α) (r : Ctx) : Codec α :=
  andThen (readField r P.width) fun p => done (P.value p)

/-- The signed value of an `N`-bit pattern (R202, `sext` of 00_scope R8). -/
def signedValue (n p : Nat) : Int := if p < 2 ^ (n - 1) then p else p - 2 ^ n

/-- A boolean (R201). -/
def boolPrimitive : Primitive Bool := { width := 1, pattern := Bool.toNat, value := fun v => v == 1, valid := fun _ => true }

/-- An unsigned container of `N` bits (R202). -/
def unsignedPrimitive (n : Nat) : Primitive Nat :=
  { width := n, pattern := fun v => v, value := fun p => p.toNat, valid := fun v => v < 2 ^ n }

/-- A signed container of `N` bits: the two's-complement pattern (R202). -/
def signedPrimitive (n : Nat) : Primitive Int :=
  { width := n
    pattern := fun v => (v % 2 ^ n).toNat
    value := fun p => signedValue n p.toNat
    valid := fun v => decide (-2 ^ (n - 1) ≤ v) && decide (v < 2 ^ (n - 1)) }

/-- A 32-bit float, as its bit pattern (R205). -/
def f32Primitive : Primitive (BitVec 32) :=
  { width := 32, pattern := fun x => x.toNat, value := fun p => p.setWidth 32, valid := fun _ => true }

/-- A 64-bit float, as its bit pattern (R205). -/
def f64Primitive : Primitive (BitVec 64) := { width := 64, pattern := fun x => x.toNat, value := fun p => p, valid := fun _ => true }

/-- One byte of a payload (R210). -/
def bytePrimitive : Primitive Byte :=
  { width := 8, pattern := fun b => b.toNat, value := fun p => p.setWidth 8, valid := fun _ => true }

/-- `ENC_BOOL` (R201). -/
def encBool (w : Ctx) (b : Bool) : List Instr := encPrimitive boolPrimitive w b

/-- `DEC_BOOL` (R201). -/
def decBool (r : Ctx) : Codec Bool := decPrimitive boolPrimitive r

/-- `ENC_FIXED(N, v)`: the two's-complement pattern of the `N`-bit container (R202). -/
def encFixed (w : Ctx) (n : Nat) (v : Int) : List Instr := encPrimitive (signedPrimitive n) w v

/-- `DEC_FIXED(N)` of an unsigned container (R202). -/
def decUnsigned (r : Ctx) (n : Nat) : Codec Nat := decPrimitive (unsignedPrimitive n) r

/-- `DEC_FIXED(N)` of a signed container (R202). -/
def decSigned (r : Ctx) (n : Nat) : Codec Int := decPrimitive (signedPrimitive n) r

/-- `ENC_F32` of a bit pattern (R205). -/
def encF32 (w : Ctx) (pattern : BitVec 32) : List Instr := encPrimitive f32Primitive w pattern

/-- `ENC_F64` of a bit pattern (R205). -/
def encF64 (w : Ctx) (pattern : BitVec 64) : List Instr := encPrimitive f64Primitive w pattern

/-- `DEC_F32`: the bit pattern (R205). -/
def decF32 (r : Ctx) : Codec (BitVec 32) := decPrimitive f32Primitive r

/-- `DEC_F64`: the bit pattern (R205). -/
def decF64 (r : Ctx) : Codec (BitVec 64) := decPrimitive f64Primitive r

/-- The number of values of the range `min .. max` (R203). -/
def rangeCount (min max : Int) : Nat := (max - min + 1).toNat

/-- `ENC_BOUNDED(min, max, v)` (R203). -/
def encBounded (w : Ctx) (min max v : Int) : List Instr :=
  [writeField w (leastWidth (rangeCount min max)) (v - min).toNat]

/-- `DEC_BOUNDED(min, max)`: `InvalidData` when the raw value is not below `count` (R204). -/
def decBounded (r : Ctx) (min max : Int) : Codec Int :=
  andThen (readField r (leastWidth (rangeCount min max))) fun p =>
  if p.toNat < rangeCount min max then done (p.toNat + min) else reject .invalidData

/-! ### Unbounded integers and lengths -/

/-- Read a number from reader `r` as a plan says: one `R_BITS` for each read (R206). -/
def runPlan (r : Ctx) : ReadPlan → Codec Nat
  | .value n => done n
  | .malformed => reject .invalidData
  | .read width next => andThen (readField r width) fun p => runPlan r (next p.toNat)

/-- The bit length of `n < 2^64`: the least `L` with `n < 2^L` (R206). -/
def bitLength (n : Nat) : Nat := leastWidth (n + 1)

/-- The fields of `ENC_UVAR(n)` in the instance spec/ documents (R206). -/
def uvarFields (n : Nat) : List (Nat × Nat) :=
  let len := bitLength n
  (if len ≤ 63 then [(len + 1, 2 ^ len - 1)] else [(64, 2 ^ 64 - 1), (1, 0)]) ++
    if 2 ≤ len then [(len - 1, n - 2 ^ (len - 1))] else []

/-- What `DEC_UVAR` does once it has counted `L` one-bits (R206). -/
def uvarTail (len : Nat) : ReadPlan :=
  if len = 0 then .value 0
  else if len = 1 then .value 1
  else .read (len - 1) fun p => .value (2 ^ (len - 1) + p)

/-- The loop of `DEC_UVAR`: count one-bits until a zero bit; with no one-bit more allowed, `InvalidData` (R206). -/
def uvarOnes : Nat → Nat → ReadPlan
  | 0, _ => .malformed
  | allowed + 1, ones => .read 1 fun b => if b = 0 then uvarTail ones else uvarOnes allowed (ones + 1)

/-- `DEC_UVAR` in the instance spec/ documents: at most 64 one-bits, a 65th is `InvalidData` (R206). -/
def uvarPlan : ReadPlan := uvarOnes 65 0

/-- The instance of `VARLEN` that spec/ documents (R206). -/
def specVarLen : VarLen := { enc := uvarFields, dec := uvarPlan }

/-- `ENC_UVAR(n)` (R206). -/
def encUvar (V : VarLen) (w : Ctx) (n : Nat) : List Instr := (V.enc n).map fun f => writeField w f.1 f.2

/-- `DEC_UVAR` (R206). -/
def decUvar (V : VarLen) (r : Ctx) : Codec Nat := runPlan r V.dec

/-- The number of bits that encode `n`. -/
def VarLen.cost (V : VarLen) (n : Nat) : Nat := ((V.enc n).map fun f => f.1).sum

/-- The zig-zag mapping (R207). -/
def zigzag (n : Int) : Nat := if 0 ≤ n then (2 * n).toNat else (-2 * n - 1).toNat

/-- The inverse of the zig-zag mapping (R207). -/
def unzigzag (z : Nat) : Int := if z % 2 = 0 then (z / 2 : Nat) else -(((z + 1) / 2 : Nat) : Int)

/-- `ENC_IVAR(n)` (R207). -/
def encIvar (V : VarLen) (w : Ctx) (n : Int) : List Instr := encUvar V w (zigzag n)

/-- `DEC_IVAR` (R207). -/
def decIvar (V : VarLen) (r : Ctx) : Codec Int := andThen (decUvar V r) fun z => done (unzigzag z)

/-- `ENC_LEN(L)` (R208). -/
def encLen (V : VarLen) (w : Ctx) (n : Nat) : List Instr := encUvar V w n

/-- `DEC_LEN` (R208). -/
def decLen (V : VarLen) (r : Ctx) : Codec Nat := decUvar V r

/-- How many elements of at least `m >= 1` bits a decoder reserves room for before it has read any: R208 allows at most
`min(L, R_REMAIN div m)`, and this client takes all of it (DESIGN CHOICE, log 28). It bounds what is reserved, never what is
accepted. -/
def reservation (len remaining m : Nat) : Nat := min len (remaining / m)

/-- `DEC_LEN` and the guard of R208 for elements of at least `m` bits: the length, and the room reserved. Where `m >= 1` the
client asks `R_REMAIN`; where `m = 0` it reserves nothing and accepts at most `ZLEN_MAX` elements (U9), answering more with an
error of its own (DESIGN CHOICE, log 26). -/
def decCount (C : Contract) (r : Ctx) (m : Nat) : Codec (Nat × Nat) :=
  andThen (decLen C.varLen r) fun len =>
  if m = 0 then if C.acceptsZeroSize len then done (len, 0) else reject C.zlenError
  else andThen (issue (.rRemain r)) fun a => done (len, reservation len a.r0.toNat m)

/-! ### Sequences, with an element loop or one array command (R214) -/

/-- What a decoder has built: the elements in order, in room for `room` of them. -/
structure Collection (α : Type) where
  room : Nat
  items : List α

/-- The elements decoded, in the room reserved, which has grown where it was too small (R214: "allocates incrementally"). -/
def Collection.filled {α : Type} (reserved : Nat) (xs : List α) : Collection α := { room := max reserved xs.length, items := xs }

/-- `DEC_SEQ` with what it has reserved: the guarded length, then the elements (R208, R214). -/
def decCollection {α : Type} (C : Contract) (r : Ctx) (m : Nat) (dec : Codec α) : Codec (Collection α) :=
  andThen (decCount C r m) fun c => andThen (repeated dec c.1) fun xs => done (Collection.filled c.2 xs)

/-- `DEC_SEQ` of primitives with one `R_ARRAY` in place of the element loop (R214). A length is below `2^64`
(`VarLen.Lawful`). -/
def decCollectionArray {α : Type} (C : Contract) (r : Ctx) (P : Primitive α) : Codec (Collection α) :=
  andThen (decCount C r P.width) fun c =>
  andThen (issue (.rArray r (BitVec.ofNat 7 P.width) (BitVec.ofNat 64 c.1))) fun a =>
  done (Collection.filled c.2 (a.elems.map P.value))

/-- `ENC_SEQ` (R214). -/
def encSeq {α : Type} (V : VarLen) (w : Ctx) (enc : α → List Instr) (xs : List α) : List Instr :=
  encLen V w xs.length ++ xs.flatMap enc

/-- `ENC_SEQ` of primitives with one `W_ARRAY` in place of the element loop (R214). -/
def encSeqArray {α : Type} (V : VarLen) (w : Ctx) (P : Primitive α) (xs : List α) : List Instr :=
  encLen V w xs.length ++ [.wArray w (BitVec.ofNat 7 P.width) (xs.map fun x => BitVec.ofNat 64 (P.pattern x))]

/-- `DEC_SEQ` of elements of at least `m` bits (R214). -/
def decSeq {α : Type} (C : Contract) (r : Ctx) (m : Nat) (dec : Codec α) : Codec (List α) :=
  andThen (decCollection C r m dec) fun c => done c.items

/-- `DEC_SEQ` of primitives by one `R_ARRAY` (R214). -/
def decSeqArray {α : Type} (C : Contract) (r : Ctx) (P : Primitive α) : Codec (List α) :=
  andThen (decCollectionArray C r P) fun c => done c.items

/-- `ENC_MAP`: the pairs in the order given (R215). -/
def encMap {κ ν : Type} (V : VarLen) (w : Ctx) (encKey : κ → List Instr) (encValue : ν → List Instr)
    (pairs : List (κ × ν)) : List Instr :=
  encSeq V w (fun p => encKey p.1 ++ encValue p.2) pairs

/-- `DEC_MAP`: the pairs in stream order, duplicates included (R215); `m` bounds a key and a value together. -/
def decMap {κ ν : Type} (C : Contract) (r : Ctx) (m : Nat) (decKey : Codec κ) (decValue : Codec ν) : Codec (List (κ × ν)) :=
  decSeq C r m (andThen decKey fun k => andThen decValue fun v => done (k, v))

/-! ### Characters, bytes and text -/

/-- The valid code points of the default: 0 to 0x10FFFF without 0xD800 to 0xDFFF (R209). -/
def codePointOk (p : Nat) : Bool := p ≤ 0x10FFFF && !(0xD800 ≤ p && p ≤ 0xDFFF)

/-- The code points of the default (R209). -/
def specChars : CharRange := { count := 0x110000, ok := codePointOk }

/-- The width of a character: `bw(count)` (R209). -/
def CharRange.width (R : CharRange) : Nat := leastWidth R.count

/-- `ENC_CHAR(c)` (R209). -/
def encChar (R : CharRange) (w : Ctx) (c : Nat) : List Instr := [writeField w R.width c]

/-- `DEC_CHAR`: `InvalidData` outside the valid range (R209). -/
def decChar (R : CharRange) (r : Ctx) : Codec Nat :=
  andThen (readField r R.width) fun p => if R.ok p.toNat then done p.toNat else reject .invalidData

/-- `ENC_BYTES` (R210). -/
def encBytes (V : VarLen) (w : Ctx) (bs : List Byte) : List Instr := encSeq V w (encPrimitive bytePrimitive w) bs

/-- `ENC_BYTES` with one array command for the payload (R210). -/
def encBytesArray (V : VarLen) (w : Ctx) (bs : List Byte) : List Instr := encSeqArray V w bytePrimitive bs

/-- `DEC_BYTES` (R210). -/
def decBytes (C : Contract) (r : Ctx) : Codec (List Byte) := decSeq C r bytePrimitive.width (decPrimitive bytePrimitive r)

/-- `DEC_BYTES` with one array command for the payload (R210). -/
def decBytesArray (C : Contract) (r : Ctx) : Codec (List Byte) := decSeqArray C r bytePrimitive

/-- Well-formed UTF-8, `need` continuation bytes outstanding of which the next lies in `lo .. hi` (R211). -/
def utf8From : Nat → Nat → Nat → List Byte → Bool
  | need, _, _, [] => need == 0
  | 0, _, _, b :: bs =>
    let x := b.toNat
    if x < 0x80 then utf8From 0 0x80 0xBF bs
    else if x < 0xC2 then false
    else if x < 0xE0 then utf8From 1 0x80 0xBF bs
    else if x = 0xE0 then utf8From 2 0xA0 0xBF bs
    else if x = 0xED then utf8From 2 0x80 0x9F bs
    else if x < 0xF0 then utf8From 2 0x80 0xBF bs
    else if x = 0xF0 then utf8From 3 0x90 0xBF bs
    else if x < 0xF4 then utf8From 3 0x80 0xBF bs
    else if x = 0xF4 then utf8From 3 0x80 0x8F bs
    else false
  | need + 1, lo, hi, b :: bs => lo ≤ b.toNat && b.toNat ≤ hi && utf8From need 0x80 0xBF bs

/-- Well-formed text in the default encoding: well-formed UTF-8 (R211). -/
def textOk (bs : List Byte) : Bool := utf8From 0 0x80 0xBF bs

/-- The defaults of spec/ for everything it leaves to the client (R206, R209, R211, U9; log 21). -/
def specContract : Contract :=
  { varLen := specVarLen, chars := specChars, textOk := textOk, zlenMax := none, zlenError := .invalidData }

/-- The check that follows the bytes of a string: `InvalidData` unless they are well-formed text (R211). -/
def checkText (C : Contract) (bs : List Byte) : Codec (List Byte) := if C.textOk bs then done bs else reject .invalidData

/-- `ENC_STR` of the text's bytes (R211). -/
def encStr (V : VarLen) (w : Ctx) (text : List Byte) : List Instr := encBytes V w text

/-- `ENC_STR` with one array command for the payload (30_encoding R101, R211). -/
def encStrArray (V : VarLen) (w : Ctx) (text : List Byte) : List Instr := encBytesArray V w text

/-- `DEC_STR`: all bytes are read, then checked (R211). -/
def decStr (C : Contract) (r : Ctx) : Codec (List Byte) := andThen (decBytes C r) (checkText C)

/-- `DEC_STR` with one array command for the payload (30_encoding R101, R211). -/
def decStrArray (C : Contract) (r : Ctx) : Codec (List Byte) := andThen (decBytesArray C r) (checkText C)

/-! ### Compound codecs -/

/-- `ENC_OPTION` (R212). -/
def encOption {α : Type} (w : Ctx) (enc : α → List Instr) : Option α → List Instr
  | none => [writeField w 1 0]
  | some x => writeField w 1 1 :: enc x

/-- `DEC_OPTION` (R212). -/
def decOption {α : Type} (r : Ctx) (dec : Codec α) : Codec (Option α) :=
  andThen (readField r 1) fun p => if p = 0 then done none else andThen dec fun x => done (some x)

/-- `ENC_TAG(K, N)` (R213). -/
def encTag (w : Ctx) (k n : Nat) : List Instr := [writeField w (leastWidth n) k]

/-- `DEC_TAG(N)`: `InvalidData` for a tag not below the variant count (R213). -/
def decTag (r : Ctx) (n : Nat) : Codec (Fin n) :=
  andThen (readField r (leastWidth n)) fun k => if h : k.toNat < n then done ⟨k.toNat, h⟩ else reject .invalidData

/-- An enum value: the tag, then the payload of its variant (R213). -/
def encEnum {n : Nat} {π : Fin n → Type} (w : Ctx) (enc : (k : Fin n) → π k → List Instr) (v : (k : Fin n) × π k) :
    List Instr :=
  encTag w v.1.val n ++ enc v.1 v.2

/-- An enum value: the tag, then the payload decoder of the variant it selects (R213). -/
def decEnum {n : Nat} {π : Fin n → Type} (r : Ctx) (dec : (k : Fin n) → Codec (π k)) : Codec ((k : Fin n) × π k) :=
  andThen (decTag r n) fun k => andThen (dec k) fun x => done ⟨k, x⟩

/-- `ENC_STRUCT`: the fields' commands in order (R216). -/
def encStruct (fields : List (List Instr)) : List Instr := fields.flatten

/-- One field of a struct, for a client that may encode it into a writer of its own (R216). -/
structure FieldCode where
  /-- the field's own writer; none: the writer of the struct. -/
  apart : Option Ctx
  /-- the writers the field's encoder uses beside the one it is given, for structs inside the field. -/
  scratch : List Ctx
  /-- the field's commands on a writer. -/
  enc : Ctx → List Instr

/-- The commands that build a field in its own writer, if it has one. -/
def FieldCode.build (f : FieldCode) : List Instr :=
  match f.apart with
  | none => []
  | some v => .wOpen v :: f.enc v

/-- The commands that put a field at the cursor of writer `w`: `W_APPEND` of its own writer, or the field itself. -/
def FieldCode.join (w : Ctx) (f : FieldCode) : List Instr :=
  match f.apart with
  | none => f.enc w
  | some v => [.wAppend w v]

/-- `ENC_STRUCT` with fields encoded into separate writers first, then joined with `W_APPEND` in field order (R216,
41_writer_ops R143). -/
def encStructJoined (w : Ctx) (fields : List FieldCode) : List Instr :=
  fields.flatMap FieldCode.build ++ fields.flatMap (FieldCode.join w)

/-- `DEC_STRUCT` of a field and the fields after it (R216). -/
def decStruct {α β : Type} (first : Codec α) (rest : Codec β) : Codec (α × β) :=
  andThen first fun a => andThen rest fun b => done (a, b)

/-! ### Top level -/

/-- A top-level encode: `W_OPEN`, the value's commands, `W_FINISH`, then every byte of the output (R219). -/
def encodeTop (w : Ctx) (body : List Instr) : Codec (List Byte × Nat) :=
  andThen (issueAll (.wOpen w :: body)) fun _ =>
  andThen (issue (.wFinish w)) fun a =>
  andThen (issueAll ((List.range (cdiv8 a.r0.toNat)).map fun j => .wByte w (BitVec.ofNat 64 j))) fun bytes =>
  done (bytes.map (fun b => b.r0.setWidth 8), a.r0.toNat)

/-- A decode that fails is closed: the client issues `R_CLOSE r`, whatever it answers, and yields the first error (R218,
60_exceptions R251). -/
def closing {α : Type} (r : Ctx) (dec : Codec α) : Codec α := fun s =>
  match dec s with
  | .value a t => .value a t
  | .error e t =>
    match exec (.rClose r) t with
    | .next u => .error e u
    | .fault _ => .stopped
    | .refused _ => .stopped
  | .stopped => .stopped

/-- The rest of a top-level decode on an opened reader: the value, then `R_CLOSE`; the value and the bits left (R219). -/
def decodeOpened {α : Type} (r : Ctx) (dec : Codec α) : Codec (α × Nat) :=
  andThen (closing r dec) fun a => andThen (issue (.rClose r)) fun left => done (a, left.r0.toNat)

/-- A top-level decode with the exact bit length: `R_OPEN`, the value, `R_CLOSE` (R219). -/
def decodeTop {α : Type} (r : Ctx) (src : List Byte) (total : Nat) (dec : Codec α) : Codec (α × Nat) :=
  andThen (issue (.rOpen r (BitVec.ofNat 64 src.length) (BitVec.ofNat 64 total) src)) fun _ => decodeOpened r dec

/-- A top-level decode of whole bytes: `R_OPENB`, the value, `R_CLOSE` (R219). -/
def decodeTopB {α : Type} (r : Ctx) (src : List Byte) (dec : Codec α) : Codec (α × Nat) :=
  andThen (issue (.rOpenB r (BitVec.ofNat 64 src.length) src)) fun _ => decodeOpened r dec

end Sys2Proof.Client
end

