-- ==== Sys2Proof/Machine/Shapes.lean ====
section
/-! DEFINITION. The value shapes a client can encode and decode (44_client_codecs R200 to R216): a `Format` pairs the `ENC_x` of a
shape with its `DEC_x`, and every shape of R201 to R216 is one, compound shapes built from the formats of their parts. Where R210,
R211 and R214 allow an array command in place of the element loop, each side of the format takes either; where R216 allows
fields in separate writers, the format names those writers. -/

namespace Sys2Proof.Client

open Sys2Proof.Machine

/-- An encoder and the decoder that mirrors it (70_reset R276). -/
structure Format (α : Type) where
  /-- the least number of bits a value occupies: the `m` of R208. -/
  minBits : Nat
  /-- the values of the client's type that the shape can carry. -/
  valid : α → Bool
  /-- the writers the encoder uses beside the one it is given (R216). -/
  scratch : List Ctx := []
  enc : Ctx → α → List Instr
  dec : Ctx → Codec α

/-- A value as a field of a struct, encoded into the writer `apart` or, with none, in place (R216). -/
def Format.field {α : Type} (F : Format α) (apart : Option Ctx) (v : α) : FieldCode :=
  { apart := apart, scratch := F.scratch, enc := fun w => F.enc w v }

/-- A primitive as a shape: one field (R201, R202, R205). -/
def Primitive.format {α : Type} (P : Primitive α) : Format α :=
  { minBits := P.width, valid := P.valid, enc := encPrimitive P, dec := decPrimitive P }

/-- A bounded integer (R203, R204). -/
def boundedFormat (lo hi : Int) : Format Int :=
  { minBits := leastWidth (rangeCount lo hi)
    valid := fun v => decide (lo ≤ v) && decide (v ≤ hi)
    enc := fun w v => encBounded w lo hi v
    dec := fun r => decBounded r lo hi }

/-- An unbounded unsigned integer (R206). -/
def uvarFormat (C : Contract) : Format Nat :=
  { minBits := C.varLen.cost 0, valid := fun n => n < 2 ^ 64, enc := encUvar C.varLen, dec := decUvar C.varLen }

/-- An unbounded signed integer (R207). -/
def ivarFormat (C : Contract) : Format Int :=
  { minBits := C.varLen.cost 0
    valid := fun n => decide (-2 ^ 63 ≤ n) && decide (n < 2 ^ 63)
    enc := encIvar C.varLen
    dec := decIvar C.varLen }

/-- A character (R209). -/
def charFormat (C : Contract) : Format Nat :=
  { minBits := C.chars.width, valid := C.chars.ok, enc := encChar C.chars, dec := decChar C.chars }

/-- A byte payload (R210); `a` and `d` say whether the encoder and the decoder use an array command. -/
def bytesFormat (C : Contract) (a d : Bool) : Format (List Byte) :=
  { minBits := C.varLen.cost 0
    valid := fun bs => bs.length < 2 ^ 64
    enc := if a then encBytesArray C.varLen else encBytes C.varLen
    dec := if d then decBytesArray C else decBytes C }

/-- A string payload (R211). -/
def textFormat (C : Contract) (a d : Bool) : Format (List Byte) :=
  { minBits := C.varLen.cost 0
    valid := fun bs => decide (bs.length < 2 ^ 64) && C.textOk bs
    enc := if a then encStrArray C.varLen else encStr C.varLen
    dec := if d then decStrArray C else decStr C }

/-- An option (R212). -/
def optionFormat {α : Type} (F : Format α) : Format (Option α) :=
  { minBits := 1
    valid := fun v => v.all F.valid
    scratch := F.scratch
    enc := fun w => encOption w (F.enc w)
    dec := fun r => decOption r (F.dec r) }

/-- The least of the `minBits` of the variants of an enum. -/
def leastPayload {n : Nat} (bits : Fin n → Nat) : Nat := ((List.finRange n).map bits).min?.getD 0

/-- An enum of `n` variants with their payloads (R213). -/
def enumFormat {n : Nat} {π : Fin n → Type} (F : (k : Fin n) → Format (π k)) : Format ((k : Fin n) × π k) :=
  { minBits := leastWidth n + leastPayload fun k => (F k).minBits
    valid := fun v => (F v.1).valid v.2
    scratch := (List.finRange n).flatMap fun k => (F k).scratch
    enc := fun w => encEnum w fun k => (F k).enc w
    dec := fun r => decEnum r fun k => (F k).dec r }

/-- The lists a sequence of such elements can carry: any length a prefix can hold, and at most `ZLEN_MAX` elements of no bits
(R208, U9). -/
def countOk (C : Contract) (m len : Nat) : Bool := decide (len < 2 ^ 64) && (m != 0 || C.acceptsZeroSize len)

/-- A sequence (R214). -/
def seqFormat {α : Type} (C : Contract) (F : Format α) : Format (List α) :=
  { minBits := C.varLen.cost 0
    valid := fun xs => countOk C F.minBits xs.length && xs.all F.valid
    scratch := F.scratch
    enc := fun w => encSeq C.varLen w (F.enc w)
    dec := fun r => decSeq C r F.minBits (F.dec r) }

/-- A sequence of fixed-width primitives; `a` and `d` say whether the encoder and the decoder use an array command (R214). -/
def seqArrayFormat {α : Type} (C : Contract) (P : Primitive α) (a d : Bool) : Format (List α) :=
  { seqFormat C P.format with
    enc := fun w => if a then encSeqArray C.varLen w P else encSeq C.varLen w (encPrimitive P w)
    dec := fun r => if d then decSeqArray C r P else decSeq C r P.width (decPrimitive P r) }

/-- A struct or tuple with no fields (R216). -/
def unitFormat : Format Unit :=
  { minBits := 0, valid := fun _ => true, enc := fun _ _ => encStruct [], dec := fun _ => done () }

/-- A struct or tuple of a first field and the fields after it (R216). -/
def fieldFormat {α β : Type} (F : Format α) (G : Format β) : Format (α × β) :=
  { minBits := F.minBits + G.minBits
    valid := fun v => F.valid v.1 && G.valid v.2
    scratch := F.scratch ++ G.scratch
    enc := fun w v => encStruct [F.enc w v.1, G.enc w v.2]
    dec := fun r => decStruct (F.dec r) (G.dec r) }

/-- The same struct with the first field, the fields after it, or both encoded into writers of their own and joined with
`W_APPEND` in field order; it decodes as the struct it is (R216). -/
def joinedFormat {α β : Type} (p q : Option Ctx) (F : Format α) (G : Format β) : Format (α × β) :=
  { fieldFormat F G with
    scratch := p.toList ++ q.toList ++ F.scratch ++ G.scratch
    enc := fun w v => encStructJoined w [F.field p v.1, G.field q v.2] }

/-- A map: the pairs in the order given, duplicates included (R215). -/
def mapFormat {κ ν : Type} (C : Contract) (K : Format κ) (N : Format ν) : Format (List (κ × ν)) :=
  { seqFormat C (fieldFormat K N) with
    enc := fun w => encMap C.varLen w (K.enc w) (N.enc w)
    dec := fun r => decMap C r (K.minBits + N.minBits) (K.dec r) (N.dec r) }

/-- The fixed-width primitives (R201, R202, R205). -/
inductive FixedWidth : {α : Type} → Primitive α → Prop where
  /-- R201. -/
  | bool : FixedWidth boolPrimitive
  /-- R202. -/
  | unsigned (n : Nat) (container : n ∈ [8, 16, 32, 64]) : FixedWidth (unsignedPrimitive n)
  /-- R202. -/
  | signed (n : Nat) (container : n ∈ [8, 16, 32, 64]) : FixedWidth (signedPrimitive n)
  /-- R205. -/
  | f32 : FixedWidth f32Primitive
  /-- R205. -/
  | f64 : FixedWidth f64Primitive

/-- Every supported value shape (R201 to R216, R220), each built of supported parts. -/
inductive Supported (C : Contract) : {α : Type} → Format α → Prop where
  /-- R201, R202, R205. -/
  | primitive {α : Type} {P : Primitive α} (fixed : FixedWidth P) : Supported C P.format
  /-- R203, R204. -/
  | bounded (lo hi : Int) (some_value : lo ≤ hi) (in_range : hi - lo < 2 ^ 64) : Supported C (boundedFormat lo hi)
  /-- R206. -/
  | uvar : Supported C (uvarFormat C)
  /-- R207. -/
  | ivar : Supported C (ivarFormat C)
  /-- R209. -/
  | char : Supported C (charFormat C)
  /-- R210. -/
  | bytes (a d : Bool) : Supported C (bytesFormat C a d)
  /-- R211. -/
  | text (a d : Bool) : Supported C (textFormat C a d)
  /-- R212. -/
  | option {α : Type} {F : Format α} (part : Supported C F) : Supported C (optionFormat F)
  /-- R213. -/
  | enum {n : Nat} {π : Fin n → Type} {F : (k : Fin n) → Format (π k)} (some_variant : 1 ≤ n) (in_range : n ≤ 2 ^ 64)
      (parts : ∀ k, Supported C (F k)) : Supported C (enumFormat F)
  /-- R214. -/
  | seq {α : Type} {F : Format α} (part : Supported C F) : Supported C (seqFormat C F)
  /-- R214. -/
  | seqArray {α : Type} {P : Primitive α} (fixed : FixedWidth P) (a d : Bool) : Supported C (seqArrayFormat C P a d)
  /-- R215. -/
  | map {κ ν : Type} {K : Format κ} {N : Format ν} (key : Supported C K) (value : Supported C N) : Supported C (mapFormat C K N)
  /-- R216. -/
  | unit : Supported C unitFormat
  /-- R216. -/
  | field {α β : Type} {F : Format α} {G : Format β} (first : Supported C F) (rest : Supported C G) :
      Supported C (fieldFormat F G)
  /-- R216, joined from separate writers: the writers differ, and no encoder uses one that holds another field. -/
  | joined {α β : Type} {F : Format α} {G : Format β} (p q : Option Ctx) (first : Supported C F) (rest : Supported C G)
      (apart : (p.toList ++ q.toList).Nodup) (kept : ∀ u ∈ p.toList ++ q.toList, u ∉ F.scratch ++ G.scratch) :
      Supported C (joinedFormat p q F G)

/-- A field of a supported shape with a value its type has. -/
def FieldCode.Supported (C : Contract) (f : FieldCode) : Prop :=
  ∃ (α : Type) (F : Format α) (v : α), Client.Supported C F ∧ F.valid v = true ∧ f = F.field f.apart v

/-- The separate writers of a struct joined into writer `w` (R216): they exist, no two are the same, none is `w`, and no
encoder uses `w` or a writer that holds another field. -/
structure WritersApart (hasWriter : Ctx → Bool) (w : Ctx) (fields : List FieldCode) : Prop where
  differ : (w :: fields.filterMap FieldCode.apart).Nodup
  kept : ∀ f ∈ fields, ∀ u ∈ w :: fields.filterMap FieldCode.apart, u ∉ f.scratch
  present : ∀ f ∈ fields, ∀ u ∈ f.apart.toList ++ f.scratch, hasWriter u = true

end Sys2Proof.Client
end

