-- ==== Sys2Proof/Safety.lean ====
section
/-! DEFINITION. What counts as a good state and a safe run, in the terms the statements use: the invariants of 10_state R22
and R25, the part of the state the host can observe, the contexts a command names, and runs of commands. -/

namespace Sys2Proof.Machine

/-! ### Invariants (10_state R22, R25) -/

/-- Every stream bit at or above `cur` is 0 (ZERO-ABOVE, R22 item 2), said of the listed bytes: the byte at address `a` is
below `2^(cur - 8a)`. -/
def highBitsClear (m : Memory) (cur : Nat) : Bool := m.all fun cell => cell.2.toNat < 2 ^ min 8 (cur - 8 * cell.1)

/-- The invariants of a writer context (R22 items 1 and 2, R31); its store is canonical in every lifecycle state. -/
def Writer.inv (p : Params) (x : Writer) : Bool :=
  x.store.wf &&
    (x.st == .idle ||
      (x.cur.toNat ≤ 8 * p.wcap && cdiv8 x.cur.toNat ≤ x.alloc && x.alloc ≤ p.wcap && highBitsClear x.store x.cur.toNat))

/-- The invariants of a reader context (R25 items 1 and 2); its source is canonical in every lifecycle state and lists no
byte at or above `nbytes`. -/
def Reader.inv (p : Params) (x : Reader) : Bool :=
  x.src.wf &&
    (x.st == .idle ||
      (x.cur.toNat ≤ x.total.toNat && x.total.toNat ≤ 8 * x.nbytes.toNat && x.nbytes.toNat ≤ p.rcap &&
        x.src.all fun cell => cell.1 < x.nbytes.toNat))

/-- The invariant of every reachable state, a halted one included (R22 and R25 say "in every reachable state"): a legal build,
every context within its invariants, and no context in use that the build does not have. Whether such a state may be an end is
`GoodEnd`. -/
abbrev Inv (s : State) : Prop :=
  s.params.wf = true ∧
    (∀ w : Ctx, (s.writer w).inv s.params = true) ∧
    (∀ r : Ctx, (s.reader r).inv s.params = true) ∧
    (∀ w : Ctx, s.hasWriter w = true ∨ (s.writer w).st = .idle) ∧
    (∀ r : Ctx, s.hasReader r = true ∨ (s.reader r).st = .idle)

/-- A fault state: the block has suffered exhaustion and is halted. It is never final (60_exceptions R246, 70_reset R288). -/
abbrev FaultState (s : State) : Prop := s.fatal = true

/-- A state that is final for the host's purposes: `FATAL = 0` (70_reset R288). -/
abbrev Final (s : State) : Prop := s.fatal = false

/-- A good end of a session: within the invariants and final. -/
abbrev GoodEnd (s : State) : Prop := Inv s ∧ Final s

/-- The states that any number of steps reaches. -/
inductive Steps (s : State) : State → Prop where
  | none : Steps s s
  | step {t u : State} (before : Steps s t) (moves : step t = .next u) : Steps s u

/-- The states a run reaches from a reset of any legal build, whatever the host sends (00_scope R6, 70_reset R270). -/
inductive Reachable : State → Prop where
  | reset (p : Params) (fastEn hostLe : Bool) (host : List HostEvent) (legal : p.wf = true) :
      Reachable { State.resetWith p fastEn hostLe with input := host }
  | step {s t : State} (before : Reachable s) (moves : step s = .next t) : Reachable t

/-! ### What the host can observe -/

/-- Two writers no command can tell apart: an `IDLE` writer shows nothing (10_state R22), and the allocated capacity is
hidden (R31). -/
def Writer.Same (x y : Writer) : Prop :=
  x.st = y.st ∧ (x.st ≠ .idle → x.cur = y.cur ∧ x.store = y.store)

/-- Two readers no command can tell apart: an `IDLE` reader shows nothing (10_state R25), a `POISONED` one no cursor
(R26), and an `OPEN` one no source bit at or above `total` (20_memory R68). -/
def Reader.Same (x y : Reader) : Prop :=
  x.st = y.st ∧
    (x.st = .opened →
      x.cur = y.cur ∧ x.total = y.total ∧ ∀ k, k < x.total.toNat → streamBit x.src k = streamBit y.src k)

/-- Two states no command can tell apart. `CFG`, `fp_taken`, the hidden capacity, the free-value counter, the command
stream and the last response are left out. -/
def SameVisible (s t : State) : Prop :=
  s.params = t.params ∧ s.fatal = t.fatal ∧
    (∀ w : Ctx, (s.writer w).Same (t.writer w)) ∧ (∀ r : Ctx, (s.reader r).Same (t.reader r))

/-- Equal writers, but for the hidden allocated capacity (10_state R31). -/
def Writer.SameButAlloc (x y : Writer) : Prop := x.st = y.st ∧ x.cur = y.cur ∧ x.store = y.store

/-- The same state of 10_state R20: everything but the hidden state of R31 and the model's own fields. -/
def SameState (s t : State) : Prop :=
  s.params = t.params ∧ s.fatal = t.fatal ∧ s.fastEn = t.fastEn ∧ s.hostLe = t.hostLe ∧ s.readers = t.readers ∧
    ∀ w : Ctx, (s.writer w).SameButAlloc (t.writer w)

/-- Equal readers, but for the unspecified cursor of a `POISONED` one (10_state R26). -/
def Reader.SameButPoison (x y : Reader) : Prop := y = x ∨ (x.st = .poisoned ∧ y = { x with cur := y.cur })

/-- The same state of 10_state R20, but for the unspecified cursors of `POISONED` readers. -/
def SameArchitecture (s t : State) : Prop :=
  s.params = t.params ∧ s.fatal = t.fatal ∧ s.fastEn = t.fastEn ∧ s.hostLe = t.hostLe ∧
    (∀ w : Ctx, s.writer w = t.writer w) ∧ (∀ r : Ctx, (s.reader r).SameButPoison (t.reader r))

/-! ### Commands -/

/-- The writer contexts a command names (30_encoding R91). -/
def Instr.writersNamed : Instr → List Ctx
  | .wOpen w => [w]
  | .wBits w _ _ => [w]
  | .wAppend w v => [w, v]
  | .wFinish w => [w]
  | .wArray w _ _ => [w]
  | .wByte w _ => [w]
  | .rOpen _ _ _ _ => []
  | .rOpenB _ _ _ => []
  | .rBits _ _ => []
  | .rPeek _ _ => []
  | .rRemain _ => []
  | .rArray _ _ _ => []
  | .rClose _ => []

/-- The reader contexts a command names (30_encoding R91). -/
def Instr.readersNamed : Instr → List Ctx
  | .wOpen _ => []
  | .wBits _ _ _ => []
  | .wAppend _ _ => []
  | .wFinish _ => []
  | .wArray _ _ _ => []
  | .wByte _ _ => []
  | .rOpen r _ _ _ => [r]
  | .rOpenB r _ _ => [r]
  | .rBits r _ => [r]
  | .rPeek r _ => [r]
  | .rRemain r => [r]
  | .rArray r _ _ => [r]
  | .rClose r => [r]

/-- The reader a read names and the number of bits it asks for: `R_BITS`, `R_PEEK`, `R_ARRAY` (60_exceptions R241). -/
def bitsAsked : Instr → Option (Ctx × Nat)
  | .rBits r width => some (r, width.toNat)
  | .rPeek r width => some (r, width.toNat)
  | .rArray r width n => some (r, n.toNat * width.toNat)
  | .wOpen _ | .wBits _ _ _ | .wAppend _ _ | .wFinish _ | .wArray _ _ _ | .wByte _ _ | .rOpen _ _ _ _ | .rOpenB _ _ _ | .rRemain _
  | .rClose _ => none

/-- Operands that 30_encoding R97 items 3 to 6 and 8 reserve, for a build. -/
def OutOfRange (p : Params) : Instr → Prop
  | .wOpen w => p.nw ≤ w.toNat
  | .wBits w width _ => p.nw ≤ w.toNat ∨ 64 < width.toNat
  | .wAppend w v => p.nw ≤ w.toNat ∨ p.nw ≤ v.toNat ∨ w = v
  | .wFinish w => p.nw ≤ w.toNat
  | .wArray w width _ => p.nw ≤ w.toNat ∨ width.toNat = 0 ∨ 64 < width.toNat
  | .wByte w _ => p.nw ≤ w.toNat
  | .rOpen r nbytes total src =>
    p.nr ≤ r.toNat ∨ p.rcap < nbytes.toNat ∨ 8 * nbytes.toNat < total.toNat ∨ src.length ≠ nbytes.toNat
  | .rOpenB r nbytes src => p.nr ≤ r.toNat ∨ p.rcap < nbytes.toNat ∨ src.length ≠ nbytes.toNat
  | .rBits r width => p.nr ≤ r.toNat ∨ 64 < width.toNat
  | .rPeek r width => p.nr ≤ r.toNat ∨ 64 < width.toNat
  | .rRemain r => p.nr ≤ r.toNat
  | .rArray r width _ => p.nr ≤ r.toNat ∨ width.toNat = 0 ∨ 64 < width.toNat
  | .rClose r => p.nr ≤ r.toNat

/-- The response `OK` with a result and no elements. -/
def okResponse (r0 : Word) : Response := { status := .ok, r0 := r0, elems := [] }

/-- The response of an exception: `r0 = 0` and no elements (60_exceptions R249). -/
def errorResponse (status : Status) : Response := { status := status, r0 := 0, elems := [] }

/-- Execute commands in order; the responses, oldest first, and the last state. None if the machine stops. -/
def runAll : List Instr → State → Option (List Response × State)
  | [], s => some ([], s)
  | i :: is, s =>
    match exec i s with
    | .next t =>
      match t.resp with
      | some a => (runAll is t).map fun p => (a :: p.1, p.2)
      | none => none
    | .fault _ => none
    | .refused _ => none

/-- `copy_bits` cut into the given chunks, from source bit `off` on (40_cursor_arithmetic R129). -/
def copyChunks (src : Memory) : List Nat → Memory → Nat → Nat → Memory
  | [], d, _, _ => d
  | n :: ns, d, c, off => copyChunks src ns (storeBits d (c + off) n (loadBits src off n)) c (off + n)

/-- The number of bits a list of fields `(width, value)` occupies. -/
def bitCount (fields : List (Width × Word)) : Nat := (fields.map fun f => f.1.toNat).sum

/-- The low `n` bits of a word, least significant first: the order of 20_memory R61. -/
def lowBits (v : Word) (n : Nat) : List Bool := (List.range n).map fun j => v.getLsbD j

/-- The bits a successful command appends to writer `w` (41_writer_ops R142, R143, 43_fastpath_array R183). -/
def bitsAppended (w : Ctx) (i : Instr) (s : State) : List Bool :=
  match i with
  | .wBits x width value => if x = w then lowBits value width.toNat else []
  | .wArray x width elems => if x = w then elems.flatMap fun e => lowBits e width.toNat else []
  | .wAppend x v => if x = w then (List.range (s.writer v).cur.toNat).map fun k => streamBit (s.writer v).store k else []
  | .wOpen _ | .wFinish _ | .wByte _ _ | .rOpen _ _ _ _ | .rOpenB _ _ _ | .rBits _ _ | .rPeek _ _ | .rRemain _ | .rArray _ _ _
  | .rClose _ => []

/-- The bits a run of commands appends to writer `w`: those of its commands that are answered `OK`, in order. -/
def bitsOfRun (w : Ctx) : List Instr → State → List Bool
  | [], _ => []
  | i :: is, s =>
    match exec i s with
    | .next t => (if t.resp.map (fun a => a.status) = some .ok then bitsAppended w i s else []) ++ bitsOfRun w is t
    | .fault _ => []
    | .refused _ => []

/-- The bits a read delivers: those of the value, or of the elements in order (42_reader_ops R163, 43_fastpath_array R188). -/
def bitsDelivered (i : Instr) (a : Response) : List Bool :=
  match i with
  | .rBits _ width => lowBits a.r0 width.toNat
  | .rArray _ width _ => a.elems.flatMap fun e => lowBits e width.toNat
  | .wOpen _ | .wBits _ _ _ | .wAppend _ _ | .wFinish _ | .wArray _ _ _ | .wByte _ _ | .rOpen _ _ _ _ | .rOpenB _ _ _
  | .rPeek _ _ | .rRemain _ | .rClose _ => []

/-- `int(B)`: the sum of `B[j] * 256^j` (20_memory R63). -/
def storeInt (m : Memory) : Nat := (m.map fun cell => cell.2.toNat * 256 ^ cell.1).sum

/-- The first `n` bytes of a store: the `bytes` of an encoded buffer (10_state R33). -/
def outputBytes (m : Memory) (n : Nat) : List Byte := (List.range n).map fun j => readByte m j

end Sys2Proof.Machine

/-! ### The client layer -/

namespace Sys2Proof.Client

open Sys2Proof.Machine

/-- The low `width` bits of a number, least significant first. -/
def natBits (v width : Nat) : List Bool := (List.range width).map v.testBit

/-- The number whose bits are given, least significant first. -/
def natOfBits : List Bool → Nat
  | [] => 0
  | b :: bs => b.toNat + 2 * natOfBits bs

/-- The bits that encode a number. -/
def VarLen.bits (V : VarLen) (n : Nat) : List Bool := (V.enc n).flatMap fun f => natBits f.2 f.1

/-- What a plan reads from a list of bits: the number, and the bits it leaves; none where the bits run out or the prefix is
malformed. -/
def ReadPlan.decode : ReadPlan → List Bool → Option (Nat × List Bool)
  | .value n, bits => some (n, bits)
  | .malformed, _ => none
  | .read width next, bits =>
    if bits.length < width then none else (next (natOfBits (bits.take width))).decode (bits.drop width)

/-- Every field a plan reads is one `R_BITS`, and every number it answers is of 64 bits. -/
def ReadPlan.Bounded : ReadPlan → Prop
  | .value n => n < 2 ^ 64
  | .malformed => True
  | .read width next => width ≤ 64 ∧ ∀ p, p < 2 ^ width → (next p).Bounded

/-- What a variable-length scheme must meet (44_client_codecs R206, 93_implementation_defined U6): its fields are fields of the
block, it decodes what it encodes and leaves the bits that follow, no code is a prefix of another, and the cost does not
decrease. -/
structure VarLen.Lawful (V : VarLen) : Prop where
  fields : ∀ n, n < 2 ^ 64 → ∀ f ∈ V.enc n, f.1 ≤ 64 ∧ f.2 < 2 ^ f.1
  decodes : ∀ n, n < 2 ^ 64 → ∀ rest, V.dec.decode (V.bits n ++ rest) = some (n, rest)
  prefixFree : ∀ m n, m < 2 ^ 64 → n < 2 ^ 64 → V.bits m <+: V.bits n → m = n
  monotone : ∀ m n, m ≤ n → n < 2 ^ 64 → V.cost m ≤ V.cost n
  bounded : V.dec.Bounded

/-- What the parameters of a client must meet: a lawful scheme, and code points that one field can hold (R206, R209). -/
structure Contract.Lawful (C : Contract) : Prop where
  varLen : C.varLen.Lawful
  someChar : 1 ≤ C.chars.count
  charField : C.chars.count ≤ 2 ^ 64
  charRange : ∀ p, C.chars.ok p = true → p < C.chars.count

/-- The bits a command writes where it succeeds; `W_APPEND` moves bits that were counted where they were written. -/
def bitsWritten : Instr → Nat
  | .wBits _ width _ => width.toNat
  | .wArray _ width elems => elems.length * width.toNat
  | .wOpen _ | .wAppend _ _ | .wFinish _ | .wByte _ _ | .rOpen _ _ _ _ | .rOpenB _ _ _ | .rBits _ _ | .rPeek _ _ | .rRemain _
  | .rArray _ _ _ | .rClose _ => 0

/-- The size of an encoding in bits. -/
def sizeOfEncoding (body : List Instr) : Nat := (body.map bitsWritten).sum

end Sys2Proof.Client
end

