-- ==== Sys2Proof/Certificates/Slice0/Obligations.lean ====
section
/-! DEFINITION. The statements for the provers, drawn from the numbered rules of spec/. No statement is about a program, and
none rests on a free value, on the build or the straps of State.reset, or on the reset value of an unspecified register. -/

open Sys2Proof Sys2Proof.Machine

/-! ### Packets -/

/-- 30_encoding R90 to R93, R96: encoding a command and decoding the packet gives the command back, with every operand at
every value the fields of the packet can hold, reserved widths and context numbers included. An element list must be one
that a 64-bit count can describe. -/
def Obligations.EncodeThenDecodeGivesTheCommand : Prop :=
  ∀ i : Instr, (∀ w width elems, i = .wArray w width elems → elems.length < 2 ^ 64) → decode (encode i) = .ok i

/-- 30_encoding R91, R95, R97: a packet that decodes is the packet of the command it decodes to, so no bit of it is
ignored. -/
def Obligations.NoBitOfAPacketIsIgnored : Prop :=
  ∀ (p : Packet) (i : Instr), decode p = .ok i → encode i = p

/-- 30_encoding R95 steps 2, 3 and 5, R98: a packet decodes exactly when its opcode is in the opcode map, the bits under the
row's mask are the row's match word, it has the row's argument words (and, for `W_ARRAY`, exactly `a0` element words after
them), and it has a source binding exactly where the row takes one (the model's reading of R90, log 15). -/
def Obligations.PacketDecodesExactlyWhenWellFramed : Prop :=
  ∀ p : Packet,
    (∃ i, decode p = .ok i) ↔
      ∃ o : Opcode,
        opField p.cw = o.code ∧ p.cw &&& o.mask = o.matchWord ∧ p.binding.isSome = o.binds ∧
          (o ≠ .wArray → p.words.length = o.argWords) ∧
          (o = .wArray → ∃ a0 es, p.words = a0 :: es ∧ es.length = a0.toNat)

/-- 95_test_vectors 2.2 to 2.5: command words of the worked vectors decode to the commands they are listed for, and the
reserved words beside them do not decode. -/
def Obligations.VectorWordsDecodeAsListed : Prop :=
  decode ⟨0x00000110, [], none⟩ = .ok (.wOpen 1) ∧
    decode ⟨0x00050211, [0x15], none⟩ = .ok (.wBits 2 5 0x15) ∧
    decode ⟨0x00002112, [], none⟩ = .ok (.wAppend 1 2) ∧
    decode ⟨0x00100014, [3, 0x1234, 0xABCD, 0x00FF], none⟩ = .ok (.wArray 0 16 [0x1234, 0xABCD, 0x00FF]) ∧
    decode ⟨0x00000020, [1, 3], some [0x05]⟩ = .ok (.rOpen 0 1 3 [0x05]) ∧
    decode ⟨0x00400123, [], none⟩ = .ok (.rPeek 1 64) ∧
    decode ⟨0x00000000, [], none⟩ = .error .unknownOpcode ∧
    decode ⟨0x00800010, [], none⟩ = .error .nonzeroUnusedField ∧
    decode ⟨0x00010010, [], none⟩ = .error .nonzeroUnusedField ∧
    decode ⟨0x00080014, [2, 1], none⟩ = .error .wrongElementCount ∧
    decode ⟨0x00000013, [0], none⟩ = .error .wrongArgumentCount

/-! ### The step -/

/-- 00_scope R6, 30_encoding R95, 60_exceptions R258: when the host's next event is a packet that decodes, the step takes the
packet and executes the command; with no event waiting the block holds its state: that a step is then no change at all is the
model's choice (log 5). -/
def Obligations.StepTakesTheNextEvent : Prop :=
  (∀ (s : State) (p : Packet) (rest : List HostEvent) (i : Instr),
    s.input = .command p :: rest → decode p = .ok i → step s = exec i { s with input := rest }) ∧
  ∀ s : State, s.input = [] → step s = .next s

/-- 30_encoding R95 steps 1 to 5, 60_exceptions R243, R248: a packet that does not decode is answered `IllegalCommand`, or
`Fatal` by a halted block, and nothing else changes. That a missing or a needless source binding is among the reasons is the
model's reading (log 15); the host's stream is the model's own field (log 3). -/
def Obligations.UndecodablePacketIsAnswered : Prop :=
  ∀ (s : State) (p : Packet) (rest : List HostEvent) (e : DecodeError),
    s.input = .command p :: rest → decode p = .error e →
      (s.fatal = false →
        step s = .next { s with input := rest, resp := some (errorResponse .illegalCommand) }) ∧
      (s.fatal = true → step s = .next { s with input := rest, resp := some (errorResponse .fatal) })

/-- 70_reset R270, R271, 10_state R35: a reset makes every context `IDLE`, clears `FATAL`, samples both straps, keeps the
build, and takes nothing else of the host's stream (the model's own field, log 3). -/
def Obligations.ResetEventResetsTheBlock : Prop :=
  ∀ (s : State) (fastEn hostLe : Bool) (rest : List HostEvent),
    s.input = .reset fastEn hostLe :: rest →
      ∃ t, step s = .next t ∧ (∀ w : Ctx, (t.writer w).st = .idle) ∧ (∀ r : Ctx, (t.reader r).st = .idle) ∧
        t.fatal = false ∧ t.fastEn = fastEn ∧ t.hostLe = hostLe ∧ t.params = s.params ∧ t.input = rest

/-! ### Invariants -/

/-- 10_state R35, R22, R25, 70_reset R288: after a reset of any build every context is `IDLE`, `FATAL` is 0 and `CFG` is the
straps; after a reset of a legal build the state is within the invariants and final. -/
def Obligations.ResetStateIsIdleAndGood : Prop :=
  ∀ (p : Params) (fastEn hostLe : Bool),
    (∀ w : Ctx, ((State.resetWith p fastEn hostLe).writer w).st = .idle) ∧
      (∀ r : Ctx, ((State.resetWith p fastEn hostLe).reader r).st = .idle) ∧
      (State.resetWith p fastEn hostLe).fatal = false ∧
      (State.resetWith p fastEn hostLe).fastEn = fastEn ∧
      (State.resetWith p fastEn hostLe).hostLe = hostLe ∧
      (p.wf = true → Inv (State.resetWith p fastEn hostLe) ∧ GoodEnd (State.resetWith p fastEn hostLe))

/-- 10_state R22, R25: whatever the host sends, every step keeps the invariant. -/
def Obligations.EveryStepKeepsTheInvariant : Prop :=
  ∀ s t : State, Inv s → step s = .next t → Inv t

/-- 10_state R22, R25 ("In every reachable state"): every state reached from a reset of a legal build, by any stream of host
events, meets the invariant. -/
def Obligations.EveryReachableStateIsGood : Prop :=
  ∀ s : State, Reachable s → Inv s

/-- 60_exceptions R259, R240, R242, 20_memory R69: from a good state the block never stops, and it answers every packet with
one response whose status is one of the seven of R240 but never `InvalidData`; a response that is not `OK` has `r0 = 0` and
no elements. -/
def Obligations.EveryPacketIsAnswered : Prop :=
  ∀ s : State, Inv s →
    (∃ t, step s = .next t) ∧
      ∀ (p : Packet) (rest : List HostEvent), s.input = .command p :: rest →
        ∃ t a, step s = .next t ∧ t.resp = some a ∧ a.status ≠ .invalidData ∧
          (a.status ≠ .ok → a.r0 = 0 ∧ a.elems = []) ∧ t.input = rest

/-- 10_state R22: in every reachable state an `OPEN` or `DONE` writer has `cur <= 8 * WCAP`, `cur` within the allocated
capacity, and every stream bit at or above `cur` 0; a command other than `W_OPEN w` changes no stream bit of such a writer below its
cursor, unless it consumes the writer (10_state R23), and, while the writer stays `OPEN`, does not decrease the cursor. -/
def Obligations.WriterInvariantsHold : Prop :=
  (∀ (s : State) (w : Ctx), Reachable s → (s.writer w).st ≠ .idle →
    (s.writer w).cur.toNat ≤ 8 * s.params.wcap ∧ (s.writer w).cur.toNat ≤ 8 * (s.writer w).alloc ∧
      cdiv8 (s.writer w).cur.toNat ≤ (s.writer w).alloc ∧
      ∀ k, (s.writer w).cur.toNat ≤ k → streamBit (s.writer w).store k = false) ∧
  ∀ (s t : State) (i : Instr) (w : Ctx), Inv s → (s.writer w).st ≠ .idle → i ≠ .wOpen w → exec i s = .next t →
    ((t.writer w).st ≠ .idle →
        ∀ k, k < (s.writer w).cur.toNat → streamBit (t.writer w).store k = streamBit (s.writer w).store k) ∧
      ((t.writer w).st = .opened → (s.writer w).cur.toNat ≤ (t.writer w).cur.toNat)

/-- 10_state R25: in every reachable state an `OPEN` or `POISONED` reader has `cur <= total <= 8 * nbytes` and
`nbytes <= RCAP`; while the context stays open (no open or close of it is executed) no command changes `total`, `nbytes` or
`src`, and while the reader stays `OPEN` its cursor does not decrease. That item 3 does not bind the step from `OPEN` to
`POISONED`, whose cursor R26 and U1 leave unspecified, is the model's choice (log 7). -/
def Obligations.ReaderInvariantsHold : Prop :=
  (∀ (s : State) (r : Ctx), Reachable s → (s.reader r).st ≠ .idle →
    (s.reader r).cur.toNat ≤ (s.reader r).total.toNat ∧
      (s.reader r).total.toNat ≤ 8 * (s.reader r).nbytes.toNat ∧ (s.reader r).nbytes.toNat ≤ s.params.rcap) ∧
  ∀ (s t : State) (i : Instr) (r : Ctx), Inv s → (s.reader r).st ≠ .idle →
    (∀ nbytes total src, i ≠ .rOpen r nbytes total src) → (∀ nbytes src, i ≠ .rOpenB r nbytes src) →
    i ≠ .rClose r → exec i s = .next t →
    (t.reader r).total = (s.reader r).total ∧ (t.reader r).nbytes = (s.reader r).nbytes ∧
      (t.reader r).src = (s.reader r).src ∧
      ((s.reader r).st = .opened → (t.reader r).st = .opened → (s.reader r).cur.toNat ≤ (t.reader r).cur.toNat)

/-! ### Exceptions -/

/-- 30_encoding R97 items 3 to 6 and 8, 60_exceptions R243, R248: a command with an operand out of its range is answered
`IllegalCommand` whatever the state of the contexts it names, and nothing else changes. -/
def Obligations.OutOfRangeOperandsAreIllegal : Prop :=
  ∀ (s : State) (i : Instr), s.fatal = false → OutOfRange s.params i →
    exec i s = .next { s with resp := some (errorResponse .illegalCommand) }

/-- 60_exceptions R244, the whole table: which lifecycle state each command needs, and that `W_OPEN`, `R_OPEN` and `R_OPENB`
need none. A command in the wrong state is answered `IllegalState` and nothing else changes. -/
def Obligations.WrongLifecycleStateIsRefused : Prop :=
  (∀ (s : State) (i : Instr) (w : Ctx), s.fatal = false → s.legal i = true → (s.writer w).st ≠ .opened →
    ((∃ width value, i = .wBits w width value) ∨ (∃ width elems, i = .wArray w width elems) ∨ i = .wFinish w ∨
      (∃ v, i = .wAppend w v) ∨ ∃ u, i = .wAppend u w) →
    exec i s = .next { s with resp := some (errorResponse .illegalState) }) ∧
  (∀ (s : State) (w : Ctx) (index : Word), s.fatal = false → s.legal (.wByte w index) = true →
    (s.writer w).st ≠ .done → exec (.wByte w index) s = .next { s with resp := some (errorResponse .illegalState) }) ∧
  (∀ (s : State) (i : Instr) (r : Ctx), s.fatal = false → s.legal i = true → (s.reader r).st = .idle →
    ((∃ width, i = .rBits r width) ∨ (∃ width, i = .rPeek r width) ∨ (∃ width n, i = .rArray r width n) ∨
      i = .rRemain r ∨ i = .rClose r) →
    exec i s = .next { s with resp := some (errorResponse .illegalState) }) ∧
  ∀ (s t : State) (i : Instr) (a : Response),
    ((∃ w, i = .wOpen w) ∨ (∃ r nbytes total src, i = .rOpen r nbytes total src) ∨
      ∃ r nbytes src, i = .rOpenB r nbytes src) →
    exec i s = .next t → t.resp = some a → a.status ≠ .illegalState

/-- 60_exceptions R245: on a `POISONED` reader `R_BITS`, `R_PEEK`, `R_ARRAY` and `R_REMAIN` are answered `Poisoned` and
nothing else changes, width 0 and `N = 0` included; only `R_OPEN`, `R_OPENB` or `R_CLOSE` of that reader, or a reset, ends
the state. -/
def Obligations.PoisonedReaderRefusesReads : Prop :=
  (∀ (s : State) (i : Instr) (r : Ctx), s.fatal = false → s.legal i = true → (s.reader r).st = .poisoned →
    ((∃ width, i = .rBits r width) ∨ (∃ width, i = .rPeek r width) ∨ (∃ width n, i = .rArray r width n) ∨
      i = .rRemain r) →
    exec i s = .next { s with resp := some (errorResponse .poisoned) }) ∧
  ∀ (s t : State) (r : Ctx), (s.reader r).st = .poisoned → step s = .next t → (t.reader r).st ≠ .poisoned →
    (∃ f h rest, s.input = .reset f h :: rest) ∨
      ∃ p rest i, s.input = .command p :: rest ∧ decode p = .ok i ∧
        ((∃ nbytes total src, i = .rOpen r nbytes total src) ∨ (∃ nbytes src, i = .rOpenB r nbytes src) ∨ i = .rClose r)

/-- 60_exceptions R241, R249: a read of more bits than remain is answered `Truncated`: the reader becomes `POISONED`, its
cursor is left unspecified, and nothing else of the machine's state changes. A read of width 0 and an array read of `N = 0`
are never answered so. -/
def Obligations.ReadPastTheEndPoisons : Prop :=
  (∀ (s : State) (i : Instr) (r : Ctx) (n : Nat), s.fatal = false → s.legal i = true → (s.reader r).st = .opened →
    ((∃ width : Width, i = .rBits r width ∧ n = width.toNat) ∨ (∃ width : Width, i = .rPeek r width ∧ n = width.toNat) ∨
      ∃ (width : Width) (count : Word), i = .rArray r width count ∧ n = count.toNat * width.toNat) →
    (s.reader r).total.toNat < (s.reader r).cur.toNat + n →
    ∃ t, exec i s = .next t ∧ t.resp = some (errorResponse .truncated) ∧
      t.reader r = { s.reader r with st := .poisoned, cur := (t.reader r).cur } ∧
      (∀ q, q ≠ r → t.reader q = s.reader q) ∧ t.writers = s.writers ∧ t.fatal = s.fatal ∧ t.fastEn = s.fastEn ∧
      t.hostLe = s.hostLe ∧ t.fpTaken = s.fpTaken ∧ t.params = s.params ∧ t.input = s.input) ∧
  ∀ (s t : State) (i : Instr) (r : Ctx) (a : Response), Inv s →
    (i = .rBits r 0 ∨ i = .rPeek r 0 ∨ ∃ width, i = .rArray r width 0) →
    exec i s = .next t → t.resp = some a → a.status ≠ .truncated

/-- 60_exceptions R246: a write that would need more than `WCAP` bytes writes nothing, sets `FATAL` and is answered `Fatal`;
from then on every command, and every packet whether it decodes or not, is answered `Fatal` and changes nothing; only a
reset clears `FATAL`, so without one every later state is a fault state and none is final. -/
def Obligations.ExhaustionHaltsTheBlock : Prop :=
  (∀ (s : State) (i : Instr) (w : Ctx) (n : Nat), s.fatal = false → s.legal i = true → (s.writer w).st = .opened →
    ((∃ (width : Width) (value : Word), i = .wBits w width value ∧ n = width.toNat) ∨
      (∃ v, i = .wAppend w v ∧ (s.writer v).st = .opened ∧ n = (s.writer v).cur.toNat) ∨
      ∃ (width : Width) (elems : List Word), i = .wArray w width elems ∧ n = elems.length * width.toNat) →
    s.params.wcap < cdiv8 ((s.writer w).cur.toNat + n) →
    exec i s = .next { s with fatal := true, resp := some (errorResponse .fatal) }) ∧
  (∀ (s : State) (i : Instr), s.fatal = true → exec i s = .next { s with resp := some (errorResponse .fatal) }) ∧
  (∀ (s : State) (p : Packet) (rest : List HostEvent), s.fatal = true → s.input = .command p :: rest →
    step s = .next { s with input := rest, resp := some (errorResponse .fatal) }) ∧
  (∀ s t : State, s.fatal = true → step s = .next t → t.fatal = false → ∃ f h rest, s.input = .reset f h :: rest) ∧
  ∀ s t : State, FaultState s → (∀ f h, HostEvent.reset f h ∉ s.input) → Steps s t → FaultState t ∧ ¬Final t ∧ ¬GoodEnd t

/-- 60_exceptions R249, R250: what a command that is not answered `OK` changes: for `IllegalCommand`, `IllegalState` and
`Poisoned` nothing; for `Fatal` the bit `FATAL`; for `Truncated` the lifecycle state and the cursor of the reader it names
(the counter of free values is the model's own). -/
def Obligations.ExceptionsChangeOnlyWhatTheTableSays : Prop :=
  ∀ (s t : State) (i : Instr) (a : Response), exec i s = .next t → t.resp = some a → a.status ≠ .ok →
    a.r0 = 0 ∧ a.elems = [] ∧
      ((a.status = .illegalCommand ∨ a.status = .illegalState ∨ a.status = .poisoned) ∧ t = { s with resp := some a } ∨
        a.status = .fatal ∧ t = { s with fatal := true, resp := some a } ∨
        a.status = .truncated ∧
          ∃ r cur count, Instr.readersNamed i = [r] ∧
            t = { s.setReader r { s.reader r with st := .poisoned, cur := cur } with
                    freeCount := count, resp := some a })

/-! ### What the writer commands do -/

/-- 41_writer_ops R141, 10_state R36: `W_OPEN` completes in every lifecycle state of its writer and leaves it `OPEN`, with
cursor 0, every byte zero and no capacity allocated. -/
def Obligations.OpenWriterIsEmpty : Prop :=
  ∀ (s : State) (w : Ctx), s.fatal = false → w.toNat < s.params.nw →
    ∃ t, exec (.wOpen w) s = .next t ∧ t.resp = some (okResponse 0) ∧ (t.writer w).st = .opened ∧
      (t.writer w).cur = 0 ∧ (∀ j, readByte (t.writer w).store j = 0) ∧ (t.writer w).alloc = 0

/-- 41_writer_ops R142, "Result bit by bit": `W_BITS` on an `OPEN` writer with room completes; the cursor advances by
`width`, stream bit `cur + i` becomes bit `i` of `value`, and no other stream bit changes. -/
def Obligations.WriteBitsAppendsTheValue : Prop :=
  ∀ (s : State) (w : Ctx) (width : Width) (value : Word), Inv s → s.fatal = false → w.toNat < s.params.nw →
    width.toNat ≤ 64 → (s.writer w).st = .opened → cdiv8 ((s.writer w).cur.toNat + width.toNat) ≤ s.params.wcap →
    ∃ t, exec (.wBits w width value) s = .next t ∧ t.resp = some (okResponse 0) ∧ (t.writer w).st = .opened ∧
      (t.writer w).cur.toNat = (s.writer w).cur.toNat + width.toNat ∧
      (∀ i, i < width.toNat → streamBit (t.writer w).store ((s.writer w).cur.toNat + i) = value.getLsbD i) ∧
      ∀ k, k < (s.writer w).cur.toNat ∨ (s.writer w).cur.toNat + width.toNat ≤ k →
        streamBit (t.writer w).store k = streamBit (s.writer w).store k

/-- 41_writer_ops R143, "Result bit by bit": `W_APPEND` of one `OPEN` writer to another with room completes; stream bit
`cur + i` of the destination becomes stream bit `i` of the source, nothing else in the destination changes, its cursor
advances by the source's, and the source becomes `IDLE`. -/
def Obligations.AppendConcatenatesTheSource : Prop :=
  ∀ (s : State) (w v : Ctx), Inv s → s.fatal = false → w.toNat < s.params.nw → v.toNat < s.params.nw → w ≠ v →
    (s.writer w).st = .opened → (s.writer v).st = .opened →
    cdiv8 ((s.writer w).cur.toNat + (s.writer v).cur.toNat) ≤ s.params.wcap →
    ∃ t, exec (.wAppend w v) s = .next t ∧ t.resp = some (okResponse 0) ∧ (t.writer w).st = .opened ∧
      (t.writer v).st = .idle ∧ (t.writer w).cur.toNat = (s.writer w).cur.toNat + (s.writer v).cur.toNat ∧
      (∀ i, i < (s.writer v).cur.toNat →
        streamBit (t.writer w).store ((s.writer w).cur.toNat + i) = streamBit (s.writer v).store i) ∧
      ∀ k, k < (s.writer w).cur.toNat ∨ (s.writer w).cur.toNat + (s.writer v).cur.toNat ≤ k →
        streamBit (t.writer w).store k = streamBit (s.writer w).store k

/-- 41_writer_ops R144, 10_state R33, 20_memory R68: `W_FINISH` on an `OPEN` writer completes, answers the bit length, makes
the writer `DONE` and changes neither cursor nor store; the trailing bits of the output are zero. -/
def Obligations.FinishFixesThePaddedOutput : Prop :=
  ∀ (s : State) (w : Ctx), Inv s → s.fatal = false → w.toNat < s.params.nw → (s.writer w).st = .opened →
    ∃ t, exec (.wFinish w) s = .next t ∧ t.resp = some (okResponse (s.writer w).cur) ∧
      t.writer w = { s.writer w with st := .done } ∧
      (outputBytes (t.writer w).store (cdiv8 (s.writer w).cur.toNat)).length = cdiv8 (s.writer w).cur.toNat ∧
      ∀ k, (s.writer w).cur.toNat ≤ k → streamBit (t.writer w).store k = false

/-- 41_writer_ops R145: `W_BYTE` on a `DONE` writer answers the byte at `index`, zero-extended, when `index` lies in the
output, and `IllegalCommand` when it does not; either way no state changes. -/
def Obligations.ByteReadsTheOutput : Prop :=
  ∀ (s : State) (w : Ctx) (index : Word), Inv s → s.fatal = false → w.toNat < s.params.nw → (s.writer w).st = .done →
    (index.toNat < cdiv8 (s.writer w).cur.toNat →
      ∃ t b, exec (.wByte w index) s = .next t ∧ t = { s with resp := some (okResponse b) } ∧
        ∀ j, b.getLsbD j = (decide (j < 8) && streamBit (s.writer w).store (8 * index.toNat + j))) ∧
    (cdiv8 (s.writer w).cur.toNat ≤ index.toNat →
      exec (.wByte w index) s = .next { s with resp := some (errorResponse .illegalCommand) })

/-- 43_fastpath_array R183, "Bit by bit": `W_ARRAY` on an `OPEN` writer with room for the whole run completes; stream bit
`cur + i * width + j` becomes bit `j` of element `i`, no other stream bit changes, and the cursor advances by
`N * width`. -/
def Obligations.ArrayWriteAppendsTheElements : Prop :=
  ∀ (s : State) (w : Ctx) (width : Width) (elems : List Word), Inv s → s.fatal = false → w.toNat < s.params.nw →
    1 ≤ width.toNat → width.toNat ≤ 64 → elems.length < 2 ^ 64 → (s.writer w).st = .opened →
    cdiv8 ((s.writer w).cur.toNat + elems.length * width.toNat) ≤ s.params.wcap →
    ∃ t, exec (.wArray w width elems) s = .next t ∧ t.resp = some (okResponse 0) ∧ (t.writer w).st = .opened ∧
      (t.writer w).cur.toNat = (s.writer w).cur.toNat + elems.length * width.toNat ∧
      (∀ i j, i < elems.length → j < width.toNat →
        streamBit (t.writer w).store ((s.writer w).cur.toNat + i * width.toNat + j) = (elems.getD i 0).getLsbD j) ∧
      ∀ k, k < (s.writer w).cur.toNat ∨ (s.writer w).cur.toNat + elems.length * width.toNat ≤ k →
        streamBit (t.writer w).store k = streamBit (s.writer w).store k

/-! ### What the reader commands do -/

/-- 42_reader_ops R161, 10_state R37: `R_OPEN` with a binding the build accepts completes in every lifecycle state of its
reader and leaves it `OPEN` at cursor 0, with the given lengths and bytes. -/
def Obligations.OpenReaderBindsTheSource : Prop :=
  ∀ (s : State) (r : Ctx) (nbytes total : Word) (src : List Byte), s.fatal = false → r.toNat < s.params.nr →
    nbytes.toNat ≤ s.params.rcap → src.length = nbytes.toNat → total.toNat ≤ 8 * nbytes.toNat →
    ∃ t, exec (.rOpen r nbytes total src) s = .next t ∧ t.resp = some (okResponse total) ∧
      (t.reader r).st = .opened ∧ (t.reader r).cur = 0 ∧ (t.reader r).total = total ∧ (t.reader r).nbytes = nbytes ∧
      ∀ j, j < src.length → readByte (t.reader r).src j = src.getD j 0

/-- 42_reader_ops R162: `R_OPENB r, nbytes, src` is exactly `R_OPEN r, nbytes, 8 * nbytes, src`, and with a binding the build
accepts it completes and answers `8 * nbytes`. -/
def Obligations.OpenWholeBytesIsOpen : Prop :=
  ∀ (s : State) (r : Ctx) (nbytes : Word) (src : List Byte), Inv s →
    exec (.rOpenB r nbytes src) s = exec (.rOpen r nbytes (BitVec.ofNat 64 (8 * nbytes.toNat)) src) s ∧
    (s.fatal = false → r.toNat < s.params.nr → nbytes.toNat ≤ s.params.rcap → src.length = nbytes.toNat →
      ∃ t a, exec (.rOpenB r nbytes src) s = .next t ∧ t.resp = some (okResponse a) ∧ a.toNat = 8 * nbytes.toNat ∧
        (t.reader r).st = .opened ∧ (t.reader r).cur = 0 ∧ (t.reader r).total = a ∧ (t.reader r).nbytes = nbytes ∧
        ∀ j, j < src.length → readByte (t.reader r).src j = src.getD j 0)

/-- 42_reader_ops R163, "Result bit by bit", and R164: `R_BITS` of bits that remain completes, answers the value whose bit
`i` is stream bit `cur + i` for `i < width` and 0 above, and advances the cursor by `width`; `R_PEEK` completes with the same
answer and changes no state. -/
def Obligations.ReadAndPeekReturnTheField : Prop :=
  ∀ (s : State) (r : Ctx) (width : Width), Inv s → s.fatal = false → r.toNat < s.params.nr → width.toNat ≤ 64 →
    (s.reader r).st = .opened → (s.reader r).cur.toNat + width.toNat ≤ (s.reader r).total.toNat →
    ∃ (t : State) (v cur : Word), exec (.rBits r width) s = .next t ∧
      exec (.rPeek r width) s = .next { s with resp := some (okResponse v) } ∧
      (∀ i, v.getLsbD i = (decide (i < width.toNat) && streamBit (s.reader r).src ((s.reader r).cur.toNat + i))) ∧
      cur.toNat = (s.reader r).cur.toNat + width.toNat ∧
      t = { s.setReader r { s.reader r with cur := cur } with resp := some (okResponse v) }

/-- 42_reader_ops R165: `R_REMAIN` on an `OPEN` reader completes, changes no state and answers `total - cur`; `R_BITS r, n`
is answered `OK` if and only if `n` is at most that count. -/
def Obligations.RemainCountsTheReadableBits : Prop :=
  ∀ (s : State) (r : Ctx), Inv s → s.fatal = false → r.toNat < s.params.nr → (s.reader r).st = .opened →
    ∃ left : Word, exec (.rRemain r) s = .next { s with resp := some (okResponse left) } ∧
      left.toNat + (s.reader r).cur.toNat = (s.reader r).total.toNat ∧
      ∀ width : Width, width.toNat ≤ 64 →
        ((∃ t v, exec (.rBits r width) s = .next t ∧ t.resp = some (okResponse v)) ↔ width.toNat ≤ left.toNat)

/-- 43_fastpath_array R188: `R_ARRAY` of a run that remains completes, answers `N` and `N` elements, bit `j` of element `i`
being stream bit `cur + i * width + j` and every higher bit 0, and advances the cursor by `N * width`. -/
def Obligations.ArrayReadReturnsTheElements : Prop :=
  ∀ (s : State) (r : Ctx) (width : Width) (n : Word), Inv s → s.fatal = false → r.toNat < s.params.nr →
    1 ≤ width.toNat → width.toNat ≤ 64 → (s.reader r).st = .opened →
    (s.reader r).cur.toNat + n.toNat * width.toNat ≤ (s.reader r).total.toNat →
    ∃ t elems, exec (.rArray r width n) s = .next t ∧ t.resp = some { status := .ok, r0 := n, elems := elems } ∧
      elems.length = n.toNat ∧ (t.reader r).st = .opened ∧
      (t.reader r).cur.toNat = (s.reader r).cur.toNat + n.toNat * width.toNat ∧
      ∀ i j, i < n.toNat →
        (elems.getD i 0).getLsbD j =
          (decide (j < width.toNat) && streamBit (s.reader r).src ((s.reader r).cur.toNat + i * width.toNat + j))

/-- 42_reader_ops R166: `R_CLOSE` on an `OPEN` or `POISONED` reader completes and makes it `IDLE`; it answers the unread bits
of an `OPEN` reader and 0 for a `POISONED` one. -/
def Obligations.CloseReportsTheUnreadBits : Prop :=
  ∀ (s : State) (r : Ctx), Inv s → s.fatal = false → r.toNat < s.params.nr → (s.reader r).st ≠ .idle →
    ∃ t left, exec (.rClose r) s = .next t ∧ t.resp = some (okResponse left) ∧ (t.reader r).st = .idle ∧
      ((s.reader r).st = .opened → left.toNat + (s.reader r).cur.toNat = (s.reader r).total.toNat) ∧
      ((s.reader r).st = .poisoned → left = 0)

/-! ### Frames -/

/-- Frame of the writer commands (10_state R22, R29, 20_memory R66, R70): no reader, no build or configuration field and no
writer the command does not name changes; `FATAL` changes only with the answer `Fatal`; only `W_ARRAY` records a path (R31,
43_fastpath_array R181); and every byte outside the bytes a command stores to reads as before. That the writer consumed by a
`W_APPEND` keeps its store and cursor is the model's choice (log 9): spec/ gives the fields of an `IDLE` context no value
(93_implementation_defined U2). -/
def Obligations.WriterCommandsFrame : Prop :=
  ∀ (s t : State) (i : Instr), Instr.readersNamed i = [] → exec i s = .next t →
    t.readers = s.readers ∧ t.params = s.params ∧ t.fastEn = s.fastEn ∧ t.hostLe = s.hostLe ∧ t.input = s.input ∧
    t.freeCount = s.freeCount ∧ (∀ u, u ∉ Instr.writersNamed i → t.writer u = s.writer u) ∧
    ((∀ a, t.resp = some a → a.status ≠ .fatal) → t.fatal = s.fatal) ∧
    ((∀ w width elems, i ≠ .wArray w width elems) → t.fpTaken = s.fpTaken) ∧
    (∀ (w : Ctx) (width : Width) (value : Word) (a : Nat), i = .wBits w width value →
      a < (split (s.writer w).cur.toNat).1 ∨
          (split (s.writer w).cur.toNat).1 + span (split (s.writer w).cur.toNat).2 width.toNat ≤ a →
        readByte (t.writer w).store a = readByte (s.writer w).store a) ∧
    (∀ (w : Ctx) (width : Width) (elems : List Word) (a : Nat), i = .wArray w width elems →
      a < (split (s.writer w).cur.toNat).1 ∨
          (split (s.writer w).cur.toNat).1 + span (split (s.writer w).cur.toNat).2 (elems.length * width.toNat) ≤ a →
        readByte (t.writer w).store a = readByte (s.writer w).store a) ∧
    (∀ (w v : Ctx) (a : Nat), i = .wAppend w v →
      a < (split (s.writer w).cur.toNat).1 ∨
          (split (s.writer w).cur.toNat).1 + span (split (s.writer w).cur.toNat).2 (s.writer v).cur.toNat ≤ a →
        readByte (t.writer w).store a = readByte (s.writer w).store a) ∧
    (∀ w v : Ctx, i = .wAppend w v → w ≠ v →
      (t.writer v).store = (s.writer v).store ∧ (t.writer v).cur = (s.writer v).cur) ∧
    (∀ w : Ctx, (i = .wFinish w ∨ ∃ index, i = .wByte w index) →
      (t.writer w).store = (s.writer w).store ∧ (t.writer w).cur = (s.writer w).cur)

/-- 42_reader_ops R170: no reader command changes any writer, any other reader, `FATAL`, the build or the configuration, and
of the reader it names only `st` and `cur`, and at an open `total`, `nbytes` and `src`. Only `R_ARRAY` records a path. -/
def Obligations.ReaderCommandsFrame : Prop :=
  ∀ (s t : State) (i : Instr) (r : Ctx), Instr.readersNamed i = [r] → exec i s = .next t →
    t.writers = s.writers ∧ (∀ q, q ≠ r → t.reader q = s.reader q) ∧ t.fatal = s.fatal ∧ t.params = s.params ∧
    t.fastEn = s.fastEn ∧ t.hostLe = s.hostLe ∧ t.input = s.input ∧
    ((∀ width n, i ≠ .rArray r width n) → t.fpTaken = s.fpTaken) ∧
    ((∀ nbytes total src, i ≠ .rOpen r nbytes total src) → (∀ nbytes src, i ≠ .rOpenB r nbytes src) →
      (t.reader r).total = (s.reader r).total ∧ (t.reader r).nbytes = (s.reader r).nbytes ∧
        (t.reader r).src = (s.reader r).src)

/-! ### Cursor arithmetic and the multiplexers -/

/-- 40_cursor_arithmetic R120 to R123: `split` gives the byte index and the shift of a cursor; `span` is 0 for no bits, the number
of bytes touched otherwise, and at most 9 for one field; `pack` and `unpack` keep the low `width` bits and nothing else. -/
def Obligations.CursorFunctionsAreExact : Prop :=
  (∀ c : Nat, c < 2 ^ 64 →
    (split c).1 = c / 8 ∧ (split c).2 = c % 8 ∧ (split c).2 ≤ 7 ∧ (split c).1 < 2 ^ 61 ∧ c = 8 * (split c).1 + (split c).2) ∧
  (∀ s n : Nat, s ≤ 7 →
    span s 0 = 0 ∧ (1 ≤ n → span s n = (s + n + 7) / 8) ∧ (n ≤ 64 → span s n ≤ 9) ∧ (65 ≤ s + n → n ≤ 64 → span s n = 9)) ∧
  ∀ (v : Word) (win : Window) (n : Nat), n ≤ 64 →
    (pack v n).toNat = v.toNat % 2 ^ n ∧ (unpack win n).toNat = win.toNat % 2 ^ n ∧
      unpack ((pack v n).setWidth 72) n = pack v n

/-- 40_cursor_arithmetic R124, the normative form: `store_bits` puts bit `i` of the value at stream bit `c + i` and leaves
every other stream bit. -/
def Obligations.StoreBitsPlacesTheValue : Prop :=
  ∀ (B : Memory) (c n : Nat) (v : Word), B.wf = true → n ≤ 64 → (∀ k, c ≤ k → streamBit B k = false) →
    (∀ i, i < n → streamBit (storeBits B c n v) (c + i) = v.getLsbD i) ∧
      ∀ k, k < c ∨ c + n ≤ k → streamBit (storeBits B c n v) k = streamBit B k

/-- 40_cursor_arithmetic R125, the normative form: bit `i` of `load_bits` is stream bit `c + i` for `i < n`, and every higher
bit is 0. -/
def Obligations.LoadBitsReadsTheField : Prop :=
  ∀ (B : Memory) (c n : Nat), n ≤ 64 → ∀ i, (loadBits B c n).getLsbD i = (decide (i < n) && streamBit B (c + i))

/-- 20_memory R63: stream bit `k` of a store is bit `k` of its integer view; a write at a cursor with nothing above adds
`v * 2^c`, and a read divides by `2^c`. -/
def Obligations.IntegerViewOfAStore : Prop :=
  ∀ (B : Memory) (c n : Nat) (v : Word), B.wf = true → n ≤ 64 →
    (∀ k, (storeInt B).testBit k = streamBit B k) ∧ (loadBits B c n).toNat = storeInt B / 2 ^ c % 2 ^ n ∧
      ((∀ k, c ≤ k → streamBit B k = false) → storeInt (storeBits B c n v) = storeInt B + v.toNat % 2 ^ n * 2 ^ c)

/-- 40_cursor_arithmetic R126: a field stored reads back modulo `2^n`, and every disjoint field reads as before. -/
def Obligations.StoredFieldReadsBack : Prop :=
  ∀ (B : Memory) (c n c2 n2 : Nat) (v : Word), B.wf = true → n ≤ 64 → n2 ≤ 64 → (∀ k, c ≤ k → streamBit B k = false) →
    (loadBits (storeBits B c n v) c n).toNat = v.toNat % 2 ^ n ∧
      (c2 + n2 ≤ c ∨ c + n ≤ c2 → loadBits (storeBits B c n v) c2 n2 = loadBits B c2 n2)

/-- 40_cursor_arithmetic R127: two fields stored one after the other are the joined field stored at once, and likewise
read. -/
def Obligations.FieldsSplitAndJoin : Prop :=
  (∀ (B : Memory) (c n1 n2 : Nat) (v1 v2 : Word), B.wf = true → n1 + n2 ≤ 64 → (∀ k, c ≤ k → streamBit B k = false) →
    storeBits (storeBits B c n1 v1) (c + n1) n2 v2 = storeBits B c (n1 + n2) (pack v1 n1 ||| pack v2 n2 <<< n1)) ∧
  ∀ (B : Memory) (c n1 n2 : Nat), n1 + n2 ≤ 64 →
    loadBits B c (n1 + n2) = loadBits B c n1 ||| loadBits B (c + n1) n2 <<< n1

/-- 40_cursor_arithmetic R128: at a byte-aligned cursor with a width of whole bytes, `store_bits` and `load_bits` are a
little-endian store and load. -/
def Obligations.AlignedFieldsAreLittleEndian : Prop :=
  (∀ (B : Memory) (b m : Nat) (v : Word), B.wf = true → m ≤ 8 → (∀ k, 8 * b ≤ k → streamBit B k = false) →
    ∀ k, k < m → readByte (storeBits B (8 * b) (8 * m) v) (b + k) = v.extractLsb' (8 * k) 8) ∧
  ∀ (B : Memory) (b m : Nat), m ≤ 8 →
    loadBits B (8 * b) (8 * m) = littleEndian ((List.range m).map fun k => readByte B (b + k))

/-- 40_cursor_arithmetic R129: `copy_bits` puts stream bit `i` of the source at stream bit `c + i` and leaves every other
stream bit; any cut into chunks of at most 64 bits gives the same store; at a byte-aligned cursor it is a byte copy with the
last byte masked. -/
def Obligations.CopyBitsCopiesTheBlock : Prop :=
  ∀ (D S : Memory) (c n : Nat), D.wf = true → (∀ k, c ≤ k → streamBit D k = false) →
    (∀ i, i < n → streamBit (copyBits D c S n) (c + i) = streamBit S i) ∧
      (∀ k, k < c ∨ c + n ≤ k → streamBit (copyBits D c S n) k = streamBit D k) ∧
      (∀ cut : List Nat, (∀ x ∈ cut, x ≤ 64) → cut.sum = n → copyBits D c S n = copyChunks S cut D c 0) ∧
      (c % 8 = 0 → ∀ j, j < cdiv8 n →
        (readByte (copyBits D c S n) (c / 8 + j)).toNat = (readByte S j).toNat % 2 ^ min 8 (n - 8 * j))

/-! ### Laws of the commands -/

/-- 43_fastpath_array R187: whenever the fast path may be taken, the fast datapath of `W_ARRAY` leaves the same store as the
slow one, so the datapath the selector chooses is the architectural result. -/
def Obligations.FastArrayWriteEqualsSlow : Prop :=
  ∀ (s : State) (w : Ctx) (width : Width) (elems : List Word), Inv s → (s.writer w).st = .opened →
    1 ≤ width.toNat → width.toNat ≤ 64 →
    (s.fastOk (s.writer w).cur.toNat width.toNat = true →
      fastStoreElems s.hostLe (s.writer w).store (s.writer w).cur.toNat width.toNat elems =
        storeElems (s.writer w).store (s.writer w).cur.toNat width.toNat elems) ∧
    s.arrayStore w width.toNat elems = storeElems (s.writer w).store (s.writer w).cur.toNat width.toNat elems

/-- 43_fastpath_array R191: whenever the fast path may be taken, the fast datapath of `R_ARRAY` delivers the same elements as
the slow one, so the datapath the selector chooses delivers the architectural result. -/
def Obligations.FastArrayReadEqualsSlow : Prop :=
  ∀ (s : State) (r : Ctx) (width : Width) (n : Nat), 1 ≤ width.toNat → width.toNat ≤ 64 →
    (s.fastOk (s.reader r).cur.toNat width.toNat = true →
      fastLoadElems (s.reader r).src (s.reader r).cur.toNat width.toNat n =
        loadElems (s.reader r).src (s.reader r).cur.toNat width.toNat n) ∧
    s.arrayLoad r width.toNat n = loadElems (s.reader r).src (s.reader r).cur.toNat width.toNat n

/-- 43_fastpath_array R183 ("The result is, by definition, that of `N` successive `W_BITS`"): an array write with room ends
in the same state as the run of single writes. -/
def Obligations.ArrayWriteIsARunOfWrites : Prop :=
  ∀ (s : State) (w : Ctx) (width : Width) (elems : List Word), Inv s → s.fatal = false → w.toNat < s.params.nw →
    1 ≤ width.toNat → width.toNat ≤ 64 → elems.length < 2 ^ 64 → (s.writer w).st = .opened →
    cdiv8 ((s.writer w).cur.toNat + elems.length * width.toNat) ≤ s.params.wcap →
    ∃ t u, exec (.wArray w width elems) s = .next t ∧
      runAll (elems.map fun e => .wBits w width e) s = some (elems.map fun _ => okResponse 0, u) ∧ SameState t u

/-- 41_writer_ops R146: two writes of at most 64 bits together leave the same state as one write of the joined
value; where there is no room for the joined value, the one write and the pair both end in `Fatal`. -/
def Obligations.TwoWritesAreOneWrite : Prop :=
  ∀ (s : State) (w : Ctx) (n1 n2 n : Width) (v1 v2 : Word), Inv s → s.fatal = false → w.toNat < s.params.nw →
    n.toNat = n1.toNat + n2.toNat → n.toNat ≤ 64 → (s.writer w).st = .opened →
    (cdiv8 ((s.writer w).cur.toNat + n.toNat) ≤ s.params.wcap →
      ∃ t u, runAll [.wBits w n1 v1, .wBits w n2 v2] s = some ([okResponse 0, okResponse 0], t) ∧
        exec (.wBits w n (pack v1 n1.toNat ||| pack v2 n2.toNat <<< n1.toNat)) s = .next u ∧ SameState t u) ∧
    (s.params.wcap < cdiv8 ((s.writer w).cur.toNat + n.toNat) →
      ∃ a t u, runAll [.wBits w n1 v1, .wBits w n2 v2] s = some ([a, errorResponse .fatal], t) ∧
        exec (.wBits w n (pack v1 n1.toNat ||| pack v2 n2.toNat <<< n1.toNat)) s = .next u ∧
        u.resp = some (errorResponse .fatal))

/-- 20_memory R80: from `W_FINISH w` on, no step but a reset or a `W_OPEN w` changes the cursor or the store of `w`, and
`W_BYTE` answers the same byte for the same index; `W_BYTE` has no side effect. -/
def Obligations.FinishedOutputIsImmutable : Prop :=
  (∀ (s t : State) (w : Ctx), (s.writer w).st = .done → step s = .next t →
    (∀ f h rest, s.input ≠ .reset f h :: rest) →
    (∀ p rest, s.input = .command p :: rest → decode p ≠ .ok (.wOpen w)) → t.writer w = s.writer w) ∧
  (∀ (s t : State) (w : Ctx) (index : Word), (s.writer w).st = .done → t.writer w = s.writer w → t.params = s.params →
    t.fatal = s.fatal → ∀ u, exec (.wByte w index) s = .next u →
      ∃ v, exec (.wByte w index) t = .next v ∧ v.resp = u.resp) ∧
  ∀ (s t : State) (w : Ctx) (index : Word), exec (.wByte w index) s = .next t → t = { s with resp := t.resp }

/-- 42_reader_ops R169 (its last sentence): on a reader cut short at a smaller `total`, a read before the cut (`R_BITS`,
`R_PEEK` or `R_ARRAY`) is answered as on the full buffer, and a read that crosses the cut is answered `Truncated`. -/
def Obligations.TruncatedBufferReadsUpToTheCut : Prop :=
  ∀ (s t : State) (i : Instr) (r : Ctx) (n : Nat), Inv s → Inv t → s.fatal = false → t.fatal = false →
    s.legal i = true → t.legal i = true → bitsAsked i = some (r, n) →
    (s.reader r).st = .opened → (t.reader r).st = .opened → (t.reader r).cur = (s.reader r).cur →
    (t.reader r).total.toNat ≤ (s.reader r).total.toNat →
    (∀ k, k < (t.reader r).total.toNat → streamBit (t.reader r).src k = streamBit (s.reader r).src k) →
    (s.reader r).cur.toNat + n ≤ (s.reader r).total.toNat →
    ∃ s' t', exec i s = .next s' ∧ exec i t = .next t' ∧ s'.resp.map (fun a => a.status) = some .ok ∧
      ((s.reader r).cur.toNat + n ≤ (t.reader r).total.toNat → t'.resp = s'.resp) ∧
      ((t.reader r).total.toNat < (s.reader r).cur.toNat + n →
        t'.resp = some (errorResponse .truncated) ∧ (t'.reader r).st = .poisoned)

/-- 10_state R26, R30, R31, 20_memory R68, 43_fastpath_array R187, R191, 93 U1, U2: every response, and everything any later
response can depend on, is a function of the visible state. In particular no command shows the straps, the path taken, the
allocated capacity, a field of an `IDLE` context, the cursor of a `POISONED` reader, or a source bit at or above `total`. -/
def Obligations.ResponsesDependOnVisibleStateOnly : Prop :=
  ∀ (s t : State) (i : Instr), Inv s → Inv t → SameVisible s t →
    ∃ s' t', exec i s = .next s' ∧ exec i t = .next t' ∧ s'.resp = t'.resp ∧ SameVisible s' t'

/-- 20_memory R74: two commands that name disjoint sets of contexts, neither of which raises `Fatal`, commute: in either order
they give the same two responses and the same final state, but for the unspecified cursors of poisoned readers. -/
def Obligations.DisjointCommandsCommute : Prop :=
  ∀ (s s1 s2 : State) (i j : Instr),
    (∀ w, w ∈ Instr.writersNamed i → w ∉ Instr.writersNamed j) →
    (∀ r, r ∈ Instr.readersNamed i → r ∉ Instr.readersNamed j) →
    exec i s = .next s1 → exec j s = .next s2 → s1.fatal = false → s2.fatal = false →
    ∃ s12 s21, exec j s1 = .next s12 ∧ exec i s2 = .next s21 ∧ s12.resp = s2.resp ∧ s21.resp = s1.resp ∧
      SameArchitecture s12 s21

/-- 42_reader_ops R168: fields written to a fresh writer, finished, and read back from the finished bytes with the same widths
in the same order come back modulo `2^width`; then no bit remains, and one more read of at least one bit is answered
`Truncated`. -/
def Obligations.FieldsReadBackAsWritten : Prop :=
  ∀ (s : State) (w r : Ctx) (fields : List (Width × Word)) (extra : Width), Inv s → s.fatal = false →
    w.toNat < s.params.nw → r.toNat < s.params.nr → (∀ f ∈ fields, f.1.toNat ≤ 64) →
    1 ≤ extra.toNat → extra.toNat ≤ 64 →
    cdiv8 (bitCount fields) ≤ s.params.wcap → cdiv8 (bitCount fields) ≤ s.params.rcap →
    ∃ t u,
      runAll (.wOpen w :: (fields.map (fun f => .wBits w f.1 f.2) ++ [.wFinish w])) s =
          some (okResponse 0 :: (fields.map (fun _ => okResponse 0) ++
            [okResponse (BitVec.ofNat 64 (bitCount fields))]), t) ∧
        runAll (.rOpen r (BitVec.ofNat 64 (cdiv8 (bitCount fields))) (BitVec.ofNat 64 (bitCount fields))
              (outputBytes (t.writer w).store (cdiv8 (bitCount fields))) ::
            (fields.map (fun f => .rBits r f.1) ++ [.rRemain r, .rBits r extra])) t =
          some (okResponse (BitVec.ofNat 64 (bitCount fields)) ::
            (fields.map (fun f => okResponse (pack f.2 f.1.toNat)) ++ [okResponse 0, errorResponse .truncated]), u)

/-- 41_writer_ops R147: after `W_OPEN w`, whatever commands follow (none of them `W_OPEN w`) and on whatever contexts, the
cursor of `w` is the number of bits that the successful `W_BITS`, `W_ARRAY` and `W_APPEND` on `w` appended, and the stream bits
of its store are those bits in order and then zeros, so the output depends on the bit sequence alone. -/
def Obligations.OutputIsTheBitSequence : Prop :=
  ∀ (s t : State) (w : Ctx) (cs : List Instr) (rs : List Response), Inv s → s.fatal = false → w.toNat < s.params.nw →
    (∀ i ∈ cs, i ≠ .wOpen w) → runAll (.wOpen w :: cs) s = some (rs, t) → (t.writer w).st ≠ .idle →
    (t.writer w).cur.toNat = (bitsOfRun w (.wOpen w :: cs) s).length ∧
      ∀ k, streamBit (t.writer w).store k = (bitsOfRun w (.wOpen w :: cs) s).getD k false

/-- 42_reader_ops R167: a run of successful `R_BITS` and `R_ARRAY` on one reader delivers the stream bits from the cursor on, in
order and without a gap, whatever the widths and the grouping, and leaves the cursor behind the last of them. -/
def Obligations.SequentialReadsSeeTheBitSequence : Prop :=
  ∀ (s t : State) (r : Ctx) (reads : List Instr) (rs : List Response), Inv s → (s.reader r).st = .opened →
    (∀ i ∈ reads, (∃ width, i = .rBits r width) ∨ ∃ width n, i = .rArray r width n) →
    runAll reads s = some (rs, t) → (∀ a ∈ rs, a.status = .ok) →
    ∃ n, (List.zipWith bitsDelivered reads rs).flatten =
        (List.range n).map (fun k => streamBit (s.reader r).src ((s.reader r).cur.toNat + k)) ∧
      (t.reader r).cur.toNat = (s.reader r).cur.toNat + n

/-! ### The client codecs above the block -/

/-- 44_client_codecs R217: `bw(count)` is the least `k` with `2^k >= count`; an empty type and one of more than `2^64` values
have none. -/
def Obligations.BitWidthIsTheLeast : Prop :=
  ∀ count : Nat,
    (1 ≤ count → count ≤ 2 ^ 64 →
      ∃ k, Client.bw count = some k ∧ k ≤ 64 ∧ count ≤ 2 ^ k ∧ ∀ j, count ≤ 2 ^ j → k ≤ j) ∧
    (count = 0 ∨ 2 ^ 64 < count → Client.bw count = none)

/-- 44_client_codecs R207: the zig-zag mapping is `2n` for `n >= 0` and `-2n - 1` for `n < 0`, stays below `2^64` on 64-bit
integers, and its inverse undoes it in both directions. spec/ marks the formula as general knowledge (log 21). -/
def Obligations.ZigZagIsReversible : Prop :=
  (∀ n : Int, (0 ≤ n → (Client.zigzag n : Int) = 2 * n) ∧ (n < 0 → (Client.zigzag n : Int) = -2 * n - 1) ∧
    Client.unzigzag (Client.zigzag n) = n ∧ (-2 ^ 63 ≤ n → n < 2 ^ 63 → Client.zigzag n < 2 ^ 64)) ∧
  ∀ z : Nat, Client.zigzag (Client.unzigzag z) = z

/-- 44_client_codecs R206, 93_implementation_defined U6, U7: in the instance of `VARLEN` that spec/ documents (log 21)
`ENC_UVAR(n)` occupies 1 bit for `n = 0` and `2 * L` bits otherwise, `L` being the bit length of `n`, at most 128, in fields of at
most 64 bits; and the documented defaults meet what the parameters of a client must meet: the scheme is prefix-free, its cost
does not decrease, it decodes what it encodes, and every code point fits its field. -/
def Obligations.VariableLengthScheme : Prop :=
  (∀ n : Nat, n < 2 ^ 64 →
    Client.specVarLen.cost n = (if n = 0 then 1 else 2 * Client.bitLength n) ∧
      (∀ f ∈ Client.uvarFields n, 1 ≤ f.1 ∧ f.1 ≤ 64 ∧ f.2 < 2 ^ f.1) ∧
      n < 2 ^ Client.bitLength n ∧ (1 ≤ n → 2 ^ (Client.bitLength n - 1) ≤ n) ∧ Client.bitLength n ≤ 64) ∧
  Client.specContract.Lawful

/-- 44_client_codecs R206, R219, R220: a 64-bit number encoded on the block by a top-level encode is decoded from the finished
bytes by a top-level decode, with no bit left, in the instance of `VARLEN` that spec/ documents (log 21). -/
def Obligations.VariableLengthRoundTrip : Prop :=
  ∀ (s : State) (w r : Ctx) (n : Nat), Inv s → s.fatal = false → w.toNat < s.params.nw → r.toNat < s.params.nr →
    n < 2 ^ 64 → 16 ≤ s.params.wcap → 16 ≤ s.params.rcap →
    ∃ bytes len t u,
      Client.encodeTop w (Client.encUvar Client.specVarLen w n) s = .value (bytes, len) t ∧
        Client.decodeTop r bytes len (Client.decUvar Client.specVarLen r) t = .value (n, 0) u

/-- 44_client_codecs R220, R201 to R216, R219, R162: for every supported value shape and every client whose parameters are
lawful, a value encoded on the block by a top-level encode comes back from the finished bytes by a top-level decode, with no bit
left; opened as whole bytes it comes back with the padding left. The output has exactly the bits of the fields (R221), at
least the least number the shape can occupy (R208). Fields encoded into separate writers and joined with `W_APPEND` in field
order give the bytes and the bit length that one writer gives (R216); such structs are among the shapes. -/
def Obligations.EveryShapeRoundTrips : Prop :=
  (∀ (C : Client.Contract) (α : Type) (F : Client.Format α), C.Lawful → Client.Supported C F →
    ∀ (s : State) (w r : Ctx) (v : α), F.valid v = true → Inv s → s.fatal = false → w.toNat < s.params.nw →
      r.toNat < s.params.nr → w ∉ F.scratch → (∀ u ∈ F.scratch, s.hasWriter u = true) →
      cdiv8 (Client.sizeOfEncoding (F.enc w v)) ≤ s.params.wcap →
      cdiv8 (Client.sizeOfEncoding (F.enc w v)) ≤ s.params.rcap →
      ∃ bytes len t u u',
        Client.encodeTop w (F.enc w v) s = .value (bytes, len) t ∧ len = Client.sizeOfEncoding (F.enc w v) ∧
          bytes.length = cdiv8 len ∧ F.minBits ≤ len ∧
          Client.decodeTop r bytes len (F.dec r) t = .value (v, 0) u ∧
          Client.decodeTopB r bytes (F.dec r) t = .value (v, 8 * bytes.length - len) u') ∧
  ∀ (C : Client.Contract) (fields : List Client.FieldCode), C.Lawful → (∀ f ∈ fields, f.Supported C) →
    ∀ (s : State) (w : Ctx), Inv s → s.fatal = false → s.hasWriter w = true → Client.WritersApart s.hasWriter w fields →
      cdiv8 (Client.sizeOfEncoding (Client.encStruct (fields.map fun f => f.enc w))) ≤ s.params.wcap →
      ∃ bytes len t t',
        Client.encodeTop w (Client.encStructJoined w fields) s = .value (bytes, len) t ∧
          Client.encodeTop w (Client.encStruct (fields.map fun f => f.enc w)) s = .value (bytes, len) t'

/-- 44_client_codecs R218, R200, R204, R206, R209, R211, R213, 42_reader_ops R169, 60_exceptions R259: a top-level decode of any
supported shape from any source bytes and any bit length ends in a value of the shape or in the first error, which is `Truncated`,
`InvalidData` or, only where the client bounds the count of zero-size elements by a `ZLEN_MAX` that a 64-bit length can
exceed, the client's own error for it, which is the model's choice (log 26). Either way the reader is closed, the block is not
halted, and no writer, no other reader, neither strap, not the build and not the host's stream (the model's own field, log 3)
has changed. -/
def Obligations.HostileDataDecodesSafely : Prop :=
  ∀ (C : Client.Contract) (α : Type) (F : Client.Format α), C.Lawful → Client.Supported C F →
    ∀ (s : State) (r : Ctx) (src : List Byte) (total : Nat), Inv s → s.fatal = false → r.toNat < s.params.nr →
      src.length ≤ s.params.rcap → total ≤ 8 * src.length →
      ∃ t : State, Inv t ∧ t.fatal = false ∧ (t.reader r).st = .idle ∧ t.writers = s.writers ∧
        (∀ q, q ≠ r → t.reader q = s.reader q) ∧ t.params = s.params ∧ t.fastEn = s.fastEn ∧ t.hostLe = s.hostLe ∧
        t.input = s.input ∧
        ((∃ v left, Client.decodeTop r src total (F.dec r) s = .value (v, left) t ∧ F.valid v = true ∧ left ≤ total) ∨
          ∃ e, Client.decodeTop r src total (F.dec r) s = .error e t ∧
            (e = .truncated ∨ e = .invalidData ∨
              (e = C.zlenError ∧ ∃ most len, C.zlenMax = some most ∧ most < len ∧ len < 2 ^ 64)))

/-- 44_client_codecs R208, R214, 70_reset R283, 90_conflicts C1: once a length is decoded, a decoder of elements of at least
`m >= 1` bits reserves at most `min(L, R_REMAIN div m)`; that it reserves exactly so many is the model's choice (log 28). For
elements of no bits it reserves nothing up front and accepts up to `ZLEN_MAX` of them (U9); that more are answered with the
client's own error `zlenError` is the model's choice (log 26). A sequence of primitives that the remaining bits cannot back
ends in `Truncated`, by the element loop and by the array command alike. -/
def Obligations.HostileLengthReservesWhatIsBacked : Prop :=
  ∀ (C : Client.Contract) (r : Ctx) (s t : State) (len : Nat), Client.decLen C.varLen r s = .value len t → Inv t →
    t.fatal = false → r.toNat < t.params.nr → (t.reader r).st = .opened →
    (∀ m : Nat, 1 ≤ m →
      ∃ u, Client.decCount C r m s = .value (len, min len (((t.reader r).total.toNat - (t.reader r).cur.toNat) / m)) u ∧
        u = { t with resp := u.resp }) ∧
    Client.decCount C r 0 s = (if C.acceptsZeroSize len then .value (len, 0) t else .error C.zlenError t) ∧
    ∀ (α : Type) (P : Client.Primitive α), 1 ≤ P.width → P.width ≤ 64 → len < 2 ^ 64 →
      (t.reader r).total.toNat < (t.reader r).cur.toNat + len * P.width →
      (∃ u, Client.decSeq C r P.width (Client.decPrimitive P r) s = .error .truncated u ∧ (u.reader r).st = .poisoned) ∧
        ∃ u, Client.decSeqArray C r P s = .error .truncated u ∧ (u.reader r).st = .poisoned

/-- 44_client_codecs R204, R213, R209, R211, 60_exceptions R242: `InvalidData` is the client's own verdict on a value the block
has delivered: a bounded integer or an enum tag not below its count, a code point outside the client's range, text that is not
well formed. The default range of code points and their width of 21 bits are those of log 21. -/
def Obligations.ClientRejectsImpossibleValues : Prop :=
  (∀ (r : Ctx) (lo hi : Int) (s t : State) (p : Word),
    Client.readField r (Client.leastWidth (Client.rangeCount lo hi)) s = .value p t →
      Client.decBounded r lo hi s =
        if p.toNat < Client.rangeCount lo hi then .value (p.toNat + lo) t else .error .invalidData t) ∧
  (∀ (r : Ctx) (n : Nat) (s t : State) (p : Word), Client.readField r (Client.leastWidth n) s = .value p t →
    Client.decTag r n s = if h : p.toNat < n then .value ⟨p.toNat, h⟩ t else .error .invalidData t) ∧
  (∀ (R : Client.CharRange) (r : Ctx) (s t : State) (p : Word), Client.readField r R.width s = .value p t →
    Client.decChar R r s = if R.ok p.toNat then .value p.toNat t else .error .invalidData t) ∧
  (∀ (C : Client.Contract) (r : Ctx) (s t : State) (bs : List Byte), Client.decBytes C r s = .value bs t →
    Client.decStr C r s = if C.textOk bs then .value bs t else .error .invalidData t) ∧
  (∀ (C : Client.Contract) (r : Ctx) (s t : State) (bs : List Byte), Client.decBytesArray C r s = .value bs t →
    Client.decStrArray C r s = if C.textOk bs then .value bs t else .error .invalidData t) ∧
  Client.specChars.width = 21 ∧ ∀ p, Client.specChars.ok p = true ↔ p ≤ 0x10FFFF ∧ ¬(0xD800 ≤ p ∧ p ≤ 0xDFFF)
end

