-- ==== Sys2Proof/Laws/Client.lean ====
section
/-! SUPPORT. What the client's sequences can do, one lemma for each way of putting sequences together, and the bits of a
number. -/

namespace Sys2Proof.Client

open Sys2Proof.Machine

@[simp] theorem done_eq {α : Type} (a : α) (s : State) : done a s = .value a s := rfl

@[simp] theorem reject_eq {α : Type} (e : Status) (s : State) : (reject e : Codec α) s = .error e s := rfl

theorem andThen_of_value {α β : Type} {x : Codec α} {s t : State} {a : α} (h : x s = .value a t) (f : α → Codec β) :
    andThen x f s = f a t := by rw [andThen, h]

theorem andThen_of_error {α β : Type} {x : Codec α} {s t : State} {e : Status} (h : x s = .error e t) (f : α → Codec β) :
    andThen x f s = .error e t := by rw [andThen, h]

theorem andThen_of_stopped {α β : Type} {x : Codec α} {s : State} (h : x s = .stopped) (f : α → Codec β) :
    andThen x f s = .stopped := by rw [andThen, h]

/-- Everything two sequences, one after the other, can do. -/
theorem andThen_cases {α β : Type} (x : Codec α) (f : α → Codec β) (s : State) :
    (∃ a t, x s = .value a t ∧ andThen x f s = f a t) ∨ (∃ e t, x s = .error e t ∧ andThen x f s = .error e t) ∨
      (x s = .stopped ∧ andThen x f s = .stopped) := by
  cases h : x s with
  | value a t => exact .inl ⟨a, t, rfl, andThen_of_value h f⟩
  | error e t => exact .inr (.inl ⟨e, t, rfl, andThen_of_error h f⟩)
  | stopped => exact .inr (.inr ⟨rfl, andThen_of_stopped h f⟩)

/-- A sequence of two ends in a value exactly when both do. -/
theorem andThen_eq_value {α β : Type} {x : Codec α} {f : α → Codec β} {s u : State} {b : β} :
    andThen x f s = .value b u ↔ ∃ a t, x s = .value a t ∧ f a t = .value b u := by
  unfold andThen
  cases x s <;> simp

theorem andThen_assoc {α β γ : Type} (x : Codec α) (f : α → Codec β) (g : β → Codec γ) :
    andThen (andThen x f) g = andThen x fun a => andThen (f a) g := by
  funext s
  simp only [andThen]
  cases x s <;> rfl

/-- Everything the issue of one command can do. -/
theorem issue_cases (i : Instr) (s : State) :
    (∃ t a, exec i s = .next t ∧ t.resp = some a ∧ a.status = .ok ∧ issue i s = .value a t) ∨
      (∃ t a, exec i s = .next t ∧ t.resp = some a ∧ a.status ≠ .ok ∧ issue i s = .error a.status t) ∨
        ((∀ t a, exec i s = .next t → t.resp ≠ some a) ∧ issue i s = .stopped) := by
  cases h : exec i s with
  | next t =>
    cases hr : t.resp with
    | some a =>
      by_cases ha : a.status = .ok
      · exact .inl ⟨t, a, rfl, hr, ha, by simp [issue, h, hr, ha]⟩
      · exact .inr (.inl ⟨t, a, rfl, hr, ha, by simp [issue, h, hr, ha]⟩)
    | none => exact .inr (.inr ⟨fun u a hu => by cases hu; simp [hr], by simp [issue, h, hr]⟩)
  | fault f => exact .inr (.inr ⟨by simp, by simp [issue, h]⟩)
  | refused f => exact .inr (.inr ⟨by simp, by simp [issue, h]⟩)

/-- A sequence that succeeds is not closed by `closing`. -/
theorem closing_of_value {α : Type} {r : Ctx} {dec : Codec α} {s t : State} {a : α} (h : dec s = .value a t) :
    closing r dec s = .value a t := by rw [closing, h]

/-- A sequence that fails ends in its own error, in the state `R_CLOSE` leaves. -/
theorem closing_of_error {α : Type} {r : Ctx} {dec : Codec α} {s t u : State} {e : Status} (h : dec s = .error e t)
    (hc : exec (.rClose r) t = .next u) : closing r dec s = .error e u := by rw [closing, h]; simp only [hc]

/-! ### Structs joined from separate writers -/

@[simp] theorem encStructJoined_nil (w : Ctx) : encStructJoined w [] = [] := rfl

/-- With every field in place, joining is `ENC_STRUCT` on one writer. -/
theorem encStructJoined_in_place (w : Ctx) (fields : List FieldCode) (h : ∀ f ∈ fields, f.apart = none) :
    encStructJoined w fields = encStruct (fields.map fun f => f.enc w) := by
  have hb : fields.flatMap FieldCode.build = [] :=
    List.flatMap_eq_nil_iff.mpr fun f hf => by simp [FieldCode.build, h f hf]
  have hj : fields.flatMap (FieldCode.join w) = fields.flatMap fun f => f.enc w :=
    List.flatMap_congr fun f hf => by simp [FieldCode.join, h f hf]
  rw [encStructJoined, hb, hj, encStruct, List.nil_append, List.flatMap_def]

/-- A struct format with both fields in place writes what the plain one writes. -/
theorem joinedFormat_in_place {α β : Type} (F : Format α) (G : Format β) (w : Ctx) (v : α × β) :
    (joinedFormat none none F G).enc w v = (fieldFormat F G).enc w v :=
  encStructJoined_in_place w [F.field none v.1, G.field none v.2] (by simp [Format.field])

/-! ### The bits of a number -/

@[simp] theorem natBits_length (v width : Nat) : (natBits v width).length = width := by simp [natBits]

theorem natBits_succ (v width : Nat) : natBits v (width + 1) = v.testBit 0 :: natBits (v / 2) width := by
  simp [natBits, List.range_succ_eq_map, Function.comp_def, Nat.testBit_succ]

/-- The low bits of a number are its value modulo `2^width`. -/
theorem natOfBits_natBits (v width : Nat) : natOfBits (natBits v width) = v % 2 ^ width := by
  induction width generalizing v with
  | zero => simp [natBits, natOfBits, Nat.mod_one]
  | succ width ih =>
    rw [natBits_succ, natOfBits, ih, Nat.pow_succ', Nat.mod_mul, Nat.testBit_zero]
    rcases Nat.mod_two_eq_zero_or_one v with h | h <;> simp [h]

end Sys2Proof.Client
end

