-- ==== Sys2Proof/Laws/State.lean ====
section
/-! SUPPORT. One lemma per field per state update, so that no proof unfolds a record update, and the laws of reading back a
context that was written. -/

namespace Sys2Proof.Machine

@[simp] theorem setWriter_params (s : State) (w : Ctx) (x : Writer) : (s.setWriter w x).params = s.params := rfl
@[simp] theorem setWriter_readers (s : State) (w : Ctx) (x : Writer) : (s.setWriter w x).readers = s.readers := rfl
@[simp] theorem setWriter_fatal (s : State) (w : Ctx) (x : Writer) : (s.setWriter w x).fatal = s.fatal := rfl
@[simp] theorem setWriter_fastEn (s : State) (w : Ctx) (x : Writer) : (s.setWriter w x).fastEn = s.fastEn := rfl
@[simp] theorem setWriter_hostLe (s : State) (w : Ctx) (x : Writer) : (s.setWriter w x).hostLe = s.hostLe := rfl
@[simp] theorem setWriter_fpTaken (s : State) (w : Ctx) (x : Writer) : (s.setWriter w x).fpTaken = s.fpTaken := rfl
@[simp] theorem setWriter_input (s : State) (w : Ctx) (x : Writer) : (s.setWriter w x).input = s.input := rfl
@[simp] theorem setWriter_resp (s : State) (w : Ctx) (x : Writer) : (s.setWriter w x).resp = s.resp := rfl
@[simp] theorem setWriter_freeCount (s : State) (w : Ctx) (x : Writer) : (s.setWriter w x).freeCount = s.freeCount := rfl
@[simp] theorem setWriter_reader (s : State) (w : Ctx) (x : Writer) (r' : Ctx) : (s.setWriter w x).reader r' = s.reader r' := rfl
@[simp] theorem setWriter_hasWriter (s : State) (w : Ctx) (x : Writer) (v' : Ctx) : (s.setWriter w x).hasWriter v' = s.hasWriter v' := rfl
@[simp] theorem setWriter_hasReader (s : State) (w : Ctx) (x : Writer) (r' : Ctx) : (s.setWriter w x).hasReader r' = s.hasReader r' := rfl

@[simp] theorem setReader_params (s : State) (r : Ctx) (x : Reader) : (s.setReader r x).params = s.params := rfl
@[simp] theorem setReader_writers (s : State) (r : Ctx) (x : Reader) : (s.setReader r x).writers = s.writers := rfl
@[simp] theorem setReader_fatal (s : State) (r : Ctx) (x : Reader) : (s.setReader r x).fatal = s.fatal := rfl
@[simp] theorem setReader_fastEn (s : State) (r : Ctx) (x : Reader) : (s.setReader r x).fastEn = s.fastEn := rfl
@[simp] theorem setReader_hostLe (s : State) (r : Ctx) (x : Reader) : (s.setReader r x).hostLe = s.hostLe := rfl
@[simp] theorem setReader_fpTaken (s : State) (r : Ctx) (x : Reader) : (s.setReader r x).fpTaken = s.fpTaken := rfl
@[simp] theorem setReader_input (s : State) (r : Ctx) (x : Reader) : (s.setReader r x).input = s.input := rfl
@[simp] theorem setReader_resp (s : State) (r : Ctx) (x : Reader) : (s.setReader r x).resp = s.resp := rfl
@[simp] theorem setReader_freeCount (s : State) (r : Ctx) (x : Reader) : (s.setReader r x).freeCount = s.freeCount := rfl
@[simp] theorem setReader_writer (s : State) (r : Ctx) (x : Reader) (v' : Ctx) : (s.setReader r x).writer v' = s.writer v' := rfl
@[simp] theorem setReader_hasWriter (s : State) (r : Ctx) (x : Reader) (v' : Ctx) : (s.setReader r x).hasWriter v' = s.hasWriter v' := rfl
@[simp] theorem setReader_hasReader (s : State) (r : Ctx) (x : Reader) (r' : Ctx) : (s.setReader r x).hasReader r' = s.hasReader r' := rfl

@[simp] theorem setFpTaken_params (s : State) (b : Bool) : (s.setFpTaken b).params = s.params := rfl
@[simp] theorem setFpTaken_writers (s : State) (b : Bool) : (s.setFpTaken b).writers = s.writers := rfl
@[simp] theorem setFpTaken_readers (s : State) (b : Bool) : (s.setFpTaken b).readers = s.readers := rfl
@[simp] theorem setFpTaken_fatal (s : State) (b : Bool) : (s.setFpTaken b).fatal = s.fatal := rfl
@[simp] theorem setFpTaken_fastEn (s : State) (b : Bool) : (s.setFpTaken b).fastEn = s.fastEn := rfl
@[simp] theorem setFpTaken_hostLe (s : State) (b : Bool) : (s.setFpTaken b).hostLe = s.hostLe := rfl
@[simp] theorem setFpTaken_fpTaken (s : State) (b : Bool) : (s.setFpTaken b).fpTaken = b := rfl
@[simp] theorem setFpTaken_input (s : State) (b : Bool) : (s.setFpTaken b).input = s.input := rfl
@[simp] theorem setFpTaken_resp (s : State) (b : Bool) : (s.setFpTaken b).resp = s.resp := rfl
@[simp] theorem setFpTaken_freeCount (s : State) (b : Bool) : (s.setFpTaken b).freeCount = s.freeCount := rfl
@[simp] theorem setFpTaken_writer (s : State) (b : Bool) (v' : Ctx) : (s.setFpTaken b).writer v' = s.writer v' := rfl
@[simp] theorem setFpTaken_reader (s : State) (b : Bool) (r' : Ctx) : (s.setFpTaken b).reader r' = s.reader r' := rfl
@[simp] theorem setFpTaken_hasWriter (s : State) (b : Bool) (v' : Ctx) : (s.setFpTaken b).hasWriter v' = s.hasWriter v' := rfl
@[simp] theorem setFpTaken_hasReader (s : State) (b : Bool) (r' : Ctx) : (s.setFpTaken b).hasReader r' = s.hasReader r' := rfl

@[simp] theorem respond_params (s : State) (st : Status) (r0 : Word) (es : List Word) : (s.respond st r0 es).params = s.params := rfl
@[simp] theorem respond_writers (s : State) (st : Status) (r0 : Word) (es : List Word) : (s.respond st r0 es).writers = s.writers := rfl
@[simp] theorem respond_readers (s : State) (st : Status) (r0 : Word) (es : List Word) : (s.respond st r0 es).readers = s.readers := rfl
@[simp] theorem respond_fatal (s : State) (st : Status) (r0 : Word) (es : List Word) : (s.respond st r0 es).fatal = s.fatal := rfl
@[simp] theorem respond_fastEn (s : State) (st : Status) (r0 : Word) (es : List Word) : (s.respond st r0 es).fastEn = s.fastEn := rfl
@[simp] theorem respond_hostLe (s : State) (st : Status) (r0 : Word) (es : List Word) : (s.respond st r0 es).hostLe = s.hostLe := rfl
@[simp] theorem respond_fpTaken (s : State) (st : Status) (r0 : Word) (es : List Word) : (s.respond st r0 es).fpTaken = s.fpTaken := rfl
@[simp] theorem respond_input (s : State) (st : Status) (r0 : Word) (es : List Word) : (s.respond st r0 es).input = s.input := rfl
@[simp] theorem respond_resp (s : State) (st : Status) (r0 : Word) (es : List Word) : (s.respond st r0 es).resp = some { status := st, r0 := r0, elems := es } := rfl
@[simp] theorem respond_freeCount (s : State) (st : Status) (r0 : Word) (es : List Word) : (s.respond st r0 es).freeCount = s.freeCount := rfl
@[simp] theorem respond_writer (s : State) (st : Status) (r0 : Word) (es : List Word) (v' : Ctx) : (s.respond st r0 es).writer v' = s.writer v' := rfl
@[simp] theorem respond_reader (s : State) (st : Status) (r0 : Word) (es : List Word) (r' : Ctx) : (s.respond st r0 es).reader r' = s.reader r' := rfl
@[simp] theorem respond_hasWriter (s : State) (st : Status) (r0 : Word) (es : List Word) (v' : Ctx) : (s.respond st r0 es).hasWriter v' = s.hasWriter v' := rfl
@[simp] theorem respond_hasReader (s : State) (st : Status) (r0 : Word) (es : List Word) (r' : Ctx) : (s.respond st r0 es).hasReader r' = s.hasReader r' := rfl

@[simp] theorem dropEvent_params (s : State) : (s.dropEvent).params = s.params := rfl
@[simp] theorem dropEvent_writers (s : State) : (s.dropEvent).writers = s.writers := rfl
@[simp] theorem dropEvent_readers (s : State) : (s.dropEvent).readers = s.readers := rfl
@[simp] theorem dropEvent_fatal (s : State) : (s.dropEvent).fatal = s.fatal := rfl
@[simp] theorem dropEvent_fastEn (s : State) : (s.dropEvent).fastEn = s.fastEn := rfl
@[simp] theorem dropEvent_hostLe (s : State) : (s.dropEvent).hostLe = s.hostLe := rfl
@[simp] theorem dropEvent_fpTaken (s : State) : (s.dropEvent).fpTaken = s.fpTaken := rfl
@[simp] theorem dropEvent_input (s : State) : (s.dropEvent).input = s.input.tail := rfl
@[simp] theorem dropEvent_resp (s : State) : (s.dropEvent).resp = s.resp := rfl
@[simp] theorem dropEvent_freeCount (s : State) : (s.dropEvent).freeCount = s.freeCount := rfl
@[simp] theorem dropEvent_writer (s : State) (v' : Ctx) : (s.dropEvent).writer v' = s.writer v' := rfl
@[simp] theorem dropEvent_reader (s : State) (r' : Ctx) : (s.dropEvent).reader r' = s.reader r' := rfl
@[simp] theorem dropEvent_hasWriter (s : State) (v' : Ctx) : (s.dropEvent).hasWriter v' = s.hasWriter v' := rfl
@[simp] theorem dropEvent_hasReader (s : State) (r' : Ctx) : (s.dropEvent).hasReader r' = s.hasReader r' := rfl

@[simp] theorem poison_params (s : State) (r : Ctx) : (s.poison r).params = s.params := rfl
@[simp] theorem poison_writers (s : State) (r : Ctx) : (s.poison r).writers = s.writers := rfl
@[simp] theorem poison_fatal (s : State) (r : Ctx) : (s.poison r).fatal = s.fatal := rfl
@[simp] theorem poison_fastEn (s : State) (r : Ctx) : (s.poison r).fastEn = s.fastEn := rfl
@[simp] theorem poison_hostLe (s : State) (r : Ctx) : (s.poison r).hostLe = s.hostLe := rfl
@[simp] theorem poison_fpTaken (s : State) (r : Ctx) : (s.poison r).fpTaken = s.fpTaken := rfl
@[simp] theorem poison_input (s : State) (r : Ctx) : (s.poison r).input = s.input := rfl
@[simp] theorem poison_resp (s : State) (r : Ctx) : (s.poison r).resp = s.resp := rfl
@[simp] theorem poison_freeCount (s : State) (r : Ctx) : (s.poison r).freeCount = s.freeCount + 1 := rfl
@[simp] theorem poison_writer (s : State) (r : Ctx) (v' : Ctx) : (s.poison r).writer v' = s.writer v' := rfl
@[simp] theorem poison_hasWriter (s : State) (r : Ctx) (v' : Ctx) : (s.poison r).hasWriter v' = s.hasWriter v' := rfl
@[simp] theorem poison_hasReader (s : State) (r : Ctx) (r' : Ctx) : (s.poison r).hasReader r' = s.hasReader r' := rfl

@[simp] theorem extendWriter_params (s : State) (w : Ctx) (n : Nat) (m : Memory) : (s.extendWriter w n m).params = s.params := rfl
@[simp] theorem extendWriter_readers (s : State) (w : Ctx) (n : Nat) (m : Memory) : (s.extendWriter w n m).readers = s.readers := rfl
@[simp] theorem extendWriter_fatal (s : State) (w : Ctx) (n : Nat) (m : Memory) : (s.extendWriter w n m).fatal = s.fatal := rfl
@[simp] theorem extendWriter_fastEn (s : State) (w : Ctx) (n : Nat) (m : Memory) : (s.extendWriter w n m).fastEn = s.fastEn := rfl
@[simp] theorem extendWriter_hostLe (s : State) (w : Ctx) (n : Nat) (m : Memory) : (s.extendWriter w n m).hostLe = s.hostLe := rfl
@[simp] theorem extendWriter_fpTaken (s : State) (w : Ctx) (n : Nat) (m : Memory) : (s.extendWriter w n m).fpTaken = s.fpTaken := rfl
@[simp] theorem extendWriter_input (s : State) (w : Ctx) (n : Nat) (m : Memory) : (s.extendWriter w n m).input = s.input := rfl
@[simp] theorem extendWriter_resp (s : State) (w : Ctx) (n : Nat) (m : Memory) : (s.extendWriter w n m).resp = s.resp := rfl
@[simp] theorem extendWriter_freeCount (s : State) (w : Ctx) (n : Nat) (m : Memory) : (s.extendWriter w n m).freeCount = s.freeCount := rfl
@[simp] theorem extendWriter_reader (s : State) (w : Ctx) (n : Nat) (m : Memory) (r' : Ctx) : (s.extendWriter w n m).reader r' = s.reader r' := rfl
@[simp] theorem extendWriter_hasWriter (s : State) (w : Ctx) (n : Nat) (m : Memory) (v' : Ctx) : (s.extendWriter w n m).hasWriter v' = s.hasWriter v' := rfl
@[simp] theorem extendWriter_hasReader (s : State) (w : Ctx) (n : Nat) (m : Memory) (r' : Ctx) : (s.extendWriter w n m).hasReader r' = s.hasReader r' := rfl

@[simp] theorem consumeWriter_params (s : State) (v : Ctx) : (s.consumeWriter v).params = s.params := rfl
@[simp] theorem consumeWriter_readers (s : State) (v : Ctx) : (s.consumeWriter v).readers = s.readers := rfl
@[simp] theorem consumeWriter_fatal (s : State) (v : Ctx) : (s.consumeWriter v).fatal = s.fatal := rfl
@[simp] theorem consumeWriter_fastEn (s : State) (v : Ctx) : (s.consumeWriter v).fastEn = s.fastEn := rfl
@[simp] theorem consumeWriter_hostLe (s : State) (v : Ctx) : (s.consumeWriter v).hostLe = s.hostLe := rfl
@[simp] theorem consumeWriter_fpTaken (s : State) (v : Ctx) : (s.consumeWriter v).fpTaken = s.fpTaken := rfl
@[simp] theorem consumeWriter_input (s : State) (v : Ctx) : (s.consumeWriter v).input = s.input := rfl
@[simp] theorem consumeWriter_resp (s : State) (v : Ctx) : (s.consumeWriter v).resp = s.resp := rfl
@[simp] theorem consumeWriter_freeCount (s : State) (v : Ctx) : (s.consumeWriter v).freeCount = s.freeCount := rfl
@[simp] theorem consumeWriter_reader (s : State) (v : Ctx) (r' : Ctx) : (s.consumeWriter v).reader r' = s.reader r' := rfl
@[simp] theorem consumeWriter_hasWriter (s : State) (v : Ctx) (v' : Ctx) : (s.consumeWriter v).hasWriter v' = s.hasWriter v' := rfl
@[simp] theorem consumeWriter_hasReader (s : State) (v : Ctx) (r' : Ctx) : (s.consumeWriter v).hasReader r' = s.hasReader r' := rfl

@[simp] theorem bindReader_params (s : State) (r : Ctx) (nb tot : Word) (src : List Byte) : (s.bindReader r nb tot src).params = s.params := rfl
@[simp] theorem bindReader_writers (s : State) (r : Ctx) (nb tot : Word) (src : List Byte) : (s.bindReader r nb tot src).writers = s.writers := rfl
@[simp] theorem bindReader_fatal (s : State) (r : Ctx) (nb tot : Word) (src : List Byte) : (s.bindReader r nb tot src).fatal = s.fatal := rfl
@[simp] theorem bindReader_fastEn (s : State) (r : Ctx) (nb tot : Word) (src : List Byte) : (s.bindReader r nb tot src).fastEn = s.fastEn := rfl
@[simp] theorem bindReader_hostLe (s : State) (r : Ctx) (nb tot : Word) (src : List Byte) : (s.bindReader r nb tot src).hostLe = s.hostLe := rfl
@[simp] theorem bindReader_fpTaken (s : State) (r : Ctx) (nb tot : Word) (src : List Byte) : (s.bindReader r nb tot src).fpTaken = s.fpTaken := rfl
@[simp] theorem bindReader_input (s : State) (r : Ctx) (nb tot : Word) (src : List Byte) : (s.bindReader r nb tot src).input = s.input := rfl
@[simp] theorem bindReader_resp (s : State) (r : Ctx) (nb tot : Word) (src : List Byte) : (s.bindReader r nb tot src).resp = s.resp := rfl
@[simp] theorem bindReader_freeCount (s : State) (r : Ctx) (nb tot : Word) (src : List Byte) : (s.bindReader r nb tot src).freeCount = s.freeCount := rfl
@[simp] theorem bindReader_writer (s : State) (r : Ctx) (nb tot : Word) (src : List Byte) (v' : Ctx) : (s.bindReader r nb tot src).writer v' = s.writer v' := rfl
@[simp] theorem bindReader_hasWriter (s : State) (r : Ctx) (nb tot : Word) (src : List Byte) (v' : Ctx) : (s.bindReader r nb tot src).hasWriter v' = s.hasWriter v' := rfl
@[simp] theorem bindReader_hasReader (s : State) (r : Ctx) (nb tot : Word) (src : List Byte) (r' : Ctx) : (s.bindReader r nb tot src).hasReader r' = s.hasReader r' := rfl

@[simp] theorem advanceReader_params (s : State) (r : Ctx) (n : Nat) : (s.advanceReader r n).params = s.params := rfl
@[simp] theorem advanceReader_writers (s : State) (r : Ctx) (n : Nat) : (s.advanceReader r n).writers = s.writers := rfl
@[simp] theorem advanceReader_fatal (s : State) (r : Ctx) (n : Nat) : (s.advanceReader r n).fatal = s.fatal := rfl
@[simp] theorem advanceReader_fastEn (s : State) (r : Ctx) (n : Nat) : (s.advanceReader r n).fastEn = s.fastEn := rfl
@[simp] theorem advanceReader_hostLe (s : State) (r : Ctx) (n : Nat) : (s.advanceReader r n).hostLe = s.hostLe := rfl
@[simp] theorem advanceReader_fpTaken (s : State) (r : Ctx) (n : Nat) : (s.advanceReader r n).fpTaken = s.fpTaken := rfl
@[simp] theorem advanceReader_input (s : State) (r : Ctx) (n : Nat) : (s.advanceReader r n).input = s.input := rfl
@[simp] theorem advanceReader_resp (s : State) (r : Ctx) (n : Nat) : (s.advanceReader r n).resp = s.resp := rfl
@[simp] theorem advanceReader_freeCount (s : State) (r : Ctx) (n : Nat) : (s.advanceReader r n).freeCount = s.freeCount := rfl
@[simp] theorem advanceReader_writer (s : State) (r : Ctx) (n : Nat) (v' : Ctx) : (s.advanceReader r n).writer v' = s.writer v' := rfl
@[simp] theorem advanceReader_hasWriter (s : State) (r : Ctx) (n : Nat) (v' : Ctx) : (s.advanceReader r n).hasWriter v' = s.hasWriter v' := rfl
@[simp] theorem advanceReader_hasReader (s : State) (r : Ctx) (n : Nat) (r' : Ctx) : (s.advanceReader r n).hasReader r' = s.hasReader r' := rfl

/-! ### Contexts -/

theorem writer_setWriter (s : State) (w v : Ctx) (x : Writer) :
    (s.setWriter w x).writer v = if v = w then x else s.writer v := by
  split
  · next h => subst h; simp [State.writer, State.setWriter]
  · next h =>
    simp only [State.writer, State.setWriter]
    exact Vector.getElem_set_ne _ _ fun e => h (BitVec.eq_of_toNat_eq e.symm)

theorem reader_setReader (s : State) (r q : Ctx) (x : Reader) :
    (s.setReader r x).reader q = if q = r then x else s.reader q := by
  split
  · next h => subst h; simp [State.reader, State.setReader]
  · next h =>
    simp only [State.reader, State.setReader]
    exact Vector.getElem_set_ne _ _ fun e => h (BitVec.eq_of_toNat_eq e.symm)

@[simp] theorem writer_setWriter_same (s : State) (w : Ctx) (x : Writer) : (s.setWriter w x).writer w = x := by
  simp [writer_setWriter]

@[simp] theorem reader_setReader_same (s : State) (r : Ctx) (x : Reader) : (s.setReader r x).reader r = x := by
  simp [reader_setReader]

theorem writer_extendWriter (s : State) (w v : Ctx) (n : Nat) (m : Memory) :
    (s.extendWriter w n m).writer v =
      if v = w then
        { s.writer w with
          cur := BitVec.ofNat 64 ((s.writer w).cur.toNat + n)
          store := m
          alloc := grownAlloc s.params.wcap (cdiv8 ((s.writer w).cur.toNat + n)) (s.writer w).alloc }
      else s.writer v :=
  writer_setWriter _ _ _ _

theorem writer_consumeWriter (s : State) (v u : Ctx) :
    (s.consumeWriter v).writer u = if u = v then { s.writer v with st := .idle } else s.writer u :=
  writer_setWriter _ _ _ _

theorem reader_bindReader (s : State) (r q : Ctx) (nb tot : Word) (src : List Byte) :
    (s.bindReader r nb tot src).reader q =
      if q = r then { st := .opened, cur := 0, total := tot, nbytes := nb, src := Memory.ofBytes src } else s.reader q :=
  reader_setReader _ _ _ _

theorem reader_advanceReader (s : State) (r q : Ctx) (n : Nat) :
    (s.advanceReader r n).reader q =
      if q = r then { s.reader r with cur := BitVec.ofNat 64 ((s.reader r).cur.toNat + n) } else s.reader q :=
  reader_setReader _ _ _ _

theorem reader_poison (s : State) (r q : Ctx) :
    (s.poison r).reader q =
      if q = r then { s.reader r with st := .poisoned, cur := freeCursorUpTo s.freeCount (s.reader r).total }
      else s.reader q :=
  reader_setReader _ _ _ _

/-- Two states with the same contexts and the same other fields are the same state. -/
theorem State.ext_contexts {s t : State} (hp : s.params = t.params) (hw : ∀ w : Ctx, s.writer w = t.writer w)
    (hr : ∀ r : Ctx, s.reader r = t.reader r) (hf : s.fatal = t.fatal) (he : s.fastEn = t.fastEn)
    (hl : s.hostLe = t.hostLe) (hk : s.fpTaken = t.fpTaken) (hi : s.input = t.input) (ha : s.resp = t.resp)
    (hc : s.freeCount = t.freeCount) : s = t := by
  have h1 : s.writers = t.writers := by
    ext i hi : 1
    have h := hw (BitVec.ofNat 4 i)
    simpa [State.writer, Nat.mod_eq_of_lt hi] using h
  have h2 : s.readers = t.readers := by
    ext i hi : 1
    have h := hr (BitVec.ofNat 4 i)
    simpa [State.reader, Nat.mod_eq_of_lt hi] using h
  cases s
  cases t
  simp_all

@[simp] theorem resetWith_writer (p : Params) (f h : Bool) (w : Ctx) :
    (State.resetWith p f h).writer w = Writer.atReset := by
  simp [State.resetWith, State.writer]

@[simp] theorem resetWith_reader (p : Params) (f h : Bool) (r : Ctx) :
    (State.resetWith p f h).reader r = Reader.atReset := by
  simp [State.resetWith, State.reader]

end Sys2Proof.Machine
end

