-- ==== Sys2Proof/Laws/Memory.lean ====
section
/-! SUPPORT. Laws of byte stores: reading after writing, the canonical form and that every operation keeps it, and that
canonical stores with the same bytes are equal. -/

namespace Sys2Proof.Machine

theorem Memory.wfFrom_cons (lo a : Nat) (b : Byte) (m : Memory) :
    Memory.wfFrom lo ((a, b) :: m) = true ↔ lo ≤ a ∧ b ≠ 0 ∧ Memory.wfFrom (a + 1) m = true := by
  simp [Memory.wfFrom, and_assoc]

theorem Memory.wfFrom_mono {lo lo' : Nat} (h : lo' ≤ lo) {m : Memory} (hm : Memory.wfFrom lo m = true) :
    Memory.wfFrom lo' m = true := by
  cases m with
  | nil => rfl
  | cons c m =>
    obtain ⟨a, b⟩ := c
    rw [Memory.wfFrom_cons] at hm ⊢
    exact ⟨h.trans hm.1, hm.2⟩

theorem readByte_of_lt {lo : Nat} {m : Memory} (hm : Memory.wfFrom lo m = true) {a : Nat} (h : a < lo) :
    readByte m a = 0 := by
  induction m generalizing lo with
  | nil => rfl
  | cons c m ih =>
    obtain ⟨a', b⟩ := c
    rw [Memory.wfFrom_cons] at hm
    have : a ≠ a' := by omega
    simp only [readByte, this, if_false]
    exact ih hm.2.2 (by omega)

/-- A byte other than the one written reads as before, in any store. -/
theorem readByte_writeByte_ne (m : Memory) (a x : Nat) (v : Byte) (h : x ≠ a) :
    readByte (writeByte m a v) x = readByte m x := by
  induction m with
  | nil => simp only [writeByte]; split_ifs <;> simp [readByte, h]
  | cons c m ih =>
    obtain ⟨a', b⟩ := c
    simp only [writeByte]
    split_ifs with h1 h2 h3 h4 <;> simp_all [readByte]

/-- The byte written reads back, in a canonical store. -/
theorem readByte_writeByte_same {lo : Nat} {m : Memory} (hm : Memory.wfFrom lo m = true) (a : Nat) (v : Byte) :
    readByte (writeByte m a v) a = v := by
  induction m generalizing lo with
  | nil =>
    simp only [writeByte]
    split_ifs with hv
    · exact hv.symm
    · simp [readByte]
  | cons c m ih =>
    obtain ⟨a', b⟩ := c
    rw [Memory.wfFrom_cons] at hm
    simp only [writeByte]
    split_ifs with h1 h2 h3 h4
    · subst h2
      have : a ≠ a' := by omega
      simp only [readByte, this, if_false]
      exact readByte_of_lt hm.2.2 (by omega)
    · simp [readByte]
    · subst h3 h4
      exact readByte_of_lt hm.2.2 (by omega)
    · subst h3
      simp [readByte]
    · simp only [readByte, h3, if_false]
      exact ih hm.2.2

/-- Read after write. -/
theorem readByte_writeByte {m : Memory} (hm : m.wf = true) (a x : Nat) (v : Byte) :
    readByte (writeByte m a v) x = if x = a then v else readByte m x := by
  split
  · next h => subst h; exact readByte_writeByte_same hm x v
  · next h => exact readByte_writeByte_ne m a x v h

theorem wfFrom_writeByte {lo : Nat} {m : Memory} (hm : Memory.wfFrom lo m = true) {a : Nat} (ha : lo ≤ a) (v : Byte) :
    Memory.wfFrom lo (writeByte m a v) = true := by
  induction m generalizing lo with
  | nil =>
    simp only [writeByte]
    split_ifs with hv
    · rfl
    · rw [Memory.wfFrom_cons]; exact ⟨ha, hv, rfl⟩
  | cons c m ih =>
    obtain ⟨a', b⟩ := c
    have hm' := hm
    rw [Memory.wfFrom_cons] at hm'
    simp only [writeByte]
    split_ifs with h1 h2 h3 h4
    · exact hm
    · rw [Memory.wfFrom_cons, Memory.wfFrom_cons]
      exact ⟨ha, h2, by omega, hm'.2⟩
    · exact Memory.wfFrom_mono (by omega) hm'.2.2
    · rw [Memory.wfFrom_cons]
      exact ⟨ha, h4, h3 ▸ hm'.2.2⟩
    · rw [Memory.wfFrom_cons]
      exact ⟨hm'.1, hm'.2.1, ih hm'.2.2 (by omega)⟩

/-- A write keeps the canonical form. -/
theorem wf_writeByte {m : Memory} (hm : m.wf = true) (a : Nat) (v : Byte) : (writeByte m a v).wf = true :=
  wfFrom_writeByte hm (Nat.zero_le a) v

/-- A block write keeps the canonical form. -/
theorem wf_writeBytes {m : Memory} (hm : m.wf = true) (a : Nat) (bs : List Byte) : (writeBytes m a bs).wf = true := by
  induction bs generalizing m a with
  | nil => exact hm
  | cons b bs ih => exact ih (wf_writeByte hm a b) (a + 1)

/-- Read after a block write. -/
theorem readByte_writeBytes {m : Memory} (hm : m.wf = true) (a : Nat) (bs : List Byte) (x : Nat) :
    readByte (writeBytes m a bs) x = if a ≤ x ∧ x < a + bs.length then bs.getD (x - a) 0 else readByte m x := by
  induction bs generalizing m a with
  | nil => rw [if_neg (by simp only [List.length_nil]; omega)]; rfl
  | cons b bs ih =>
    simp only [writeBytes, ih (wf_writeByte hm a b), readByte_writeByte hm, List.length_cons]
    rcases Nat.lt_trichotomy x a with h | h | h
    · rw [if_neg (by omega), if_neg (by omega), if_neg (by omega)]
    · subst h
      rw [if_neg (by omega), if_pos rfl, if_pos (by omega)]
      simp
    · have e : x - a = (x - (a + 1)) + 1 := by omega
      by_cases h2 : x < a + 1 + bs.length
      · rw [if_pos (by omega), if_pos (by omega), e, List.getD_cons_succ]
      · rw [if_neg (by omega), if_neg (by omega), if_neg (by omega)]

theorem wfFrom_cellsFrom (a : Nat) (bs : List Byte) : Memory.wfFrom a (cellsFrom a bs) = true := by
  induction bs generalizing a with
  | nil => rfl
  | cons b bs ih =>
    simp only [cellsFrom]
    split
    · exact Memory.wfFrom_mono (by omega) (ih (a + 1))
    · next h => rw [Memory.wfFrom_cons]; exact ⟨Nat.le_refl a, h, ih (a + 1)⟩

/-- A source binding is canonical. -/
theorem wf_ofBytes (bs : List Byte) : (Memory.ofBytes bs).wf = true := wfFrom_cellsFrom 0 bs

theorem readByte_cellsFrom (a : Nat) (bs : List Byte) (x : Nat) :
    readByte (cellsFrom a bs) x = if a ≤ x then bs.getD (x - a) 0 else 0 := by
  induction bs generalizing a with
  | nil => simp [cellsFrom, readByte]
  | cons b bs ih =>
    have step : readByte (cellsFrom a (b :: bs)) x = if x = a then b else readByte (cellsFrom (a + 1) bs) x := by
      simp only [cellsFrom]
      split
      · next h =>
        split
        · next e => rw [e, readByte_of_lt (wfFrom_cellsFrom (a + 1) bs) (by omega), h]
        · rfl
      · rfl
    rw [step, ih]
    rcases Nat.lt_trichotomy x a with h | h | h
    · rw [if_neg (by omega), if_neg (by omega), if_neg (by omega)]
    · subst h; simp
    · have e : x - a = (x - (a + 1)) + 1 := by omega
      rw [if_neg (by omega), if_pos (by omega), if_pos (by omega), e, List.getD_cons_succ]

/-- A source binding holds the bytes given, from address 0 on. -/
@[simp] theorem readByte_ofBytes (bs : List Byte) (x : Nat) : readByte (Memory.ofBytes bs) x = bs.getD x 0 := by
  simp [Memory.ofBytes, readByte_cellsFrom]

theorem mem_cellsFrom {a : Nat} {bs : List Byte} {c : Host.Cell} (h : c ∈ cellsFrom a bs) :
    a ≤ c.1 ∧ c.1 < a + bs.length := by
  induction bs generalizing a with
  | nil => simp [cellsFrom] at h
  | cons b bs ih =>
    simp only [cellsFrom] at h
    split at h
    · have := ih h; simp only [List.length_cons]; omega
    · rcases List.mem_cons.mp h with h | h
      · subst h; simp
      · have := ih h; simp only [List.length_cons]; omega

/-- In a canonical store a cell is listed exactly where its byte, not 0x00, reads. -/
theorem mem_iff_readByte {lo : Nat} {m : Memory} (hm : Memory.wfFrom lo m = true) (a : Nat) (b : Byte) :
    (a, b) ∈ m ↔ b ≠ 0 ∧ readByte m a = b := by
  induction m generalizing lo with
  | nil => exact ⟨fun h => absurd h (by simp), fun h => absurd h.2.symm h.1⟩
  | cons c m ih =>
    obtain ⟨a', b'⟩ := c
    rw [Memory.wfFrom_cons] at hm
    simp only [List.mem_cons, Prod.mk.injEq, ih hm.2.2, readByte]
    by_cases h : a = a'
    · subst h
      have h0 := readByte_of_lt hm.2.2 (a := a) (by omega)
      simp only [true_and, if_true, h0]
      constructor
      · rintro (rfl | ⟨h1, h2⟩)
        · exact ⟨hm.2.1, rfl⟩
        · exact absurd h2.symm h1
      · rintro ⟨_, rfl⟩; exact Or.inl rfl
    · simp [h]

theorem eq_of_readByte_from {lo lo' : Nat} {m m' : Memory} (hm : Memory.wfFrom lo m = true)
    (hm' : Memory.wfFrom lo' m' = true) (h : ∀ a, readByte m a = readByte m' a) : m = m' := by
  induction m generalizing lo lo' m' with
  | nil =>
    cases m' with
    | nil => rfl
    | cons c m' =>
      obtain ⟨a, b⟩ := c
      have := h a
      rw [Memory.wfFrom_cons] at hm'
      simp only [readByte, if_true] at this
      exact absurd this.symm hm'.2.1
  | cons c m ih =>
    obtain ⟨a, b⟩ := c
    cases m' with
    | nil =>
      have := h a
      rw [Memory.wfFrom_cons] at hm
      simp only [readByte, if_true] at this
      exact absurd this hm.2.1
    | cons c' m' =>
      obtain ⟨a', b'⟩ := c'
      rw [Memory.wfFrom_cons] at hm hm'
      have e : a = a' := by
        rcases Nat.lt_trichotomy a a' with hl | he | hl
        · have := h a
          rw [readByte, if_pos rfl, readByte, if_neg (by omega), readByte_of_lt hm'.2.2 (by omega)] at this
          exact absurd this hm.2.1
        · exact he
        · have := h a'
          rw [readByte, if_neg (by omega), readByte_of_lt hm.2.2 (by omega), readByte, if_pos rfl] at this
          exact absurd this.symm hm'.2.1
      subst e
      have eb : b = b' := by simpa [readByte] using h a
      subst eb
      congr 1
      refine ih hm.2.2 hm'.2.2 fun x => ?_
      by_cases hx : x = a
      · subst hx
        rw [readByte_of_lt hm.2.2 (by omega), readByte_of_lt hm'.2.2 (by omega)]
      · simpa [readByte, hx] using h x

/-- Canonical stores with the same bytes are equal. -/
theorem eq_of_readByte {m m' : Memory} (hm : m.wf = true) (hm' : m'.wf = true)
    (h : ∀ a, readByte m a = readByte m' a) : m = m' :=
  eq_of_readByte_from hm hm' h

/-- A byte is determined by its stream bits. -/
theorem readByte_eq_of_streamBit {m m' : Memory} {a : Nat}
    (h : ∀ j, j < 8 → streamBit m (8 * a + j) = streamBit m' (8 * a + j)) : readByte m a = readByte m' a := by
  refine BitVec.eq_of_getLsbD_eq fun j hj => ?_
  have := h j hj
  simpa [streamBit, Nat.mul_add_div, Nat.mul_add_mod, Nat.div_eq_of_lt hj, Nat.mod_eq_of_lt hj] using this

/-- Canonical stores with the same stream bits are equal. -/
theorem eq_of_streamBit {m m' : Memory} (hm : m.wf = true) (hm' : m'.wf = true)
    (h : ∀ k, streamBit m k = streamBit m' k) : m = m' :=
  eq_of_readByte hm hm' fun _ => readByte_eq_of_streamBit fun _ _ => h _

@[simp] theorem streamBit_nil (k : Nat) : streamBit [] k = false := by simp [streamBit, readByte]

/-- ZERO-ABOVE said of the listed bytes and said of the stream bits are the same (10_state R22 item 2). -/
theorem highBitsClear_iff {m : Memory} (hm : m.wf = true) (cur : Nat) :
    highBitsClear m cur = true ↔ ∀ k, cur ≤ k → streamBit m k = false := by
  have key : highBitsClear m cur = true ↔ ∀ a, (readByte m a).toNat < 2 ^ min 8 (cur - 8 * a) := by
    simp only [highBitsClear, List.all_eq_true, decide_eq_true_eq]
    constructor
    · intro h a
      by_cases h0 : readByte m a = 0
      · rw [h0]; exact Nat.two_pow_pos _
      · exact h (a, readByte m a) ((mem_iff_readByte hm a _).mpr ⟨h0, rfl⟩)
    · rintro h ⟨a, b⟩ hc
      have := ((mem_iff_readByte hm a b).mp hc).2
      exact this ▸ h a
  rw [key]
  constructor
  · intro h k hk
    have hb := h (k / 8)
    simp only [streamBit, BitVec.getLsbD]
    refine Nat.testBit_lt_two_pow (lt_of_lt_of_le hb (Nat.pow_le_pow_right (by omega) ?_))
    omega
  · intro h a
    refine Nat.lt_pow_two_of_testBit _ fun j hj => ?_
    by_cases h8 : j < 8
    · have := h (8 * a + j) (by omega)
      simpa [streamBit, Nat.mul_add_div, Nat.mul_add_mod, Nat.div_eq_of_lt h8, Nat.mod_eq_of_lt h8, BitVec.getLsbD]
        using this
    · exact Nat.testBit_lt_two_pow (lt_of_lt_of_le (readByte m a).isLt (Nat.pow_le_pow_right (by omega) (by omega)))

end Sys2Proof.Machine
end

