-- ==== Sys2Proof/Laws/Operands.lean ====
section
/-! SUPPORT. Laws of the cursor functions and the multiplexers: the bits of the accumulator and of the two windows, the
bytes a merge leaves, and that every store operation keeps the canonical form. -/

namespace Sys2Proof.Machine

theorem getLsbD_pack (v : Word) (n i : Nat) : (pack v n).getLsbD i = (decide (i < n) && v.getLsbD i) := by
  simp only [pack, BitVec.getLsbD_ofNat, Nat.testBit_mod_two_pow]
  by_cases h : i < 64
  · simp [h, BitVec.getLsbD]
  · simp [h, BitVec.getLsbD_of_ge v i (by omega)]

theorem getLsbD_unpack (b : Window) (n i : Nat) :
    (unpack b n).getLsbD i = (decide (i < 64) && (decide (i < n) && b.getLsbD i)) := by
  simp only [unpack, BitVec.getLsbD_ofNat, Nat.testBit_mod_two_pow]
  rfl

/-- The bits of the window of a write. -/
theorem getLsbD_storeWindow {s n : Nat} (hs : s ≤ 7) (hn : n ≤ 64) (v : Word) (i : Nat) :
    (storeWindow s n v).getLsbD i = (decide (s ≤ i) && (decide (i < s + n) && v.getLsbD (i - s))) := by
  simp only [storeWindow, BitVec.getLsbD_shiftLeft, BitVec.getLsbD_setWidth, getLsbD_pack]
  by_cases h1 : s ≤ i
  · by_cases h2 : i < s + n
    · simp [show i < 72 by omega, show ¬i < s by omega, show i - s < 72 by omega, show i - s < n by omega, h1, h2]
    · simp [h2, show ¬i - s < n by omega]
  · simp [h1, show i < s by omega]

/-- The bits of one byte of a window. -/
theorem getLsbD_windowByte (win : Window) (k j : Nat) :
    (windowByte win k).getLsbD j = (decide (j < 8) && win.getLsbD (8 * k + j)) := by
  simp [windowByte]

theorem span_le_nine {s n : Nat} (hs : s ≤ 7) (hn : n ≤ 64) : span s n ≤ 9 := by
  simp only [span, cdiv8]
  split <;> omega

theorem mergeWindow_succ (win : Window) (b m : Nat) (store : Memory) :
    mergeWindow win b (m + 1) store =
      writeByte (mergeWindow win b m store) (b + m) (readByte (mergeWindow win b m store) (b + m) ||| windowByte win m) := by
  simp [mergeWindow, List.range_succ]

/-- A merge keeps the canonical form. -/
theorem wf_mergeWindow (win : Window) (b m : Nat) {store : Memory} (h : store.wf = true) :
    (mergeWindow win b m store).wf = true := by
  induction m with
  | zero => exact h
  | succ m ih => rw [mergeWindow_succ]; exact wf_writeByte ih _ _

/-- Bytes outside a merge read as before, in any store. -/
theorem readByte_mergeWindow_outside (win : Window) (b m : Nat) (store : Memory) {a : Nat} (h : a < b ∨ b + m ≤ a) :
    readByte (mergeWindow win b m store) a = readByte store a := by
  induction m with
  | zero => rfl
  | succ m ih => rw [mergeWindow_succ, readByte_writeByte_ne _ _ _ _ (by omega), ih (by omega)]

/-- Every byte after a merge: those of the window are or-ed in, the others read as before. -/
theorem readByte_mergeWindow (win : Window) (b m : Nat) {store : Memory} (hs : store.wf = true) (a : Nat) :
    readByte (mergeWindow win b m store) a =
      if b ≤ a ∧ a < b + m then readByte store a ||| windowByte win (a - b) else readByte store a := by
  induction m with
  | zero =>
    rw [if_neg (by omega)]
    rfl
  | succ m ih =>
    rw [mergeWindow_succ, readByte_writeByte (wf_mergeWindow win b m hs)]
    by_cases h : a = b + m
    · subst h
      rw [if_pos rfl, if_pos (by omega), readByte_mergeWindow_outside _ _ _ _ (by omega), Nat.add_sub_cancel_left]
    · rw [if_neg h, ih]
      by_cases h2 : b ≤ a ∧ a < b + m
      · rw [if_pos h2, if_pos (by omega)]
      · rw [if_neg h2, if_neg (by omega)]

/-- `store_bits` keeps the canonical form. -/
theorem wf_storeBits {store : Memory} (h : store.wf = true) (c n : Nat) (v : Word) : (storeBits store c n v).wf = true :=
  wf_mergeWindow _ _ _ h

theorem storeBits_zero (store : Memory) (c : Nat) (v : Word) : storeBits store c 0 v = store := by
  simp [storeBits, span, mergeWindow]

theorem wf_foldl_storeBits (f : Nat → Nat × Nat × Word) (l : List Nat) {store : Memory} (h : store.wf = true) :
    (l.foldl (fun d i => storeBits d (f i).1 (f i).2.1 (f i).2.2) store).wf = true := by
  induction l generalizing store with
  | nil => exact h
  | cons i l ih => exact ih (wf_storeBits h _ _ _)

/-- `copy_bits` keeps the canonical form. -/
theorem wf_copyBits {dst : Memory} (h : dst.wf = true) (c : Nat) (src : Memory) (n : Nat) :
    (copyBits dst c src n).wf = true :=
  wf_foldl_storeBits
    (fun i => (c + 64 * i, min 64 (n - 64 * i), loadBits src (64 * i) (min 64 (n - 64 * i)))) _ h

/-- The slow datapath of `W_ARRAY` keeps the canonical form. -/
theorem wf_storeElems {store : Memory} (h : store.wf = true) (c width : Nat) (es : List Word) :
    (storeElems store c width es).wf = true := by
  induction es generalizing store c with
  | nil => exact h
  | cons e es ih => exact ih (wf_storeBits h _ _ _) _

/-- The fast datapath of `W_ARRAY` keeps the canonical form. -/
theorem wf_fastStoreElems {store : Memory} (h : store.wf = true) (hostLe : Bool) (c width : Nat) (es : List Word) :
    (fastStoreElems hostLe store c width es).wf = true :=
  wf_writeBytes h _ _

theorem loadWindow_succ (m : Memory) (b count : Nat) :
    loadWindow m b (count + 1) = loadWindow m b count ||| (readByte m (b + count)).setWidth 72 <<< (8 * count) := by
  simp [loadWindow, List.range_succ]

/-- The bits of the window of a read. -/
theorem getLsbD_loadWindow (m : Memory) (b count i : Nat) :
    (loadWindow m b count).getLsbD i =
      (decide (i < 72) && (decide (i < 8 * count) && (readByte m (b + i / 8)).getLsbD (i % 8))) := by
  induction count with
  | zero => simp [loadWindow]
  | succ count ih =>
    rw [loadWindow_succ, BitVec.getLsbD_or, ih, BitVec.getLsbD_shiftLeft, BitVec.getLsbD_setWidth]
    by_cases h72 : i < 72
    · by_cases h : i < 8 * count
      · simp [h72, h, show i < 8 * (count + 1) by omega]
      · by_cases h' : i < 8 * (count + 1)
        · have e1 : i / 8 = count := by omega
          have e2 : i % 8 = i - 8 * count := by omega
          simp [h72, h, h', e1, e2, show i - 8 * count < 72 by omega]
        · simp [h72, h, h', BitVec.getLsbD_of_ge (readByte m (b + count)) (i - 8 * count) (by omega)]
    · simp [h72]

@[simp] theorem loadBits_zero (m : Memory) (c : Nat) : loadBits m c 0 = 0 := by
  refine BitVec.eq_of_getLsbD_eq fun i _ => ?_
  simp [loadBits, getLsbD_unpack]

end Sys2Proof.Machine
end

