-- ==== Sys2Proof/Laws/Exec.lean ====
section
/-! SUPPORT. Everything a command can do: one inversion lemma per shared check and one per command. A command either raises
an exception of its kind, or stops on an address that does not exist, or its conditions hold and it answers `OK` with the
state its rule gives. -/

namespace Sys2Proof.Machine

/-- The exceptions a writer command can raise (60_exceptions R240). -/
def Exception.ofWriter (e : Exception) : Prop := e = .fatal ∨ e = .illegalCommand ∨ e = .illegalState

/-- The exceptions a command on reader `r` can raise (60_exceptions R240). -/
def Exception.ofReader (r : Ctx) (e : Exception) : Prop :=
  e = .fatal ∨ e = .illegalCommand ∨ e = .illegalState ∨ e = .poisoned ∨ e = .truncated r

@[simp] theorem raise_eq (e : Exception) (s : State) : raise e s = .next (s.take e) := rfl

@[simp] theorem answer_eq (s : State) (r0 : Word) (es : List Word) : answer s r0 es = .next (s.respond .ok r0 es) := rfl

/-- What the first checks of a command can do. -/
theorem checked_cases (s : State) (legal : Bool) (body : Result) :
    (s.fatal = true ∧ checked s legal body = raise .fatal s) ∨
      (s.fatal = false ∧ legal = false ∧ checked s legal body = raise .illegalCommand s) ∨
        (s.fatal = false ∧ legal = true ∧ checked s legal body = body) := by
  cases hf : s.fatal <;> cases hl : legal <;> simp [checked, hf]

/-- What the check of a writer's lifecycle can do. -/
theorem needWriter_cases (s : State) (w : Ctx) (st : WriterState) (body : Result) :
    ((s.writer w).st ≠ st ∧ needWriter s w st body = raise .illegalState s) ∨
      ((s.writer w).st = st ∧ needWriter s w st body = body) := by
  by_cases h : (s.writer w).st = st <;> simp [needWriter, h]

/-- What the check of a reader's lifecycle can do. -/
theorem needReader_cases (s : State) (r : Ctx) (body : Result) :
    ((s.reader r).st = .idle ∧ needReader s r body = raise .illegalState s) ∨
      ((s.reader r).st = .poisoned ∧ needReader s r body = raise .poisoned s) ∨
        ((s.reader r).st = .opened ∧ needReader s r body = body) := by
  cases h : (s.reader r).st <;> simp [needReader, h]

/-- What the capacity check can do. -/
theorem needRoom_cases (s : State) (w : Ctx) (n : Nat) (body : Result) :
    (s.hasRoom w n = false ∧ needRoom s w n body = raise .fatal s) ∨
      (s.hasRoom w n = true ∧ needRoom s w n body = body) := by
  cases h : s.hasRoom w n <;> simp [needRoom, h]

/-- What the bounds check can do. -/
theorem needBits_cases (s : State) (r : Ctx) (n : Nat) (body : Result) :
    ((s.reader r).hasBits n = false ∧ needBits s r n body = raise (.truncated r) s) ∨
      ((s.reader r).hasBits n = true ∧ (s.reader r).sourceCovers n = false ∧
          needBits s r n body = .fault .sourceOutside) ∨
        ((s.reader r).hasBits n = true ∧ (s.reader r).sourceCovers n = true ∧ needBits s r n body = body) := by
  cases h : (s.reader r).hasBits n <;> cases h' : (s.reader r).sourceCovers n <;> simp [needBits, h, h']

/-- Everything `W_OPEN` can do. -/
theorem execWOpen_cases (w : Ctx) (s : State) :
    (∃ e, e.ofWriter ∧ execWOpen w s = raise e s) ∨
      (s.fatal = false ∧ s.hasWriter w = true ∧
        execWOpen w s = answer (s.setWriter w { st := .opened, cur := 0, store := [], alloc := 0 }) 0 []) := by
  unfold execWOpen
  rcases checked_cases s (s.legal (.wOpen w)) _ with ⟨_, h⟩ | ⟨_, _, h⟩ | ⟨hf, hl, h⟩
  · exact .inl ⟨.fatal, .inl rfl, h⟩
  · exact .inl ⟨.illegalCommand, .inr (.inl rfl), h⟩
  · exact .inr ⟨hf, hl, h⟩

/-- Everything `W_BITS` can do. -/
theorem execWBits_cases (w : Ctx) (width : Width) (value : Word) (s : State) :
    (∃ e, e.ofWriter ∧ execWBits w width value s = raise e s) ∨
      (s.fatal = false ∧ s.hasWriter w = true ∧ width.toNat ≤ 64 ∧ (s.writer w).st = .opened ∧
        s.hasRoom w width.toNat = true ∧
        execWBits w width value s =
          answer (s.extendWriter w width.toNat
            (storeBits (s.writer w).store (s.writer w).cur.toNat width.toNat value)) 0 []) := by
  unfold execWBits
  rcases checked_cases s (s.legal (.wBits w width value)) _ with ⟨_, h⟩ | ⟨_, _, h⟩ | ⟨hf, hl, h⟩
  · exact .inl ⟨.fatal, .inl rfl, h⟩
  · exact .inl ⟨.illegalCommand, .inr (.inl rfl), h⟩
  rw [h]
  rcases needWriter_cases s w .opened _ with ⟨_, h⟩ | ⟨ho, h⟩
  · exact .inl ⟨.illegalState, .inr (.inr rfl), h⟩
  rw [h]
  rcases needRoom_cases s w width.toNat _ with ⟨_, h⟩ | ⟨hr, h⟩
  · exact .inl ⟨.fatal, .inl rfl, h⟩
  simp only [State.legal, fieldWidthOk, Bool.and_eq_true, decide_eq_true_eq] at hl
  exact .inr ⟨hf, hl.1, hl.2, ho, hr, h⟩

/-- Everything `W_APPEND` can do. -/
theorem execWAppend_cases (w v : Ctx) (s : State) :
    (∃ e, e.ofWriter ∧ execWAppend w v s = raise e s) ∨
      (s.fatal = false ∧ s.hasWriter w = true ∧ s.hasWriter v = true ∧ w ≠ v ∧ (s.writer w).st = .opened ∧
        (s.writer v).st = .opened ∧ s.hasRoom w (s.writer v).cur.toNat = true ∧
        execWAppend w v s =
          answer ((s.extendWriter w (s.writer v).cur.toNat
            (copyBits (s.writer w).store (s.writer w).cur.toNat (s.writer v).store (s.writer v).cur.toNat)).consumeWriter v)
            0 []) := by
  unfold execWAppend
  rcases checked_cases s (s.legal (.wAppend w v)) _ with ⟨_, h⟩ | ⟨_, _, h⟩ | ⟨hf, hl, h⟩
  · exact .inl ⟨.fatal, .inl rfl, h⟩
  · exact .inl ⟨.illegalCommand, .inr (.inl rfl), h⟩
  rw [h]
  rcases needWriter_cases s w .opened _ with ⟨_, h⟩ | ⟨ho, h⟩
  · exact .inl ⟨.illegalState, .inr (.inr rfl), h⟩
  rw [h]
  rcases needWriter_cases s v .opened _ with ⟨_, h⟩ | ⟨hv, h⟩
  · exact .inl ⟨.illegalState, .inr (.inr rfl), h⟩
  rw [h]
  rcases needRoom_cases s w (s.writer v).cur.toNat _ with ⟨_, h⟩ | ⟨hr, h⟩
  · exact .inl ⟨.fatal, .inl rfl, h⟩
  simp only [State.legal, Bool.and_eq_true, bne_iff_ne] at hl
  exact .inr ⟨hf, hl.1.1, hl.1.2, hl.2, ho, hv, hr, h⟩

/-- Everything `W_FINISH` can do. -/
theorem execWFinish_cases (w : Ctx) (s : State) :
    (∃ e, e.ofWriter ∧ execWFinish w s = raise e s) ∨
      (s.fatal = false ∧ s.hasWriter w = true ∧ (s.writer w).st = .opened ∧
        execWFinish w s = answer (s.setWriter w { s.writer w with st := .done }) (s.writer w).cur []) := by
  unfold execWFinish
  rcases checked_cases s (s.legal (.wFinish w)) _ with ⟨_, h⟩ | ⟨_, _, h⟩ | ⟨hf, hl, h⟩
  · exact .inl ⟨.fatal, .inl rfl, h⟩
  · exact .inl ⟨.illegalCommand, .inr (.inl rfl), h⟩
  rw [h]
  rcases needWriter_cases s w .opened _ with ⟨_, h⟩ | ⟨ho, h⟩
  · exact .inl ⟨.illegalState, .inr (.inr rfl), h⟩
  exact .inr ⟨hf, hl, ho, h⟩

/-- Everything `W_BYTE` can do. -/
theorem execWByte_cases (w : Ctx) (index : Word) (s : State) :
    (∃ e, e.ofWriter ∧ execWByte w index s = raise e s) ∨
      (s.fatal = false ∧ s.hasWriter w = true ∧ (s.writer w).st = .done ∧ index.toNat < cdiv8 (s.writer w).cur.toNat ∧
        (s.params.wcap ≤ index.toNat ∧ execWByte w index s = .fault .storeOutside ∨
          index.toNat < s.params.wcap ∧
            execWByte w index s = answer s ((readByte (s.writer w).store index.toNat).setWidth 64) [])) := by
  unfold execWByte
  rcases checked_cases s (s.legal (.wByte w index)) _ with ⟨_, h⟩ | ⟨_, _, h⟩ | ⟨hf, hl, h⟩
  · exact .inl ⟨.fatal, .inl rfl, h⟩
  · exact .inl ⟨.illegalCommand, .inr (.inl rfl), h⟩
  rw [h]
  rcases needWriter_cases s w .done _ with ⟨_, h⟩ | ⟨ho, h⟩
  · exact .inl ⟨.illegalState, .inr (.inr rfl), h⟩
  rw [h]
  by_cases hi : index.toNat < cdiv8 (s.writer w).cur.toNat
  · refine .inr ⟨hf, hl, ho, hi, ?_⟩
    rw [if_pos hi]
    by_cases hc : index.toNat < s.params.wcap
    · exact .inr ⟨hc, if_pos hc⟩
    · exact .inl ⟨Nat.le_of_not_lt hc, if_neg hc⟩
  · rw [if_neg hi]
    exact .inl ⟨.illegalCommand, .inr (.inl rfl), rfl⟩

/-- Everything `W_ARRAY` can do. -/
theorem execWArray_cases (w : Ctx) (width : Width) (elems : List Word) (s : State) :
    (∃ e, e.ofWriter ∧ execWArray w width elems s = raise e s) ∨
      (s.fatal = false ∧ s.hasWriter w = true ∧ 1 ≤ width.toNat ∧ width.toNat ≤ 64 ∧ elems.length < 2 ^ 64 ∧
        (s.writer w).st = .opened ∧ s.hasRoom w (elems.length * width.toNat) = true ∧
        execWArray w width elems s =
          answer ((s.extendWriter w (elems.length * width.toNat)
            (storeElems (s.writer w).store (s.writer w).cur.toNat width.toNat elems)).setFpTaken
              (s.fastOk (s.writer w).cur.toNat width.toNat)) 0 []) := by
  unfold execWArray
  rcases checked_cases s (s.legal (.wArray w width elems)) _ with ⟨_, h⟩ | ⟨_, _, h⟩ | ⟨hf, hl, h⟩
  · exact .inl ⟨.fatal, .inl rfl, h⟩
  · exact .inl ⟨.illegalCommand, .inr (.inl rfl), h⟩
  rw [h]
  rcases needWriter_cases s w .opened _ with ⟨_, h⟩ | ⟨ho, h⟩
  · exact .inl ⟨.illegalState, .inr (.inr rfl), h⟩
  rw [h]
  rcases needRoom_cases s w (elems.length * width.toNat) _ with ⟨_, h⟩ | ⟨hr, h⟩
  · exact .inl ⟨.fatal, .inl rfl, h⟩
  simp only [State.legal, elementWidthOk, Bool.and_eq_true, decide_eq_true_eq] at hl
  exact .inr ⟨hf, hl.1.1, hl.1.2.1, hl.1.2.2, hl.2, ho, hr, h⟩

/-- Everything `R_OPEN` can do. -/
theorem execROpen_cases (r : Ctx) (nbytes total : Word) (src : List Byte) (s : State) :
    (∃ e, e.ofReader r ∧ execROpen r nbytes total src s = raise e s) ∨
      (s.fatal = false ∧ s.hasReader r = true ∧ nbytes.toNat ≤ s.params.rcap ∧ src.length = nbytes.toNat ∧
        total.toNat ≤ 8 * nbytes.toNat ∧
        execROpen r nbytes total src s = answer (s.bindReader r nbytes total src) total []) := by
  unfold execROpen
  rcases checked_cases s (s.legal (.rOpen r nbytes total src)) _ with ⟨_, h⟩ | ⟨_, _, h⟩ | ⟨hf, hl, h⟩
  · exact .inl ⟨.fatal, .inl rfl, h⟩
  · exact .inl ⟨.illegalCommand, .inr (.inl rfl), h⟩
  simp only [State.legal, State.bindingOk, Bool.and_eq_true, decide_eq_true_eq, beq_iff_eq] at hl
  exact .inr ⟨hf, hl.1, hl.2.1.1, hl.2.1.2, hl.2.2, h⟩

/-- Everything `R_OPENB` can do. -/
theorem execROpenB_cases (r : Ctx) (nbytes : Word) (src : List Byte) (s : State) :
    (∃ e, e.ofReader r ∧ execROpenB r nbytes src s = raise e s) ∨
      (s.fatal = false ∧ s.hasReader r = true ∧ nbytes.toNat ≤ s.params.rcap ∧ src.length = nbytes.toNat ∧
        execROpenB r nbytes src s =
          answer (s.bindReader r nbytes (BitVec.ofNat 64 (8 * nbytes.toNat)) src) (BitVec.ofNat 64 (8 * nbytes.toNat)) []) := by
  unfold execROpenB
  rcases checked_cases s (s.legal (.rOpenB r nbytes src)) _ with ⟨_, h⟩ | ⟨_, _, h⟩ | ⟨hf, hl, h⟩
  · exact .inl ⟨.fatal, .inl rfl, h⟩
  · exact .inl ⟨.illegalCommand, .inr (.inl rfl), h⟩
  simp only [State.legal, State.bindingOk, Bool.and_eq_true, decide_eq_true_eq, beq_iff_eq] at hl
  exact .inr ⟨hf, hl.1, hl.2.1.1, hl.2.1.2, h⟩

/-- Everything `R_BITS` can do. -/
theorem execRBits_cases (r : Ctx) (width : Width) (s : State) :
    (∃ e, e.ofReader r ∧ execRBits r width s = raise e s) ∨
      (s.fatal = false ∧ s.hasReader r = true ∧ width.toNat ≤ 64 ∧ (s.reader r).st = .opened ∧
        (s.reader r).hasBits width.toNat = true ∧
        ((s.reader r).sourceCovers width.toNat = false ∧ execRBits r width s = .fault .sourceOutside ∨
          (s.reader r).sourceCovers width.toNat = true ∧
            execRBits r width s =
              answer (s.advanceReader r width.toNat)
                (loadBits (s.reader r).src (s.reader r).cur.toNat width.toNat) [])) := by
  unfold execRBits
  rcases checked_cases s (s.legal (.rBits r width)) _ with ⟨_, h⟩ | ⟨_, _, h⟩ | ⟨hf, hl, h⟩
  · exact .inl ⟨.fatal, .inl rfl, h⟩
  · exact .inl ⟨.illegalCommand, .inr (.inl rfl), h⟩
  rw [h]
  rcases needReader_cases s r _ with ⟨_, h⟩ | ⟨_, h⟩ | ⟨ho, h⟩
  · exact .inl ⟨.illegalState, .inr (.inr (.inl rfl)), h⟩
  · exact .inl ⟨.poisoned, .inr (.inr (.inr (.inl rfl))), h⟩
  rw [h]
  simp only [State.legal, fieldWidthOk, Bool.and_eq_true, decide_eq_true_eq] at hl
  rcases needBits_cases s r width.toNat _ with ⟨_, h⟩ | ⟨hb, hc, h⟩ | ⟨hb, hc, h⟩
  · exact .inl ⟨.truncated r, .inr (.inr (.inr (.inr rfl))), h⟩
  · exact .inr ⟨hf, hl.1, hl.2, ho, hb, .inl ⟨hc, h⟩⟩
  · exact .inr ⟨hf, hl.1, hl.2, ho, hb, .inr ⟨hc, h⟩⟩

/-- Everything `R_PEEK` can do. -/
theorem execRPeek_cases (r : Ctx) (width : Width) (s : State) :
    (∃ e, e.ofReader r ∧ execRPeek r width s = raise e s) ∨
      (s.fatal = false ∧ s.hasReader r = true ∧ width.toNat ≤ 64 ∧ (s.reader r).st = .opened ∧
        (s.reader r).hasBits width.toNat = true ∧
        ((s.reader r).sourceCovers width.toNat = false ∧ execRPeek r width s = .fault .sourceOutside ∨
          (s.reader r).sourceCovers width.toNat = true ∧
            execRPeek r width s = answer s (loadBits (s.reader r).src (s.reader r).cur.toNat width.toNat) [])) := by
  unfold execRPeek
  rcases checked_cases s (s.legal (.rPeek r width)) _ with ⟨_, h⟩ | ⟨_, _, h⟩ | ⟨hf, hl, h⟩
  · exact .inl ⟨.fatal, .inl rfl, h⟩
  · exact .inl ⟨.illegalCommand, .inr (.inl rfl), h⟩
  rw [h]
  rcases needReader_cases s r _ with ⟨_, h⟩ | ⟨_, h⟩ | ⟨ho, h⟩
  · exact .inl ⟨.illegalState, .inr (.inr (.inl rfl)), h⟩
  · exact .inl ⟨.poisoned, .inr (.inr (.inr (.inl rfl))), h⟩
  rw [h]
  simp only [State.legal, fieldWidthOk, Bool.and_eq_true, decide_eq_true_eq] at hl
  rcases needBits_cases s r width.toNat _ with ⟨_, h⟩ | ⟨hb, hc, h⟩ | ⟨hb, hc, h⟩
  · exact .inl ⟨.truncated r, .inr (.inr (.inr (.inr rfl))), h⟩
  · exact .inr ⟨hf, hl.1, hl.2, ho, hb, .inl ⟨hc, h⟩⟩
  · exact .inr ⟨hf, hl.1, hl.2, ho, hb, .inr ⟨hc, h⟩⟩

/-- Everything `R_REMAIN` can do. -/
theorem execRRemain_cases (r : Ctx) (s : State) :
    (∃ e, e.ofReader r ∧ execRRemain r s = raise e s) ∨
      (s.fatal = false ∧ s.hasReader r = true ∧ (s.reader r).st = .opened ∧
        execRRemain r s = answer s (s.reader r).remaining []) := by
  unfold execRRemain
  rcases checked_cases s (s.legal (.rRemain r)) _ with ⟨_, h⟩ | ⟨_, _, h⟩ | ⟨hf, hl, h⟩
  · exact .inl ⟨.fatal, .inl rfl, h⟩
  · exact .inl ⟨.illegalCommand, .inr (.inl rfl), h⟩
  rw [h]
  rcases needReader_cases s r _ with ⟨_, h⟩ | ⟨_, h⟩ | ⟨ho, h⟩
  · exact .inl ⟨.illegalState, .inr (.inr (.inl rfl)), h⟩
  · exact .inl ⟨.poisoned, .inr (.inr (.inr (.inl rfl))), h⟩
  exact .inr ⟨hf, hl, ho, h⟩

/-- Everything `R_ARRAY` can do. -/
theorem execRArray_cases (r : Ctx) (width : Width) (n : Word) (s : State) :
    (∃ e, e.ofReader r ∧ execRArray r width n s = raise e s) ∨
      (s.fatal = false ∧ s.hasReader r = true ∧ 1 ≤ width.toNat ∧ width.toNat ≤ 64 ∧ (s.reader r).st = .opened ∧
        (s.reader r).hasBits (n.toNat * width.toNat) = true ∧
        ((s.reader r).sourceCovers (n.toNat * width.toNat) = false ∧ execRArray r width n s = .fault .sourceOutside ∨
          (s.reader r).sourceCovers (n.toNat * width.toNat) = true ∧
            execRArray r width n s =
              answer ((s.advanceReader r (n.toNat * width.toNat)).setFpTaken
                (s.fastOk (s.reader r).cur.toNat width.toNat)) n
                (loadElems (s.reader r).src (s.reader r).cur.toNat width.toNat n.toNat))) := by
  unfold execRArray
  rcases checked_cases s (s.legal (.rArray r width n)) _ with ⟨_, h⟩ | ⟨_, _, h⟩ | ⟨hf, hl, h⟩
  · exact .inl ⟨.fatal, .inl rfl, h⟩
  · exact .inl ⟨.illegalCommand, .inr (.inl rfl), h⟩
  rw [h]
  rcases needReader_cases s r _ with ⟨_, h⟩ | ⟨_, h⟩ | ⟨ho, h⟩
  · exact .inl ⟨.illegalState, .inr (.inr (.inl rfl)), h⟩
  · exact .inl ⟨.poisoned, .inr (.inr (.inr (.inl rfl))), h⟩
  rw [h]
  simp only [State.legal, elementWidthOk, Bool.and_eq_true, decide_eq_true_eq] at hl
  rcases needBits_cases s r (n.toNat * width.toNat) _ with ⟨_, h⟩ | ⟨hb, hc, h⟩ | ⟨hb, hc, h⟩
  · exact .inl ⟨.truncated r, .inr (.inr (.inr (.inr rfl))), h⟩
  · exact .inr ⟨hf, hl.1, hl.2.1, hl.2.2, ho, hb, .inl ⟨hc, h⟩⟩
  · exact .inr ⟨hf, hl.1, hl.2.1, hl.2.2, ho, hb, .inr ⟨hc, h⟩⟩

/-- Everything `R_CLOSE` can do. -/
theorem execRClose_cases (r : Ctx) (s : State) :
    (∃ e, e.ofReader r ∧ execRClose r s = raise e s) ∨
      (s.fatal = false ∧ s.hasReader r = true ∧ (s.reader r).st ≠ .idle ∧
        execRClose r s =
          answer (s.setReader r { s.reader r with st := .idle })
            (if (s.reader r).st = .opened then (s.reader r).remaining else 0) []) := by
  unfold execRClose
  rcases checked_cases s (s.legal (.rClose r)) _ with ⟨_, h⟩ | ⟨_, _, h⟩ | ⟨hf, hl, h⟩
  · exact .inl ⟨.fatal, .inl rfl, h⟩
  · exact .inl ⟨.illegalCommand, .inr (.inl rfl), h⟩
  rw [h]
  cases hs : (s.reader r).st with
  | idle => exact .inl ⟨.illegalState, .inr (.inr (.inl rfl)), rfl⟩
  | opened => exact .inr ⟨hf, hl, by simp, by simp⟩
  | poisoned => exact .inr ⟨hf, hl, by simp, by simp⟩

/-- What a step can do: hold the state, reset, answer an undecodable packet, or execute a command. -/
theorem step_cases (s : State) :
    (s.input = [] ∧ step s = .next s) ∨
      (∃ f h rest, s.input = .reset f h :: rest ∧ step s = .next (s.dropEvent.applyReset f h)) ∨
        (∃ p rest e, s.input = .command p :: rest ∧ decode p = .error e ∧ step s = .next s.dropEvent.undecodable) ∨
          (∃ p rest i, s.input = .command p :: rest ∧ decode p = .ok i ∧ step s = exec i s.dropEvent) := by
  unfold step intake
  split
  · next h =>
    split at h
    · next hi => cases h; exact .inl ⟨hi, rfl⟩
    · next f hl rest hi => cases h; exact .inr (.inl ⟨f, hl, rest, hi, rfl⟩)
    · next p rest hi =>
      split at h
      · cases h
      · next e he => cases h; exact .inr (.inr (.inl ⟨p, rest, e, hi, he, rfl⟩))
  · next h =>
    split at h
    · cases h
    · cases h
    · next p rest hi =>
      split at h
      · next i' hd => cases h; exact .inr (.inr (.inr ⟨p, rest, _, hi, hd, rfl⟩))
      · cases h

end Sys2Proof.Machine
end

