-- ==== Sys2Proof/Laws/PerInstr.lean ====
section
/-! SUPPORT. Statements about every command as syntax, one lemma per constructor of Instr. -/

namespace Sys2Proof.Laws.EncodedRow

/-- The command word of an encoded command lies in the command's own row of the opcode map: its opcode byte is found, and
the bits under the row's mask are the row's match word (30_encoding R96). -/
def Statement (i : Instr) : Prop :=
  Opcode.ofCode (opField (encode i).cw) = some i.opcode ∧ (encode i).cw &&& i.opcode.mask = i.opcode.matchWord

/-- The bits of a command word. -/
theorem getLsbD_cmdWord (o : Opcode) (c c2 : Ctx) (width : Width) (j : Nat) (hj : j < 32) :
    (cmdWord o c c2 width).getLsbD j =
      (o.code.getLsbD j || (!decide (j < 8) && c.getLsbD (j - 8)) || (!decide (j < 12) && c2.getLsbD (j - 12)) ||
        (!decide (j < 16) && width.getLsbD (j - 16))) := by
  have h8 : j - 8 < 32 := by omega
  have h12 : j - 12 < 32 := by omega
  have h16 : j - 16 < 32 := by omega
  simp only [cmdWord, BitVec.getLsbD_or, BitVec.getLsbD_shiftLeft, BitVec.getLsbD_setWidth, hj, h8, h12, h16,
    decide_true, Bool.true_and]

theorem opField_cmdWord (o : Opcode) (c c2 : Ctx) (width : Width) : opField (cmdWord o c c2 width) = o.code := by
  refine BitVec.eq_of_getLsbD_eq fun j hj => ?_
  simp only [opField, BitVec.getLsbD_extractLsb', Nat.zero_add, hj, decide_true, Bool.true_and]
  rw [getLsbD_cmdWord o c c2 width j (by omega)]
  simp [hj, show j < 12 by omega, show j < 16 by omega]

theorem ofCode_code (o : Opcode) : Opcode.ofCode o.code = some o := by cases o <;> decide

theorem opcode_bits_fixed (o : Opcode) : ∀ j, j < 8 → o.mask.getLsbD j = true := by cases o <;> decide

/-- A command word meets its row's mask and match if the fields its row does not use are zero. -/
theorem mask_cmdWord (o : Opcode) (c c2 : Ctx) (width : Width)
    (h : ∀ j, j < 32 → o.mask.getLsbD j = true →
      (8 ≤ j → c.getLsbD (j - 8) = false) ∧ (12 ≤ j → c2.getLsbD (j - 12) = false) ∧
        (16 ≤ j → width.getLsbD (j - 16) = false)) :
    cmdWord o c c2 width &&& o.mask = o.matchWord := by
  refine BitVec.eq_of_getLsbD_eq fun j hj => ?_
  rw [BitVec.getLsbD_and, getLsbD_cmdWord o c c2 width j hj, Opcode.matchWord, BitVec.getLsbD_setWidth]
  simp only [hj, decide_true, Bool.true_and]
  by_cases hm : o.mask.getLsbD j = true
  · obtain ⟨a, b, d⟩ := h j hj hm
    rw [hm, Bool.and_true]
    by_cases h1 : j < 8 <;> by_cases h2 : j < 12 <;> by_cases h3 : j < 16 <;> simp_all
  · have h8 : 8 ≤ j := Nat.le_of_not_lt fun hlt => hm (opcode_bits_fixed o j hlt)
    simp [hm, BitVec.getLsbD_of_ge o.code j h8]

theorem of_cmdWord (i : Instr) (c c2 : Ctx) (width : Width) (hcw : (encode i).cw = cmdWord i.opcode c c2 width)
    (h : ∀ j, j < 32 → i.opcode.mask.getLsbD j = true →
      (8 ≤ j → c.getLsbD (j - 8) = false) ∧ (12 ≤ j → c2.getLsbD (j - 12) = false) ∧
        (16 ≤ j → width.getLsbD (j - 16) = false)) : Statement i :=
  ⟨by rw [hcw, opField_cmdWord, ofCode_code], by rw [hcw]; exact mask_cmdWord _ c c2 width h⟩

/-- The fixed bits of a row that uses `ctx` only. -/
theorem ctx_row : ∀ j, j < 32 → (0xFFFFF0FF : CmdWord).getLsbD j = true → j < 8 ∨ 12 ≤ j := by decide

/-- The fixed bits of a row that uses `ctx` and `width`. -/
theorem width_row : ∀ j, j < 32 → (0xFF80F0FF : CmdWord).getLsbD j = true → j < 8 ∨ 12 ≤ j ∧ j < 16 ∨ 23 ≤ j := by decide

/-- The fixed bits of the row that uses `ctx` and `ctx2`. -/
theorem ctx2_row : ∀ j, j < 32 → (0xFFFF00FF : CmdWord).getLsbD j = true → j < 8 ∨ 16 ≤ j := by decide

theorem of_ctx_row (i : Instr) (c : Ctx) (hcw : (encode i).cw = cmdWord i.opcode c 0 0)
    (hm : i.opcode.mask = 0xFFFFF0FF) : Statement i :=
  of_cmdWord i c 0 0 hcw fun j hj h => by
    rw [hm] at h
    have := ctx_row j hj h
    exact ⟨fun _ => BitVec.getLsbD_of_ge _ _ (by omega), fun _ => BitVec.getLsbD_zero, fun _ => BitVec.getLsbD_zero⟩

theorem of_width_row (i : Instr) (c : Ctx) (width : Width) (hcw : (encode i).cw = cmdWord i.opcode c 0 width)
    (hm : i.opcode.mask = 0xFF80F0FF) : Statement i :=
  of_cmdWord i c 0 width hcw fun j hj h => by
    rw [hm] at h
    have := width_row j hj h
    exact ⟨fun _ => BitVec.getLsbD_of_ge _ _ (by omega), fun _ => BitVec.getLsbD_zero,
      fun _ => BitVec.getLsbD_of_ge _ _ (by omega)⟩

theorem wOpen (w : Ctx) : Statement (.wOpen w) := of_ctx_row _ w rfl rfl
theorem wBits (w : Ctx) (width : Width) (value : Word) : Statement (.wBits w width value) := of_width_row _ w width rfl rfl
theorem wAppend (w v : Ctx) : Statement (.wAppend w v) :=
  of_cmdWord _ w v 0 rfl fun j hj h => by
    have := ctx2_row j hj h
    exact ⟨fun _ => BitVec.getLsbD_of_ge _ _ (by omega), fun _ => BitVec.getLsbD_of_ge _ _ (by omega),
      fun _ => BitVec.getLsbD_zero⟩
theorem wFinish (w : Ctx) : Statement (.wFinish w) := of_ctx_row _ w rfl rfl
theorem wArray (w : Ctx) (width : Width) (elems : List Word) : Statement (.wArray w width elems) :=
  of_width_row _ w width rfl rfl
theorem wByte (w : Ctx) (index : Word) : Statement (.wByte w index) := of_ctx_row _ w rfl rfl
theorem rOpen (r : Ctx) (nbytes total : Word) (src : List Byte) : Statement (.rOpen r nbytes total src) :=
  of_ctx_row _ r rfl rfl
theorem rOpenB (r : Ctx) (nbytes : Word) (src : List Byte) : Statement (.rOpenB r nbytes src) := of_ctx_row _ r rfl rfl
theorem rBits (r : Ctx) (width : Width) : Statement (.rBits r width) := of_width_row _ r width rfl rfl
theorem rPeek (r : Ctx) (width : Width) : Statement (.rPeek r width) := of_width_row _ r width rfl rfl
theorem rRemain (r : Ctx) : Statement (.rRemain r) := of_ctx_row _ r rfl rfl
theorem rArray (r : Ctx) (width : Width) (n : Word) : Statement (.rArray r width n) := of_width_row _ r width rfl rfl
theorem rClose (r : Ctx) : Statement (.rClose r) := of_ctx_row _ r rfl rfl

end Sys2Proof.Laws.EncodedRow
end

