-- ==== Sys2Proof/Tests/Slice0.lean ====
section
/-! SUPPORT. The model's own tests: ill-formed operands refused, command words of the spec's worked examples decoded, single
commands against the worked vectors of 95_test_vectors and the examples of the rules, and for every statement with
hypotheses a state and operands that meet them. -/

namespace Sys2Proof.Tests

open Sys2Proof Sys2Proof.Machine

/-! ### Small states -/

/-- A writer that holds the given bytes. -/
def wr (st : WriterState) (cur : Nat) (bytes : List Byte) : Writer :=
  { st := st, cur := BitVec.ofNat 64 cur, store := Memory.ofBytes bytes, alloc := cdiv8 cur }

/-- A reader bound to the given bytes. -/
def rd (st : ReaderState) (cur total : Nat) (bytes : List Byte) : Reader :=
  { st := st, cur := BitVec.ofNat 64 cur, total := BitVec.ofNat 64 total, nbytes := BitVec.ofNat 64 bytes.length
    src := Memory.ofBytes bytes }

/-- A block of three writers and three readers, after reset. -/
def idle : State := State.resetWith { nw := 3, nr := 3, wcap := 16, rcap := 16 } true true

/-- Writers 0 and 1 `OPEN`, writer 2 `DONE`; reader 0 `OPEN`, reader 1 `POISONED`, reader 2 `IDLE`. The contents are those of
41_writer_ops R143 and 42_reader_ops R164. -/
def busy : State :=
  ((((idle.setWriter 0 (wr .opened 3 [0x05])).setWriter 1 (wr .opened 12 [0xBC, 0x0A])).setWriter 2
    (wr .done 9 [0x0B, 0x00])).setReader 0 (rd .opened 1 9 [0x0B, 0x00])).setReader 1 (rd .poisoned 3 3 [0x05])

/-- A halted block. -/
def halted : State := { busy with fatal := true }

/-- A block whose writer 0 is exactly full and whose writer 1 holds one bit (`WCAP = 2`). -/
def full : State :=
  ((State.resetWith { nw := 2, nr := 1, wcap := 2, rcap := 2 } true true).setWriter 0 (wr .opened 16 [0xFF, 0xFF])).setWriter 1
    (wr .opened 1 [0x01])

/-- Writer 0 of an otherwise idle block. -/
def withWriter (x : Writer) : State := idle.setWriter 0 x

/-- Reader 0 of an otherwise idle block. -/
def withReader (x : Reader) : State := idle.setReader 0 x

/-- What a command answers; none where it stops. -/
def response : Result → Option Response
  | .next t => t.resp
  | .fault _ => none
  | .refused _ => none

/-- The status a command answers; none where it stops. -/
def status (o : Result) : Option Status := (response o).map fun a => a.status

/-- A writer after a command: lifecycle, cursor and used bytes; none where the command stops. -/
def writerAfter (w : Ctx) : Result → Option (WriterState × Nat × List Byte)
  | .next t => some ((t.writer w).st, (t.writer w).cur.toNat, outputBytes (t.writer w).store (cdiv8 (t.writer w).cur.toNat))
  | .fault _ => none
  | .refused _ => none

/-- A reader after a command: lifecycle and cursor; none where the command stops. -/
def readerAfter (r : Ctx) : Result → Option (ReaderState × Nat)
  | .next t => some ((t.reader r).st, (t.reader r).cur.toNat)
  | .fault _ => none
  | .refused _ => none

/-- The lifecycle of a reader after a command. -/
def readerStateAfter (r : Ctx) : Result → Option ReaderState
  | .next t => some (t.reader r).st
  | .fault _ => none
  | .refused _ => none

/-! ### Well-formedness: each check refuses an ill-formed command (30_encoding R97) -/

theorem test_wf_wBits_width_65 : (Instr.wBits 0 65 0).wf = false := by decide
theorem test_wf_wAppend_self : (Instr.wAppend 1 1).wf = false := by decide
theorem test_wf_wArray_width_0 : (Instr.wArray 0 0 []).wf = false := by decide
theorem test_wf_wArray_width_65 : (Instr.wArray 0 65 []).wf = false := by decide
theorem test_wf_wArray_count : (Instr.wArray 0 8 (List.replicate (2 ^ 64) 0)).wf = false := by
  simp only [Instr.wf, List.length_replicate, Nat.lt_irrefl, decide_false, Bool.and_false]
theorem test_wf_rOpen_source_length : (Instr.rOpen 0 2 8 [0xFF]).wf = false := by decide
theorem test_wf_rOpen_total : (Instr.rOpen 0 1 9 [0xFF]).wf = false := by decide
theorem test_wf_rOpenB_source_length : (Instr.rOpenB 0 2 [0xFF]).wf = false := by decide
theorem test_wf_rBits_width_127 : (Instr.rBits 0 127).wf = false := by decide
theorem test_wf_rPeek_width_65 : (Instr.rPeek 0 65).wf = false := by decide
theorem test_wf_rArray_width_0 : (Instr.rArray 0 0 0).wf = false := by decide
theorem test_wf_rArray_width_65 : (Instr.rArray 0 65 0).wf = false := by decide

/-! ### Decoding: words written out from the encodings of 41_writer_ops, 42_reader_ops, 43_fastpath_array -/

theorem test_decode_wOpen : decode ⟨0x00000010 ||| 2 <<< 8, [], none⟩ = .ok (.wOpen 2) := by decide
theorem test_decode_wBits : decode ⟨0b000000000_0001000_0000_0000_00010001, [5], none⟩ = .ok (.wBits 0 8 5) := by decide
theorem test_decode_wAppend : decode ⟨0b000000000_0000000_0001_0000_00010010, [], none⟩ = .ok (.wAppend 0 1) := by decide
theorem test_decode_wFinish : decode ⟨0x00000113, [], none⟩ = .ok (.wFinish 1) := by decide
theorem test_decode_wArray :
    decode ⟨0b000000000_0010000_0000_0000_00010100, [3, 0x1234, 0xABCD, 0x00FF], none⟩ =
      .ok (.wArray 0 16 [0x1234, 0xABCD, 0x00FF]) := by decide
theorem test_decode_wByte : decode ⟨0x00000015, [9], none⟩ = .ok (.wByte 0 9) := by decide
theorem test_decode_rOpen : decode ⟨0x00000020, [1, 3], some [0x05]⟩ = .ok (.rOpen 0 1 3 [0x05]) := by decide
theorem test_decode_rOpenB : decode ⟨0x00000121, [1], some [0x0B]⟩ = .ok (.rOpenB 1 1 [0x0B]) := by decide
theorem test_decode_rBits : decode ⟨0b000000000_0000001_0000_0000_00100010, [], none⟩ = .ok (.rBits 0 1) := by decide
theorem test_decode_rPeek : decode ⟨0x00400123, [], none⟩ = .ok (.rPeek 1 64) := by decide
theorem test_decode_rRemain : decode ⟨0x00000024, [], none⟩ = .ok (.rRemain 0) := by decide
theorem test_decode_rArray : decode ⟨0x00100025, [3], none⟩ = .ok (.rArray 0 16 3) := by decide
theorem test_decode_rClose : decode ⟨0x00000026, [], none⟩ = .ok (.rClose 0) := by decide
/-- 95_test_vectors 2.5. -/
theorem test_decode_reserved_bit_31 : decode ⟨0x80000010, [], none⟩ = .error .nonzeroUnusedField := by decide
/-- 95_test_vectors 2.5. -/
theorem test_decode_unassigned_27 : decode ⟨0x00000027, [], none⟩ = .error .unknownOpcode := by decide
/-- A table row's word reaches the decoder with its argument words in place. -/
theorem test_decode_table_word : decodeTableWord 96 (0x00080011 + 5 * 2 ^ 32) = some (.wBits 0 8 5) := by decide
theorem test_step_runs_the_placed_word :
    status (step (State.reset.withFetchWord 32 0x00000010)) = some .ok := by decide

/-! ### Reset and the invariant -/

theorem test_reset_inv : Inv State.reset := by decide
theorem test_reset_memory_canonical : (∀ w, (State.reset.writer w).store.wf = true) ∧ ∀ r, (State.reset.reader r).src.wf = true := by
  decide
theorem test_busy_inv : Inv busy := by decide
theorem test_full_inv : Inv full := by decide
/-- A bit above the cursor breaks the invariant. -/
theorem test_inv_refuses_a_high_bit : ¬Inv (withWriter (wr .opened 3 [0x0D])) := by decide
/-- `total` beyond the source breaks the invariant. -/
theorem test_inv_refuses_a_long_total : ¬Inv (withReader (rd .opened 0 9 [0xFF])) := by decide

/-! ### Cursor arithmetic (95_test_vectors 2.1) -/

theorem test_store_bits_nine_bytes :
    outputBytes (storeBits (Memory.ofBytes [0x05]) 3 64 0xFFFFFFFFFFFFFFFF) 9 =
      [0xFD, 0xFF, 0xFF, 0xFF, 0xFF, 0xFF, 0xFF, 0xFF, 0x07] := by decide
theorem test_store_bits_merges : outputBytes (storeBits (Memory.ofBytes [0xFF, 0x01]) 9 7 0x55) 2 = [0xFF, 0xAB] := by decide
theorem test_load_bits_nine_bytes :
    loadBits (Memory.ofBytes [0xEF, 0xCD, 0xAB, 0x89, 0x67, 0x45, 0x23, 0x01, 0xFF]) 1 64 = 0x8091A2B3C4D5E6F7 := by decide
theorem test_load_bits_inside :
    loadBits (Memory.ofBytes [0xEF, 0xCD, 0xAB, 0x89, 0x67, 0x45, 0x23, 0x01, 0xFF]) 5 13 = 0x1E6F := by decide
theorem test_copy_bits : outputBytes (copyBits (Memory.ofBytes [0x05]) 3 (Memory.ofBytes [0xBC, 0x0A]) 12) 2 = [0xE5, 0x55] := by
  decide
theorem test_span : span 7 64 = 9 ∧ span 1 63 = 8 ∧ span 3 0 = 0 ∧ span 4 5 = 2 := by decide

/-! ### Writer commands (95_test_vectors 2.2, 2.4, 2.6) -/

theorem test_wOpen_discards : writerAfter 2 (exec (.wOpen 2) busy) = some (.opened, 0, []) := by decide
theorem test_wOpen_context_number : response (exec (.wOpen 3) busy) = some (errorResponse .illegalCommand) := by decide
theorem test_wBits_crosses :
    writerAfter 0 (exec (.wBits 0 8 5) (withWriter (wr .opened 1 [0x01]))) = some (.opened, 9, [0x0B, 0x00]) := by decide
theorem test_wBits_exhausts :
    response (exec (.wBits 0 1 1) full) = some (errorResponse .fatal) ∧
      writerAfter 0 (exec (.wBits 0 1 1) full) = some (.opened, 16, [0xFF, 0xFF]) := by decide
theorem test_wAppend_unaligned :
    writerAfter 0 (exec (.wAppend 0 1) busy) = some (.opened, 15, [0xE5, 0x55]) ∧
      (writerAfter 1 (exec (.wAppend 0 1) busy)).map (fun x => x.1) = some .idle := by decide
theorem test_wAppend_done_source : response (exec (.wAppend 0 2) busy) = some (errorResponse .illegalState) := by decide
theorem test_wFinish :
    response (exec (.wFinish 0) busy) = some (okResponse 3) ∧
      writerAfter 0 (exec (.wFinish 0) busy) = some (.done, 3, [0x05]) := by decide
theorem test_wFinish_once : response (exec (.wFinish 2) busy) = some (errorResponse .illegalState) := by decide
theorem test_wArray_unaligned :
    writerAfter 0 (exec (.wArray 0 16 [0x1234, 0xABCD, 0x00FF]) (withWriter (wr .opened 1 [0x01]))) =
      some (.opened, 49, [0x69, 0x24, 0x9A, 0x57, 0xFF, 0x01, 0x00]) := by decide
theorem test_wArray_high_bits_ignored :
    writerAfter 0 (exec (.wArray 0 3 [5, 2, 7, 0, 0xFF]) (withWriter (wr .opened 0 []))) =
      some (.opened, 15, [0xD5, 0x71]) := by decide
theorem test_wByte : response (exec (.wByte 2 0) busy) = some (okResponse 0x0B) := by decide
theorem test_wByte_outside : response (exec (.wByte 2 2) busy) = some (errorResponse .illegalCommand) := by decide

/-! ### Reader commands (95_test_vectors 2.3, 2.4, 2.6) -/

theorem test_rOpen_heals :
    response (exec (.rOpen 1 1 8 [0xA5]) busy) = some (okResponse 8) ∧
      readerAfter 1 (exec (.rOpen 1 1 8 [0xA5]) busy) = some (.opened, 0) := by decide
theorem test_rOpen_total_too_long : response (exec (.rOpen 0 1 9 [0xFF]) busy) = some (errorResponse .illegalCommand) := by decide
theorem test_rOpenB : response (exec (.rOpenB 0 2 [0x0B, 0x00]) idle) = some (okResponse 16) := by decide
theorem test_rOpenB_capacity : response (exec (.rOpenB 0 3 [1, 2, 3]) full) = some (errorResponse .illegalCommand) := by decide
theorem test_rBits :
    response (exec (.rBits 0 8) busy) = some (okResponse 5) ∧ readerAfter 0 (exec (.rBits 0 8) busy) = some (.opened, 9) := by
  decide
theorem test_rBits_poisoned_width_0 : response (exec (.rBits 1 0) busy) = some (errorResponse .poisoned) := by decide
theorem test_rPeek :
    response (exec (.rPeek 0 4) (withReader (rd .opened 0 16 [0x0B, 0x00]))) = some (okResponse 0xB) ∧
      readerAfter 0 (exec (.rPeek 0 4) (withReader (rd .opened 0 16 [0x0B, 0x00]))) = some (.opened, 0) := by decide
theorem test_rPeek_past_the_end_poisons :
    response (exec (.rPeek 0 17) (withReader (rd .opened 0 16 [0x0B, 0x00]))) = some (errorResponse .truncated) ∧
      readerStateAfter 0 (exec (.rPeek 0 17) (withReader (rd .opened 0 16 [0x0B, 0x00]))) = some .poisoned := by decide
theorem test_rRemain : response (exec (.rRemain 0) (withReader (rd .opened 9 16 [0x0B, 0x00]))) = some (okResponse 7) := by decide
theorem test_rRemain_idle : response (exec (.rRemain 2) busy) = some (errorResponse .illegalState) := by decide
theorem test_rArray :
    response (exec (.rArray 0 16 3) (withReader (rd .opened 0 48 [0x34, 0x12, 0xCD, 0xAB, 0xFF, 0x00]))) =
      some { status := .ok, r0 := 3, elems := [0x1234, 0xABCD, 0x00FF] } := by decide
theorem test_rArray_exact_product : status (exec (.rArray 0 64 0xFFFFFFFFFFFFFFFF) busy) = some .truncated := by decide
theorem test_rClose :
    response (exec (.rClose 0) (withReader (rd .opened 9 16 [0x0B, 0x00]))) = some (okResponse 7) ∧
      readerStateAfter 0 (exec (.rClose 0) busy) = some .idle := by decide
theorem test_rClose_poisoned : response (exec (.rClose 1) busy) = some (okResponse 0) := by decide

/-! ### Client codecs (95_test_vectors 2.7) -/

theorem test_uvar_fields_5 : Client.uvarFields 5 = [(4, 7), (2, 1)] := by decide
theorem test_uvar_fields_2_63 : Client.uvarFields (2 ^ 63) = [(64, 2 ^ 64 - 1), (1, 0), (63, 0)] := by decide
theorem test_bw : Client.bw 1 = some 0 ∧ Client.bw 5 = some 3 ∧ Client.bw 257 = some 9 ∧ Client.bw (2 ^ 64) = some 64 := by decide
theorem test_zigzag : Client.zigzag (-3) = 5 ∧ Client.zigzag 2 = 4 ∧ Client.zigzag (-2 ^ 63) = 2 ^ 64 - 1 := by decide
theorem test_text : Client.textOk [0xC3, 0xA9] = true ∧ Client.textOk [0xED, 0xA0, 0x80] = false := by decide

/-- What a client sequence delivers; none where it ends in an error. -/
def delivered {α : Type} : Client.Outcome α → Option α
  | .value a _ => some a
  | .error _ _ => none
  | .stopped => none

/-- The error a client sequence ends with and the lifecycle it leaves reader `r` in. -/
def failure {α : Type} (r : Ctx) : Client.Outcome α → Option (Status × ReaderState)
  | .value _ _ => none
  | .error e t => some (e, (t.reader r).st)
  | .stopped => none

/-- The struct `{bool, u8, Option<u16>, enum of 3}` of 95_test_vectors 2.7. -/
def sample : Client.Format (Bool × Nat × Option Nat × ((_ : Fin 3) × Unit)) :=
  Client.fieldFormat Client.boolPrimitive.format (Client.fieldFormat (Client.unsignedPrimitive 8).format
    (Client.fieldFormat (Client.optionFormat (Client.unsignedPrimitive 16).format) (Client.enumFormat fun _ => Client.unitFormat)))

/-- The value of that vector: `{true, 0x80, Some(0x1234), tag 2}`. -/
def sampleValue : Bool × Nat × Option Nat × ((_ : Fin 3) × Unit) := (true, 0x80, some 0x1234, ⟨2, ()⟩)

theorem test_struct_encodes :
    delivered (Client.encodeTop 0 (sample.enc 0 sampleValue) idle) = some ([0x01, 0xD3, 0x48, 0x08], 28) := by decide
theorem test_struct_decodes :
    ∃ t, Client.decodeTop 1 [0x01, 0xD3, 0x48, 0x08] 28 (sample.dec 1) idle = .value (sampleValue, 0) t := ⟨_, rfl⟩
/-- Program P3 of 95_test_vectors: `{flag: true, items: [0x1234, 0xABCD], kind: 4 of 5}`, the items built in writer 1. -/
def joinedFields (C : Client.Contract) : List Client.FieldCode :=
  [Client.boolPrimitive.format.field none true,
    (Client.seqArrayFormat C (Client.unsignedPrimitive 16) true true).field (some 1) [0x1234, 0xABCD],
    (Client.enumFormat fun _ : Fin 5 => Client.unitFormat).field none ⟨4, ()⟩]

theorem test_struct_joined :
    delivered (Client.encodeTop 0 (Client.encStructJoined 0 (joinedFields Client.specContract)) idle) =
      some ([0x87, 0x46, 0xA2, 0x79, 0x95], 40) := by decide +kernel
theorem test_joined_decodes :
    delivered (Client.decodeTop 0 [0x87, 0x46, 0xA2, 0x79, 0x95] 40 (Client.decStruct (Client.decBool 0)
      (Client.decStruct (Client.decSeqArray Client.specContract 0 (Client.unsignedPrimitive 16)) (Client.decTag 0 5))) idle) =
      some ((true, [0x1234, 0xABCD], 4), 0) := by decide +kernel
/-- The two forms of a string payload give the bits of the vector. -/
theorem test_string_forms :
    delivered (Client.encodeTop 0 (Client.encStr Client.specVarLen 0 [0x68, 0x69]) idle) = some ([0x83, 0x96, 0x06], 20) ∧
      delivered (Client.encodeTop 0 (Client.encStrArray Client.specVarLen 0 [0x68, 0x69]) idle) =
        some ([0x83, 0x96, 0x06], 20) := by decide
theorem test_string_decodes_by_array :
    delivered (Client.decodeTop 1 [0x83, 0x96, 0x06] 20 (Client.decStrArray Client.specContract 1) idle) =
      some ([0x68, 0x69], 0) := by decide
/-- A 65th one-bit: the client's error, after which it closes the reader the block left `OPEN` (R218). -/
theorem test_malformed_prefix_is_closed :
    failure 0 (Client.decUvar Client.specVarLen 0 (withReader (rd .opened 0 72 (List.replicate 9 0xFF)))) =
        some (.invalidData, .opened) ∧
      failure 0 (Client.decodeTopB 0 (List.replicate 9 0xFF) (Client.decUvar Client.specVarLen 0) idle) =
        some (.invalidData, .idle) := by decide +kernel
/-- The hostile length of 95_test_vectors 2.7: `ENC_LEN(2^40)` with nothing after it. -/
def hostileLength : List Byte := [0xFF, 0xFF, 0xFF, 0xFF, 0xFF, 0x01, 0x00, 0x00, 0x00, 0x00, 0x00]
theorem test_hostile_length_reserves_nothing :
    delivered (Client.decodeTop 0 hostileLength 82 (Client.decCount Client.specContract 0 8) idle) =
      some ((2 ^ 40, 0), 0) := by decide +kernel
theorem test_hostile_length_is_truncated :
    failure 0 (Client.decodeTop 0 hostileLength 82 (Client.decBytes Client.specContract 0) idle) = some (.truncated, .idle) := by
  decide +kernel

/-! ### States and operands that meet the hypotheses of every statement that has some -/

/-- A packet in front of an empty host stream. -/
def sent (s : State) (p : Packet) : State := { s with input := [.command p] }

/-- The packet of `R_REMAIN r0`. -/
def remainPacket : Packet := ⟨0x00000024, [], none⟩

theorem witness_EncodeThenDecodeGivesTheCommand :
    ∀ w width elems, Instr.wArray 15 127 [1, 2] = .wArray w width elems → elems.length < 2 ^ 64 := by
  rintro w width elems ⟨⟩; decide

theorem witness_NoBitOfAPacketIsIgnored : decode ⟨0x007FFF11 &&& 0xFFFF0FFF, [5], none⟩ = .ok (.wBits 15 127 5) := by decide

theorem witness_StepTakesTheNextEvent :
    (sent busy remainPacket).input = [.command remainPacket] ∧ decode remainPacket = .ok (.rRemain 0) ∧ busy.input = [] := by
  decide

theorem witness_UndecodablePacketIsAnswered :
    (sent busy ⟨0xFFFFFFFF, [], none⟩).input = [.command ⟨0xFFFFFFFF, [], none⟩] ∧
      decode ⟨0xFFFFFFFF, [], none⟩ = .error .unknownOpcode ∧ (sent busy ⟨0xFFFFFFFF, [], none⟩).fatal = false ∧
      (sent halted ⟨0xFFFFFFFF, [], none⟩).fatal = true := by decide

theorem witness_ResetEventResetsTheBlock :
    ({ halted with input := [.reset false true] } : State).input = [.reset false true] := by decide

theorem witness_ResetStateIsIdleAndGood :
    Params.wf { nw := 16, nr := 1, wcap := 2 ^ 61 - 1, rcap := 1 } = true ∧ defaultParams.wf = true := by decide

theorem witness_EveryStepKeepsTheInvariant :
    Inv (sent busy (encode (.wAppend 0 1))) ∧ ∃ t, step (sent busy (encode (.wAppend 0 1))) = .next t :=
  ⟨by decide, _, rfl⟩

/-- A reachable state with writer 0 and reader 0 `OPEN`. -/
theorem witness_EveryReachableStateIsGood :
    ∃ s, Reachable s ∧ (s.writer 0).st ≠ .idle ∧ (s.reader 0).st ≠ .idle :=
  ⟨_, .step (.step (.reset { nw := 3, nr := 3, wcap := 16, rcap := 16 } true true
    [.command (encode (.wOpen 0)), .command (encode (.rOpenB 0 1 [0xFF]))] (by decide)) rfl) rfl, by decide, by decide⟩

theorem witness_EveryPacketIsAnswered :
    Inv (sent busy remainPacket) ∧ (sent busy remainPacket).input = [.command remainPacket] := by decide

theorem witness_WriterInvariantsHold :
    (∃ s, Reachable s ∧ (s.writer 0).st ≠ .idle) ∧
      Inv busy ∧ (busy.writer 0).st ≠ .idle ∧ (busy.writer 2).st ≠ .idle ∧ Instr.wAppend 0 1 ≠ .wOpen 0 ∧
      (∃ t, exec (.wAppend 0 1) busy = .next t ∧ (t.writer 0).st = .opened) ∧
      ∃ t, exec (.wByte 2 1) busy = .next t ∧ (t.writer 2).st ≠ .idle := by
  obtain ⟨s, h, hw, _⟩ := witness_EveryReachableStateIsGood
  exact ⟨⟨s, h, hw⟩, by decide, by decide, by decide, by decide, ⟨_, rfl, by decide⟩, _, rfl, by decide⟩

theorem witness_ReaderInvariantsHold :
    (∃ s, Reachable s ∧ (s.reader 0).st ≠ .idle) ∧ Inv busy ∧ (busy.reader 0).st ≠ .idle ∧
      (∀ nbytes total src, Instr.rBits 0 8 ≠ .rOpen 0 nbytes total src) ∧ (∀ nbytes src, Instr.rBits 0 8 ≠ .rOpenB 0 nbytes src) ∧
      Instr.rBits 0 8 ≠ .rClose 0 ∧ ∃ t, exec (.rBits 0 8) busy = .next t ∧ (t.reader 0).st = .opened := by
  obtain ⟨s, h, _, hr⟩ := witness_EveryReachableStateIsGood
  exact ⟨⟨s, h, hr⟩, by decide, by decide, by simp, by simp, by decide, _, rfl, by decide⟩

/-- One operand just out of range for every command and every clause of `OutOfRange` (`NW = NR = 3`, `RCAP = 16`). -/
theorem witness_OutOfRangeOperandsAreIllegal :
    busy.fatal = false ∧ OutOfRange busy.params (.wOpen 3) ∧ OutOfRange busy.params (.wBits 3 0 0) ∧
      OutOfRange busy.params (.wBits 0 65 0) ∧ OutOfRange busy.params (.wAppend 3 0) ∧ OutOfRange busy.params (.wAppend 0 3) ∧
      OutOfRange busy.params (.wAppend 0 0) ∧ OutOfRange busy.params (.wFinish 3) ∧ OutOfRange busy.params (.wArray 3 1 []) ∧
      OutOfRange busy.params (.wArray 0 0 []) ∧ OutOfRange busy.params (.wArray 0 65 []) ∧ OutOfRange busy.params (.wByte 3 0) ∧
      OutOfRange busy.params (.rOpen 3 0 0 []) ∧ OutOfRange busy.params (.rOpen 0 17 0 (List.replicate 17 0)) ∧
      OutOfRange busy.params (.rOpen 0 1 9 [0]) ∧ OutOfRange busy.params (.rOpen 0 1 8 []) ∧
      OutOfRange busy.params (.rOpenB 3 0 []) ∧ OutOfRange busy.params (.rOpenB 0 17 (List.replicate 17 0)) ∧
      OutOfRange busy.params (.rOpenB 0 1 []) ∧ OutOfRange busy.params (.rBits 3 0) ∧ OutOfRange busy.params (.rBits 0 65) ∧
      OutOfRange busy.params (.rPeek 3 0) ∧ OutOfRange busy.params (.rPeek 0 127) ∧ OutOfRange busy.params (.rRemain 3) ∧
      OutOfRange busy.params (.rArray 3 1 0) ∧ OutOfRange busy.params (.rArray 0 0 0) ∧ OutOfRange busy.params (.rArray 0 65 0) ∧
      OutOfRange busy.params (.rClose 15) := by
  simp only [OutOfRange]
  and_intros <;> decide

theorem witness_WrongLifecycleStateIsRefused :
    busy.fatal = false ∧ (busy.writer 2).st ≠ .opened ∧ busy.legal (.wBits 2 0 0) = true ∧ busy.legal (.wArray 2 1 []) = true ∧
      busy.legal (.wFinish 2) = true ∧ busy.legal (.wAppend 2 0) = true ∧ busy.legal (.wAppend 0 2) = true ∧
      busy.legal (.wByte 0 0) = true ∧ (busy.writer 0).st ≠ .done ∧ (busy.reader 2).st = .idle ∧
      busy.legal (.rBits 2 0) = true ∧ busy.legal (.rPeek 2 64) = true ∧ busy.legal (.rArray 2 1 0) = true ∧
      busy.legal (.rRemain 2) = true ∧ busy.legal (.rClose 2) = true ∧
      (∃ t a, exec (.wOpen 2) busy = .next t ∧ t.resp = some a) ∧
      (∃ t a, exec (.rOpen 1 1 8 [0xA5]) busy = .next t ∧ t.resp = some a) ∧
      ∃ t a, exec (.rOpenB 3 0 []) busy = .next t ∧ t.resp = some a :=
  ⟨by decide, by decide, by decide, by decide, by decide, by decide, by decide, by decide, by decide, by decide, by decide,
    by decide, by decide, by decide, by decide, ⟨_, _, rfl, rfl⟩, ⟨_, _, rfl, rfl⟩, _, _, rfl, rfl⟩

theorem witness_PoisonedReaderRefusesReads :
    busy.fatal = false ∧ (busy.reader 1).st = .poisoned ∧ busy.legal (.rBits 1 0) = true ∧ busy.legal (.rPeek 1 64) = true ∧
      busy.legal (.rArray 1 1 0) = true ∧ busy.legal (.rRemain 1) = true ∧
      (∃ t, step (sent busy (encode (.rClose 1))) = .next t ∧ (t.reader 1).st ≠ .poisoned) ∧
      ∃ t, step { busy with input := [.reset true true] } = .next t ∧ (t.reader 1).st ≠ .poisoned :=
  ⟨by decide, by decide, by decide, by decide, by decide, by decide, ⟨_, rfl, by decide⟩, _, rfl, by decide⟩

/-- One bit more than remains (8 remain), for each of the three reads; and reads of nothing. -/
theorem witness_ReadPastTheEndPoisons :
    busy.fatal = false ∧ (busy.reader 0).st = .opened ∧ busy.legal (.rBits 0 9) = true ∧ busy.legal (.rPeek 0 9) = true ∧
      busy.legal (.rArray 0 3 3) = true ∧
      (busy.reader 0).total.toNat < (busy.reader 0).cur.toNat + (9 : Width).toNat ∧
      (busy.reader 0).total.toNat < (busy.reader 0).cur.toNat + (3 : Word).toNat * (3 : Width).toNat ∧ Inv busy ∧
      (∃ t a, exec (.rBits 0 0) busy = .next t ∧ t.resp = some a) ∧ (∃ t a, exec (.rPeek 0 0) busy = .next t ∧ t.resp = some a) ∧
      ∃ t a, exec (.rArray 0 64 0) busy = .next t ∧ t.resp = some a :=
  ⟨by decide, by decide, by decide, by decide, by decide, by decide, by decide, by decide, ⟨_, _, rfl, rfl⟩, ⟨_, _, rfl, rfl⟩,
    _, _, rfl, rfl⟩

/-- One bit more than fits, for each of the three writes; and a halted block. -/
theorem witness_ExhaustionHaltsTheBlock :
    full.fatal = false ∧ (full.writer 0).st = .opened ∧ (full.writer 1).st = .opened ∧ full.legal (.wBits 0 1 1) = true ∧
      full.legal (.wAppend 0 1) = true ∧ full.legal (.wArray 0 1 [1]) = true ∧
      full.params.wcap < cdiv8 ((full.writer 0).cur.toNat + (1 : Width).toNat) ∧
      full.params.wcap < cdiv8 ((full.writer 0).cur.toNat + (full.writer 1).cur.toNat) ∧
      full.params.wcap < cdiv8 ((full.writer 0).cur.toNat + [(1 : Word)].length * (1 : Width).toNat) ∧ halted.fatal = true ∧
      (sent halted ⟨0, [], none⟩).input = [.command ⟨0, [], none⟩] ∧
      (∃ t, step { halted with input := [.reset true true] } = .next t ∧ t.fatal = false) ∧ FaultState (sent halted remainPacket) ∧
      (∀ f h, HostEvent.reset f h ∉ (sent halted remainPacket).input) ∧
      ∃ t, Steps (sent halted remainPacket) t ∧ t ≠ sent halted remainPacket :=
  ⟨by decide, by decide, by decide, by decide, by decide, by decide, by decide, by decide, by decide, by decide, by decide,
    ⟨_, rfl, by decide⟩, by decide, by simp [sent], _, .step .none rfl, by decide⟩

/-- One command for each of the five exceptions of the block. -/
theorem witness_ExceptionsChangeOnlyWhatTheTableSays :
    (∃ t a, exec (.wOpen 3) busy = .next t ∧ t.resp = some a ∧ a.status = .illegalCommand) ∧
      (∃ t a, exec (.wFinish 2) busy = .next t ∧ t.resp = some a ∧ a.status = .illegalState) ∧
      (∃ t a, exec (.rRemain 1) busy = .next t ∧ t.resp = some a ∧ a.status = .poisoned) ∧
      (∃ t a, exec (.wBits 0 1 1) full = .next t ∧ t.resp = some a ∧ a.status = .fatal) ∧
      ∃ t a, exec (.rBits 0 9) busy = .next t ∧ t.resp = some a ∧ a.status = .truncated :=
  ⟨⟨_, _, rfl, rfl, rfl⟩, ⟨_, _, rfl, rfl, rfl⟩, ⟨_, _, rfl, rfl, rfl⟩, ⟨_, _, rfl, rfl, rfl⟩, _, _, rfl, rfl, rfl⟩

theorem witness_OpenWriterIsEmpty : busy.fatal = false ∧ (2 : Ctx).toNat < busy.params.nw := by decide

theorem witness_WriteBitsAppendsTheValue :
    Inv full ∧ full.fatal = false ∧ (1 : Ctx).toNat < full.params.nw ∧ (15 : Width).toNat ≤ 64 ∧ (full.writer 1).st = .opened ∧
      cdiv8 ((full.writer 1).cur.toNat + (15 : Width).toNat) ≤ full.params.wcap := by decide

theorem witness_AppendConcatenatesTheSource :
    Inv busy ∧ busy.fatal = false ∧ (0 : Ctx).toNat < busy.params.nw ∧ (1 : Ctx).toNat < busy.params.nw ∧ (0 : Ctx) ≠ 1 ∧
      (busy.writer 0).st = .opened ∧ (busy.writer 1).st = .opened ∧
      cdiv8 ((busy.writer 0).cur.toNat + (busy.writer 1).cur.toNat) ≤ busy.params.wcap := by decide

theorem witness_FinishFixesThePaddedOutput :
    Inv busy ∧ busy.fatal = false ∧ (0 : Ctx).toNat < busy.params.nw ∧ (busy.writer 0).st = .opened := by decide

/-- The last byte of the output, and the first index after it. -/
theorem witness_ByteReadsTheOutput :
    Inv busy ∧ busy.fatal = false ∧ (2 : Ctx).toNat < busy.params.nw ∧ (busy.writer 2).st = .done ∧
      (1 : Word).toNat < cdiv8 (busy.writer 2).cur.toNat ∧ cdiv8 (busy.writer 2).cur.toNat ≤ (2 : Word).toNat := by decide

theorem witness_ArrayWriteAppendsTheElements :
    Inv busy ∧ busy.fatal = false ∧ (0 : Ctx).toNat < busy.params.nw ∧ 1 ≤ (24 : Width).toNat ∧ (24 : Width).toNat ≤ 64 ∧
      [(0xABCDEF : Word), 0x123456].length < 2 ^ 64 ∧ (busy.writer 0).st = .opened ∧
      cdiv8 ((busy.writer 0).cur.toNat + [(0xABCDEF : Word), 0x123456].length * (24 : Width).toNat) ≤ busy.params.wcap := by decide

theorem witness_OpenReaderBindsTheSource :
    busy.fatal = false ∧ (1 : Ctx).toNat < busy.params.nr ∧ (1 : Word).toNat ≤ busy.params.rcap ∧
      [(0xA5 : Byte)].length = (1 : Word).toNat ∧ (8 : Word).toNat ≤ 8 * (1 : Word).toNat := by decide

theorem witness_OpenWholeBytesIsOpen :
    Inv busy ∧ busy.fatal = false ∧ (2 : Ctx).toNat < busy.params.nr ∧ (2 : Word).toNat ≤ busy.params.rcap ∧
      [(0x0B : Byte), 0x00].length = (2 : Word).toNat := by decide

/-- The whole rest of the source. -/
theorem witness_ReadAndPeekReturnTheField :
    Inv busy ∧ busy.fatal = false ∧ (0 : Ctx).toNat < busy.params.nr ∧ (8 : Width).toNat ≤ 64 ∧ (busy.reader 0).st = .opened ∧
      (busy.reader 0).cur.toNat + (8 : Width).toNat ≤ (busy.reader 0).total.toNat := by decide

theorem witness_RemainCountsTheReadableBits :
    Inv busy ∧ busy.fatal = false ∧ (0 : Ctx).toNat < busy.params.nr ∧ (busy.reader 0).st = .opened ∧ (64 : Width).toNat ≤ 64 := by
  decide

theorem witness_ArrayReadReturnsTheElements :
    Inv busy ∧ busy.fatal = false ∧ (0 : Ctx).toNat < busy.params.nr ∧ 1 ≤ (4 : Width).toNat ∧ (4 : Width).toNat ≤ 64 ∧
      (busy.reader 0).st = .opened ∧
      (busy.reader 0).cur.toNat + (2 : Word).toNat * (4 : Width).toNat ≤ (busy.reader 0).total.toNat := by decide

theorem witness_CloseReportsTheUnreadBits :
    Inv busy ∧ busy.fatal = false ∧ (0 : Ctx).toNat < busy.params.nr ∧ (busy.reader 0).st = .opened ∧
      (1 : Ctx).toNat < busy.params.nr ∧ (busy.reader 1).st = .poisoned := by decide

/-- One command for each clause about stored bytes; the addresses next to the bytes stored to (bytes 0 and 1). -/
theorem witness_WriterCommandsFrame :
    Instr.readersNamed (.wBits 0 8 5) = [] ∧ (∃ t, exec (.wBits 0 8 5) busy = .next t) ∧
      (∃ t, exec (.wArray 0 4 [1, 2]) busy = .next t) ∧ (∃ t, exec (.wAppend 0 1) busy = .next t) ∧
      (∃ t, exec (.wFinish 0) busy = .next t) ∧ (∃ t, exec (.wByte 2 0) busy = .next t) ∧
      (split (busy.writer 0).cur.toNat).1 + span (split (busy.writer 0).cur.toNat).2 (8 : Width).toNat ≤ 2 ∧
      0 < (split (busy.writer 1).cur.toNat).1 :=
  ⟨by decide, ⟨_, rfl⟩, ⟨_, rfl⟩, ⟨_, rfl⟩, ⟨_, rfl⟩, ⟨_, rfl⟩, by decide, by decide⟩

theorem witness_ReaderCommandsFrame :
    Instr.readersNamed (.rBits 0 9) = [0] ∧ (∃ t, exec (.rBits 0 9) busy = .next t) ∧ (∃ t, exec (.rBits 0 8) busy = .next t) ∧
      ∃ t, exec (.rOpen 1 1 8 [0xA5]) busy = .next t :=
  ⟨by decide, ⟨_, rfl⟩, ⟨_, rfl⟩, _, rfl⟩

theorem witness_CursorFunctionsAreExact : 2 ^ 64 - 1 < 2 ^ 64 ∧ 7 ≤ 7 ∧ 1 ≤ 64 ∧ 64 ≤ 64 ∧ 65 ≤ 1 + 64 := by decide

/-- A canonical store with nothing at or above the cursor, said of its stream bits. -/
theorem nothing_above_nine : ∀ k, 9 ≤ k → streamBit (Memory.ofBytes [0xFF, 0x01]) k = false :=
  (highBitsClear_iff (by decide) 9).mp (by decide)

/-- The same at a byte boundary. -/
theorem nothing_above_eight : ∀ k, 8 * 1 ≤ k → streamBit (Memory.ofBytes [0xFF]) k = false :=
  (highBitsClear_iff (by decide) 8).mp (by decide)

theorem witness_StoreBitsPlacesTheValue :
    (Memory.ofBytes [0xFF, 0x01]).wf = true ∧ 64 ≤ 64 ∧ ∀ k, 9 ≤ k → streamBit (Memory.ofBytes [0xFF, 0x01]) k = false :=
  ⟨by decide, by decide, nothing_above_nine⟩

theorem witness_LoadBitsReadsTheField : 64 ≤ 64 := by decide

theorem witness_IntegerViewOfAStore :
    (Memory.ofBytes [0xFF, 0x01]).wf = true ∧ 64 ≤ 64 ∧ ∀ k, 9 ≤ k → streamBit (Memory.ofBytes [0xFF, 0x01]) k = false :=
  ⟨by decide, by decide, nothing_above_nine⟩

/-- 20_memory R63 by hand: 0x0A * 256 + 0xBC. -/
theorem test_storeInt : storeInt (Memory.ofBytes [0xBC, 0x0A]) = 0xABC := by decide

/-- A field right below and a field right above the stored one. -/
theorem witness_StoredFieldReadsBack :
    (Memory.ofBytes [0xFF, 0x01]).wf = true ∧ 7 ≤ 64 ∧ 9 ≤ 64 ∧
      (∀ k, 9 ≤ k → streamBit (Memory.ofBytes [0xFF, 0x01]) k = false) ∧ 0 + 9 ≤ 9 ∧ 9 + 7 ≤ 16 :=
  ⟨by decide, by decide, by decide, nothing_above_nine, by decide, by decide⟩

/-- A load of bits that are not zero, beside the store. -/
theorem witness_FieldsSplitAndJoin :
    (Memory.ofBytes [0xFF, 0x01]).wf = true ∧ 1 + 63 ≤ 64 ∧ (∀ k, 9 ≤ k → streamBit (Memory.ofBytes [0xFF, 0x01]) k = false) ∧
      loadBits (Memory.ofBytes [0xFF, 0x01]) 5 (1 + 63) = 0xF :=
  ⟨by decide, by decide, nothing_above_nine, by decide⟩

/-- A load of bytes that are not zero, beside the store. -/
theorem witness_AlignedFieldsAreLittleEndian :
    (Memory.ofBytes [0xFF]).wf = true ∧ 8 ≤ 8 ∧ (∀ k, 8 * 1 ≤ k → streamBit (Memory.ofBytes [0xFF]) k = false) ∧
      loadBits (Memory.ofBytes [0xFF, 0x34, 0x12]) (8 * 1) (8 * 2) = 0x1234 :=
  ⟨by decide, by decide, nothing_above_eight, by decide⟩

/-- A cut of 70 bits, and a byte-aligned copy with a masked last byte. -/
theorem witness_CopyBitsCopiesTheBlock :
    (Memory.ofBytes [0xFF, 0x01]).wf = true ∧ (∀ k, 9 ≤ k → streamBit (Memory.ofBytes [0xFF, 0x01]) k = false) ∧
      (∀ x ∈ [1, 64, 5], x ≤ 64) ∧ [1, 64, 5].sum = 70 ∧ (Memory.ofBytes [0xFF]).wf = true ∧
      (∀ k, 8 * 1 ≤ k → streamBit (Memory.ofBytes [0xFF]) k = false) ∧ 8 % 8 = 0 ∧ 1 < cdiv8 12 :=
  ⟨by decide, nothing_above_nine, by decide, by decide, by decide, nothing_above_eight, by decide, by decide⟩

/-- A block whose writer 0 and reader 0 stand at a byte boundary. -/
def aligned : State := (withWriter (wr .opened 8 [0xFF])).setReader 0 (rd .opened 0 16 [0x34, 0x12])

theorem witness_FastArrayWriteEqualsSlow :
    Inv aligned ∧ (aligned.writer 0).st = .opened ∧ 1 ≤ (64 : Width).toNat ∧ (64 : Width).toNat ≤ 64 ∧
      aligned.fastOk (aligned.writer 0).cur.toNat (64 : Width).toNat = true := by decide

theorem witness_FastArrayReadEqualsSlow :
    1 ≤ (16 : Width).toNat ∧ (16 : Width).toNat ≤ 64 ∧ aligned.fastOk (aligned.reader 0).cur.toNat (16 : Width).toNat = true := by
  decide

theorem witness_ArrayWriteIsARunOfWrites :
    Inv busy ∧ busy.fatal = false ∧ (0 : Ctx).toNat < busy.params.nw ∧ 1 ≤ (24 : Width).toNat ∧ (24 : Width).toNat ≤ 64 ∧
      [(0xABCDEF : Word), 0x123456].length < 2 ^ 64 ∧ (busy.writer 0).st = .opened ∧
      cdiv8 ((busy.writer 0).cur.toNat + [(0xABCDEF : Word), 0x123456].length * (24 : Width).toNat) ≤ busy.params.wcap := by decide

/-- Writer 1 of the block with `WCAP = 2` holds one bit: 15 more fit, 16 do not. -/
theorem witness_TwoWritesAreOneWrite :
    Inv full ∧ full.fatal = false ∧ (1 : Ctx).toNat < full.params.nw ∧
      (15 : Width).toNat = (8 : Width).toNat + (7 : Width).toNat ∧ (15 : Width).toNat ≤ 64 ∧ (full.writer 1).st = .opened ∧
      cdiv8 ((full.writer 1).cur.toNat + (15 : Width).toNat) ≤ full.params.wcap ∧
      (16 : Width).toNat = (8 : Width).toNat + (8 : Width).toNat ∧
      full.params.wcap < cdiv8 ((full.writer 1).cur.toNat + (16 : Width).toNat) := by decide

theorem witness_FinishedOutputIsImmutable :
    (busy.writer 2).st = .done ∧ (∃ t, step (sent busy remainPacket) = .next t) ∧
      (∀ f h rest, (sent busy remainPacket).input ≠ .reset f h :: rest) ∧
      (∀ p rest, (sent busy remainPacket).input = .command p :: rest → decode p ≠ .ok (.wOpen 2)) ∧
      (idle.setWriter 2 (busy.writer 2)).writer 2 = busy.writer 2 ∧
      (idle.setWriter 2 (busy.writer 2)).params = busy.params ∧ (idle.setWriter 2 (busy.writer 2)).fatal = busy.fatal ∧
      ∃ u, exec (.wByte 2 1) busy = .next u := by
  refine ⟨by decide, ⟨_, rfl⟩, by simp [sent], ?_, by decide, by decide, by decide, _, rfl⟩
  intro p rest h
  simp only [sent, List.cons.injEq, HostEvent.command.injEq] at h
  rw [← h.1]
  decide

/-- Reader 0 of `busy` cut from 9 bits to 5: 4 bits remain of the 8. -/
def cutShort : State := withReader (rd .opened 1 5 [0x0B])

theorem cutShort_agrees :
    ∀ k, k < (cutShort.reader 0).total.toNat → streamBit (cutShort.reader 0).src k = streamBit (busy.reader 0).src k := by
  decide

/-- Each of the three reads, of the 4 bits before the cut and of bits that cross it. -/
theorem witness_TruncatedBufferReadsUpToTheCut :
    Inv busy ∧ Inv cutShort ∧ busy.fatal = false ∧ cutShort.fatal = false ∧
      (∀ i ∈ [Instr.rBits 0 4, .rPeek 0 4, .rArray 0 2 2], busy.legal i = true ∧ cutShort.legal i = true ∧
        bitsAsked i = some (0, 4)) ∧
      (∀ i ∈ [Instr.rBits 0 8, .rPeek 0 8, .rArray 0 4 2], busy.legal i = true ∧ cutShort.legal i = true ∧
        bitsAsked i = some (0, 8)) ∧
      (busy.reader 0).st = .opened ∧ (cutShort.reader 0).st = .opened ∧ (cutShort.reader 0).cur = (busy.reader 0).cur ∧
      (cutShort.reader 0).total.toNat ≤ (busy.reader 0).total.toNat ∧
      (busy.reader 0).cur.toNat + 8 ≤ (busy.reader 0).total.toNat ∧
      (busy.reader 0).cur.toNat + 4 ≤ (cutShort.reader 0).total.toNat ∧
      (cutShort.reader 0).total.toNat < (busy.reader 0).cur.toNat + 8 := by decide

/-- The same visible state with other straps, another path taken, another capacity, another unspecified cursor and padding
bits that are not zero. -/
def disguised : State :=
  ((({ busy with fastEn := false, hostLe := false, fpTaken := true, freeCount := 5 }.setWriter 0
    { wr .opened 3 [0x05] with alloc := 16 }).setReader 1 (rd .poisoned 0 3 [0xFF])).setReader 0
      (rd .opened 1 9 [0x0B, 0xFE])).setReader 2 (rd .idle 8 8 [0xFF])

theorem witness_ResponsesDependOnVisibleStateOnly : Inv busy ∧ Inv disguised ∧ SameVisible busy disguised := by
  refine ⟨by decide, by decide, ?_⟩
  unfold SameVisible Writer.Same Reader.Same
  refine ⟨by decide, by decide, by decide, ?_⟩
  decide

theorem witness_DisjointCommandsCommute :
    (∀ w, w ∈ Instr.writersNamed (.wAppend 0 1) → w ∉ Instr.writersNamed (.wByte 2 0)) ∧
      (∀ r, r ∈ Instr.readersNamed (.rBits 0 9) → r ∉ Instr.readersNamed (.rOpen 1 1 8 [0xA5])) ∧
      (∃ s1 s2, exec (.wAppend 0 1) busy = .next s1 ∧ exec (.wByte 2 0) busy = .next s2 ∧ s1.fatal = false ∧ s2.fatal = false) ∧
      ∃ s1 s2, exec (.rBits 0 9) busy = .next s1 ∧ exec (.rOpen 1 1 8 [0xA5]) busy = .next s2 ∧ s1.fatal = false ∧
        s2.fatal = false :=
  ⟨by decide, by decide, ⟨_, _, rfl, rfl, by decide, by decide⟩, _, _, rfl, rfl, by decide, by decide⟩

/-- Fields of widths 0, 1 and 64, with value bits above the width. -/
theorem witness_FieldsReadBackAsWritten :
    Inv busy ∧ busy.fatal = false ∧ (0 : Ctx).toNat < busy.params.nw ∧ (0 : Ctx).toNat < busy.params.nr ∧
      (∀ f ∈ [((1 : Width), (3 : Word)), (0, 9), (64, 0xFFFFFFFFFFFFFFFF)], f.1.toNat ≤ 64) ∧ 1 ≤ (1 : Width).toNat ∧
      (1 : Width).toNat ≤ 64 ∧
      cdiv8 (bitCount [((1 : Width), (3 : Word)), (0, 9), (64, 0xFFFFFFFFFFFFFFFF)]) ≤ busy.params.wcap ∧
      cdiv8 (bitCount [((1 : Width), (3 : Word)), (0, 9), (64, 0xFFFFFFFFFFFFFFFF)]) ≤ busy.params.rcap :=
  ⟨test_busy_inv, by decide, by decide, by decide, by simp, by decide, by decide, by decide, by decide⟩

/-- A run that writes, appends, is turned away once, and finishes. -/
def writing : List Instr := [.wBits 0 3 5, .wAppend 0 2, .wArray 0 4 [1, 2], .wAppend 0 1, .wFinish 0]

theorem witness_OutputIsTheBitSequence :
    Inv busy ∧ busy.fatal = false ∧ (0 : Ctx).toNat < busy.params.nw ∧ (∀ i ∈ writing, i ≠ .wOpen 0) ∧
      ∃ rs t, runAll (.wOpen 0 :: writing) busy = some (rs, t) ∧ (t.writer 0).st ≠ .idle :=
  ⟨by decide, by decide, by decide, by decide, _, _, rfl, by decide⟩

/-- The bits appended to writer 0, by hand: 5 in three bits, nothing from the `DONE` writer, then 1 and 2 in one bit each. -/
theorem test_bits_of_a_run :
    bitsOfRun 0 [.wOpen 0, .wBits 0 3 5, .wAppend 0 2, .wArray 0 1 [1, 2], .wFinish 0] busy = [true, false, true, true, false] := by
  decide

theorem witness_SequentialReadsSeeTheBitSequence :
    Inv busy ∧ (busy.reader 0).st = .opened ∧
      (∀ i ∈ [Instr.rBits 0 1, .rArray 0 3 2, .rBits 0 0], (∃ width, i = .rBits 0 width) ∨ ∃ width n, i = .rArray 0 width n) ∧
      ∃ rs t, runAll [.rBits 0 1, .rArray 0 3 2, .rBits 0 0] busy = some (rs, t) ∧ ∀ a ∈ rs, a.status = .ok :=
  ⟨by decide, by decide, by simp, _, _, rfl, by decide⟩

/-- The least and the largest count with a width, and the counts next to them. -/
theorem witness_BitWidthIsTheLeast : 1 ≤ 1 ∧ 1 ≤ 2 ^ 64 ∧ 1 ≤ 2 ^ 64 ∧ 2 ^ 64 ≤ 2 ^ 64 ∧ (0 = 0 ∨ 2 ^ 64 < 0) ∧ 2 ^ 64 < 2 ^ 64 + 1 := by
  norm_num

theorem witness_ZigZagIsReversible :
    (0 : Int) ≤ 0 ∧ (-1 : Int) < 0 ∧ (-2 ^ 63 : Int) ≤ -2 ^ 63 ∧ (2 ^ 63 - 1 : Int) < 2 ^ 63 := by decide

theorem witness_VariableLengthScheme : 2 ^ 64 - 1 < 2 ^ 64 ∧ 1 ≤ 2 ^ 64 - 1 := by decide

theorem witness_VariableLengthRoundTrip :
    Inv busy ∧ busy.fatal = false ∧ (0 : Ctx).toNat < busy.params.nw ∧ (0 : Ctx).toNat < busy.params.nr ∧
      2 ^ 64 - 1 < 2 ^ 64 ∧ 16 ≤ busy.params.wcap ∧ 16 ≤ busy.params.rcap := by decide

/-- A scheme of fixed width, to show that there are lawful schemes. -/
def fixedVarLen : Client.VarLen := { enc := fun n => [(64, n)], dec := .read 64 .value }

theorem fixedVarLen_bits (n : Nat) : fixedVarLen.bits n = Client.natBits n 64 := by
  simp [fixedVarLen, Client.VarLen.bits]

theorem fixedVarLen_lawful : fixedVarLen.Lawful where
  fields n hn f hf := by
    simp only [fixedVarLen, List.mem_singleton] at hf
    exact ⟨by simp [hf], by rw [hf]; exact hn⟩
  decodes n hn rest := by
    rw [fixedVarLen_bits]
    have h := Client.natOfBits_natBits n 64
    rw [Nat.mod_eq_of_lt hn] at h
    simp [fixedVarLen, Client.ReadPlan.decode, h]
  prefixFree m n hm hn h := by
    rw [fixedVarLen_bits, fixedVarLen_bits] at h
    have he := congrArg Client.natOfBits (h.eq_of_length (by simp))
    rwa [Client.natOfBits_natBits, Client.natOfBits_natBits, Nat.mod_eq_of_lt hm, Nat.mod_eq_of_lt hn] at he
  monotone _ _ _ _ := by simp [fixedVarLen, Client.VarLen.cost]
  bounded := ⟨Nat.le_refl _, fun _ hp => hp⟩

/-- A client with that scheme, seven-bit text, and at most three elements of no bits. -/
def plainContract : Client.Contract :=
  { varLen := fixedVarLen, chars := { count := 128, ok := fun c => c < 128 }, textOk := fun bs => bs.all fun b => b < 128
    zlenMax := some 3, zlenError := .illegalCommand }

theorem plainContract_lawful : plainContract.Lawful where
  varLen := fixedVarLen_lawful
  someChar := by decide
  charField := by decide
  charRange _ h := by simpa [plainContract] using h

theorem sample_supported (C : Client.Contract) : Client.Supported C sample :=
  .field (.primitive .bool) (.field (.primitive (.unsigned 8 (by decide))) (.field
    (.option (.primitive (.unsigned 16 (by decide)))) (.enum (by decide) (by decide) fun _ => .unit)))

/-- A struct with a flag in writer 1 and, in writer 2, the sample struct. -/
def sampleJoined : Client.Format (Bool × (Bool × Nat × Option Nat × ((_ : Fin 3) × Unit))) :=
  Client.joinedFormat (some 1) (some 2) Client.boolPrimitive.format sample

theorem joinedFields_supported : ∀ f ∈ joinedFields plainContract, f.Supported plainContract := by
  simp only [joinedFields, List.forall_mem_cons]
  exact ⟨⟨_, _, _, .primitive .bool, by decide, rfl⟩, ⟨_, _, _, .seqArray (.unsigned 16 (by decide)) true true, by decide, rfl⟩,
    ⟨_, _, _, .enum (by decide) (by decide) fun _ => .unit, by decide, rfl⟩, by simp⟩

theorem joinedFields_apart : Client.WritersApart busy.hasWriter 0 (joinedFields plainContract) where
  differ := by decide
  kept := by simp only [joinedFields, List.forall_mem_cons]; decide
  present := by simp only [joinedFields, List.forall_mem_cons]; decide

theorem witness_EveryShapeRoundTrips :
    plainContract.Lawful ∧ Client.Supported plainContract sample ∧ sample.valid sampleValue = true ∧ Inv busy ∧
      busy.fatal = false ∧ (0 : Ctx).toNat < busy.params.nw ∧ (0 : Ctx).toNat < busy.params.nr ∧
      cdiv8 (Client.sizeOfEncoding (sample.enc 0 sampleValue)) ≤ busy.params.wcap ∧
      cdiv8 (Client.sizeOfEncoding (sample.enc 0 sampleValue)) ≤ busy.params.rcap ∧ (0 : Ctx) ∉ sample.scratch ∧
      Client.Supported plainContract sampleJoined ∧ sampleJoined.valid (true, sampleValue) = true ∧
      (0 : Ctx) ∉ sampleJoined.scratch ∧ (∀ u ∈ sampleJoined.scratch, busy.hasWriter u = true) ∧ sampleJoined.scratch = [1, 2] ∧
      cdiv8 (Client.sizeOfEncoding (sampleJoined.enc 0 (true, sampleValue))) ≤ busy.params.wcap ∧
      cdiv8 (Client.sizeOfEncoding (sampleJoined.enc 0 (true, sampleValue))) ≤ busy.params.rcap ∧
      (∀ f ∈ joinedFields plainContract, f.Supported plainContract) ∧ busy.hasWriter 0 = true ∧
      Client.WritersApart busy.hasWriter 0 (joinedFields plainContract) ∧
      cdiv8 (Client.sizeOfEncoding (Client.encStruct ((joinedFields plainContract).map fun f => f.enc 0))) ≤ busy.params.wcap :=
  ⟨plainContract_lawful, sample_supported _, by decide, by decide, by decide, by decide, by decide, by decide, by decide,
    by decide, .joined _ _ (.primitive .bool) (sample_supported _) (by decide) (by decide), by decide, by decide, by decide,
    by decide, by decide, by decide, joinedFields_supported, by decide, joinedFields_apart, by decide⟩

/-- Sources for each way a decode can end: a value, `Truncated`, `InvalidData` (tag 3 of 3), and five elements of no bits where
three are accepted. -/
theorem witness_HostileDataDecodesSafely :
    plainContract.Lawful ∧ Client.Supported plainContract sample ∧ Inv busy ∧ busy.fatal = false ∧
      (0 : Ctx).toNat < busy.params.nr ∧ [(0x01 : Byte), 0xD3, 0x48, 0x0C].length ≤ busy.params.rcap ∧
      28 ≤ 8 * [(0x01 : Byte), 0xD3, 0x48, 0x0C].length ∧
      (∃ t, Client.decodeTop 0 [0x01, 0xD3, 0x48, 0x08] 28 (sample.dec 0) busy = .value (sampleValue, 0) t) ∧
      failure 0 (Client.decodeTop 0 [0x01, 0xD3, 0x48, 0x0C] 28 (sample.dec 0) busy) = some (.invalidData, .idle) ∧
      failure 0 (Client.decodeTop 0 [0x01, 0xD3, 0x48, 0x0C] 27 (sample.dec 0) busy) = some (.truncated, .idle) ∧
      Client.Supported plainContract (Client.seqFormat plainContract Client.unitFormat) ∧
      failure 0 (Client.decodeTop 0 [5, 0, 0, 0, 0, 0, 0, 0] 64 ((Client.seqFormat plainContract Client.unitFormat).dec 0) busy) =
        some (plainContract.zlenError, .idle) :=
  ⟨plainContract_lawful, sample_supported _, by decide, by decide, by decide, by decide, by decide, ⟨_, rfl⟩, by decide,
    by decide, .seq .unit, by decide⟩

/-- A length of 5 at the end of a reader, with elements of one bit that nothing backs. -/
theorem witness_HostileLengthReservesWhatIsBacked :
    ∃ t, Client.decLen Client.specContract.varLen 0 (withReader (rd .opened 0 6 [0x17])) = .value 5 t ∧ Inv t ∧
      t.fatal = false ∧ (0 : Ctx).toNat < t.params.nr ∧ (t.reader 0).st = .opened ∧ 1 ≤ Client.boolPrimitive.width ∧
      Client.boolPrimitive.width ≤ 64 ∧ 5 < 2 ^ 64 ∧
      (t.reader 0).total.toNat < (t.reader 0).cur.toNat + 5 * Client.boolPrimitive.width :=
  ⟨_, rfl, by decide, by decide, by decide, by decide, by decide, by decide, by decide, by decide⟩

/-- A bounded pattern that is rejected, a tag that is accepted, a surrogate code point, and text that is not well formed. -/
theorem witness_ClientRejectsImpossibleValues :
    (∃ t, Client.readField 0 (Client.leastWidth (Client.rangeCount 10 12)) (withReader (rd .opened 0 2 [0x03])) = .value 3 t) ∧
      (∃ t, Client.readField 0 (Client.leastWidth 5) (withReader (rd .opened 0 3 [0x04])) = .value 4 t) ∧
      (∃ t, Client.readField 0 Client.specChars.width (withReader (rd .opened 0 21 [0x00, 0xD8, 0x00])) = .value 0xD800 t) ∧
      (∃ t, Client.decBytes Client.specContract 0 (withReader (rd .opened 0 10 [0xFD, 0x03])) = .value [0xFF] t) ∧
      ∃ t, Client.decBytesArray Client.specContract 0 (withReader (rd .opened 0 10 [0xFD, 0x03])) = .value [0xFF] t :=
  ⟨⟨_, rfl⟩, ⟨_, rfl⟩, ⟨_, rfl⟩, ⟨_, rfl⟩, _, rfl⟩

end Sys2Proof.Tests
end

namespace Sys2Proof.Machine

/-! ### Equations of the step, by the host's next event (00_scope R6, 30_encoding R95) -/

theorem dropEvent_of_input {s : State} {e : HostEvent} {rest : List HostEvent} (hin : s.input = e :: rest) :
    s.dropEvent = { s with input := rest } := by
  simp only [State.dropEvent, hin, List.tail_cons]

theorem step_of_no_event {s : State} (hin : s.input = []) : step s = .next s := by
  simp only [step, intake, hin]

theorem step_of_decoded {s : State} {p : Packet} {rest : List HostEvent} {i : Instr}
    (hin : s.input = .command p :: rest) (hdec : decode p = .ok i) : step s = exec i s.dropEvent := by
  simp only [step, intake, hin, hdec]

/-- Settles O5: a decoded packet gives the command and the state past it, and an empty stream leaves the state as it is. -/
theorem stepTakesTheNextEvent : Obligations.StepTakesTheNextEvent := by
  refine ⟨fun s p rest i hin hdec => ?_, fun s hin => step_of_no_event hin⟩
  rw [step_of_decoded hin hdec, dropEvent_of_input hin]

end Sys2Proof.Machine

namespace Sys2Proof.Machine

/-! ### Stream bits of the write and read multiplexers (20_memory R60, 40_cursor_arithmetic R124, R125, R129) -/

/-- Every stream bit after `store_bits`: the bits of the field are or-ed in, the others stay. -/
theorem streamBit_storeBits {m : Memory} (hm : m.wf = true) (c : Nat) {n : Nat} (hn : n ≤ 64) (v : Word) (k : Nat) :
    streamBit (storeBits m c n v) k =
      (streamBit m k || (decide (c ≤ k ∧ k < c + n) && v.getLsbD (k - c))) := by
  simp only [streamBit, storeBits, split, readByte_mergeWindow _ _ _ hm]
  by_cases hin : c / 8 ≤ k / 8 ∧ k / 8 < c / 8 + span (c % 8) n
  · have hk : 8 * (k / 8 - c / 8) + k % 8 = k - 8 * (c / 8) := by omega
    have hv : k - 8 * (c / 8) - c % 8 = k - c := by omega
    have h1 : c % 8 ≤ k - 8 * (c / 8) ↔ c ≤ k := by omega
    have h2 : k - 8 * (c / 8) < c % 8 + n ↔ k < c + n := by omega
    rw [if_pos hin, BitVec.getLsbD_or, getLsbD_windowByte, hk, getLsbD_storeWindow (by omega) hn, hv]
    simp [h1, h2, Nat.mod_lt, Bool.and_assoc]
  · have hout : ¬(c ≤ k ∧ k < c + n) := by
      intro h
      have : n ≠ 0 := by omega
      simp only [span, this, if_false, cdiv8] at hin
      omega
    rw [if_neg hin]
    simp [hout]

theorem streamBit_storeBits_outside {m : Memory} (hm : m.wf = true) {c n : Nat} (hn : n ≤ 64) (v : Word) {k : Nat}
    (h : k < c ∨ c + n ≤ k) : streamBit (storeBits m c n v) k = streamBit m k := by
  have : ¬(c ≤ k ∧ k < c + n) := by omega
  rw [streamBit_storeBits hm c hn, decide_eq_false this, Bool.false_and, Bool.or_false]

/-- The slow datapath of `W_ARRAY` leaves every bit outside the elements (43_fastpath_array R183). -/
theorem streamBit_storeElems_outside {m : Memory} (hm : m.wf = true) {c width : Nat} (hw : width ≤ 64) (es : List Word)
    {k : Nat} (h : k < c ∨ c + es.length * width ≤ k) : streamBit (storeElems m c width es) k = streamBit m k := by
  induction es generalizing m c with
  | nil => rfl
  | cons e es ih =>
    rw [List.length_cons, Nat.succ_mul] at h
    rw [storeElems, ih (wf_storeBits hm _ _ _) (by omega), streamBit_storeBits_outside hm hw _ (by omega)]

theorem streamBit_foldl_storeBits_outside (f : Nat → Nat × Nat × Word) (l : List Nat) {m : Memory} (hm : m.wf = true)
    {k : Nat} (h : ∀ i ∈ l, (f i).2.1 ≤ 64 ∧ (k < (f i).1 ∨ (f i).1 + (f i).2.1 ≤ k)) :
    streamBit (l.foldl (fun d i => storeBits d (f i).1 (f i).2.1 (f i).2.2) m) k = streamBit m k := by
  induction l generalizing m with
  | nil => rfl
  | cons i l ih =>
    obtain ⟨hn, ho⟩ := h i List.mem_cons_self
    rw [List.foldl_cons, ih (wf_storeBits hm _ _ _) fun j hj => h j (List.mem_cons_of_mem i hj),
      streamBit_storeBits_outside hm hn _ ho]

/-- The `i`-th store of `copy_bits`: where it begins, how many bits it has, and its value (40_cursor_arithmetic R129). -/
def copyChunk (c : Nat) (src : Memory) (n i : Nat) : Nat × Nat × Word :=
  (c + 64 * i, min 64 (n - 64 * i), loadBits src (64 * i) (min 64 (n - 64 * i)))

theorem copyBits_eq_foldl (dst : Memory) (c : Nat) (src : Memory) (n : Nat) :
    copyBits dst c src n =
      (List.range ((n + 63) / 64)).foldl
        (fun d i => storeBits d (copyChunk c src n i).1 (copyChunk c src n i).2.1 (copyChunk c src n i).2.2) dst := rfl

/-- `copy_bits` leaves every bit outside its `n` bits. -/
theorem streamBit_copyBits_outside {dst : Memory} (hd : dst.wf = true) {c : Nat} (src : Memory) {n k : Nat}
    (h : k < c ∨ c + n ≤ k) : streamBit (copyBits dst c src n) k = streamBit dst k := by
  rw [copyBits_eq_foldl]
  refine streamBit_foldl_storeBits_outside _ _ hd fun i hi => ?_
  rw [List.mem_range] at hi
  simp only [copyChunk]
  omega

/-- The bits `load_bits` answers are stream bits. -/
theorem getLsbD_loadBits (m : Memory) (c : Nat) {n : Nat} (hn : n ≤ 64) (i : Nat) :
    (loadBits m c n).getLsbD i = (decide (i < n) && streamBit m (c + i)) := by
  simp only [loadBits, split, getLsbD_unpack, BitVec.getLsbD_ushiftRight, getLsbD_loadWindow, streamBit]
  by_cases hi : i < n
  · have h8 : c % 8 + i < 8 * span (c % 8) n := by
      simp only [span, cdiv8, show n ≠ 0 by omega, if_false]
      omega
    have hb : c / 8 + (c % 8 + i) / 8 = (c + i) / 8 := by omega
    have hj : (c % 8 + i) % 8 = (c + i) % 8 := by omega
    simp [hi, h8, hb, hj, show i < 64 by omega, show c % 8 + i < 72 by omega]
  · simp [hi]

/-- A load sees nothing but the bits it delivers. -/
theorem loadBits_congr {m m' : Memory} {c n : Nat} (hn : n ≤ 64)
    (h : ∀ k, k < c + n → streamBit m k = streamBit m' k) : loadBits m c n = loadBits m' c n := by
  refine BitVec.eq_of_getLsbD_eq fun i _ => ?_
  rw [getLsbD_loadBits m c hn, getLsbD_loadBits m' c hn]
  by_cases hi : i < n
  · rw [h (c + i) (by omega)]
  · simp [hi]

theorem loadElems_congr {m m' : Memory} {c width n : Nat} (hw : width ≤ 64)
    (h : ∀ k, k < c + n * width → streamBit m k = streamBit m' k) :
    loadElems m c width n = loadElems m' c width n := by
  refine List.map_congr_left fun i hi => loadBits_congr hw fun k hk => h k ?_
  have : (i + 1) * width ≤ n * width := Nat.mul_le_mul_right width (List.mem_range.mp hi)
  rw [Nat.succ_mul] at this
  omega

/-! ### Bytes outside a store, in any store (20_memory R66) -/

theorem readByte_storeBits_outside (m : Memory) {c n : Nat} (v : Word) {a : Nat}
    (h : n = 0 ∨ 8 * a + 8 ≤ c ∨ c + n ≤ 8 * a) : readByte (storeBits m c n v) a = readByte m a := by
  rcases Nat.eq_zero_or_pos n with rfl | hn
  · rw [storeBits_zero]
  · refine readByte_mergeWindow_outside _ _ _ _ ?_
    simp only [split, span, cdiv8, show n ≠ 0 by omega, if_false]
    omega

theorem readByte_storeElems_outside (m : Memory) {c width : Nat} (es : List Word) {a : Nat}
    (h : es.length * width = 0 ∨ 8 * a + 8 ≤ c ∨ c + es.length * width ≤ 8 * a) :
    readByte (storeElems m c width es) a = readByte m a := by
  induction es generalizing m c with
  | nil => rfl
  | cons e es ih =>
    rw [List.length_cons, Nat.succ_mul] at h
    rw [storeElems, ih _ (by omega), readByte_storeBits_outside _ _ (by omega)]

theorem readByte_foldl_storeBits_outside (f : Nat → Nat × Nat × Word) (l : List Nat) (m : Memory) {a : Nat}
    (h : ∀ i ∈ l, (f i).2.1 = 0 ∨ 8 * a + 8 ≤ (f i).1 ∨ (f i).1 + (f i).2.1 ≤ 8 * a) :
    readByte (l.foldl (fun d i => storeBits d (f i).1 (f i).2.1 (f i).2.2) m) a = readByte m a := by
  induction l generalizing m with
  | nil => rfl
  | cons i l ih =>
    rw [List.foldl_cons, ih _ fun j hj => h j (List.mem_cons_of_mem i hj),
      readByte_storeBits_outside _ _ (h i List.mem_cons_self)]

theorem readByte_copyBits_outside (dst : Memory) {c : Nat} (src : Memory) {n a : Nat}
    (h : n = 0 ∨ 8 * a + 8 ≤ c ∨ c + n ≤ 8 * a) : readByte (copyBits dst c src n) a = readByte dst a := by
  rw [copyBits_eq_foldl]
  refine readByte_foldl_storeBits_outside _ _ dst fun i hi => ?_
  rw [List.mem_range] at hi
  simp only [copyChunk]
  omega

/-- A byte outside the bytes that `n` bits at cursor `c` touch holds none of those bits (40_cursor_arithmetic R123). -/
theorem outside_of_outside_span {c n a : Nat} (h : a < (split c).1 ∨ (split c).1 + span (split c).2 n ≤ a) :
    n = 0 ∨ 8 * a + 8 ≤ c ∨ c + n ≤ 8 * a := by
  rcases Nat.eq_zero_or_pos n with hn | hn
  · exact .inl hn
  · simp only [split, span, cdiv8, show n ≠ 0 by omega, if_false] at h
    omega

/-! ### Taking an exception, context by context (60_exceptions R249) -/

@[simp] theorem take_writer (s : State) (e : Exception) (w : Ctx) : (s.take e).writer w = s.writer w := by
  cases e <;> rfl

theorem take_reader (s : State) {e : Exception} (he : ∀ r, e ≠ .truncated r) (r : Ctx) :
    (s.take e).reader r = s.reader r := by
  cases e with
  | truncated q => exact absurd rfl (he q)
  | invalidData | illegalCommand | illegalState | poisoned | fatal => rfl

/-- Two exceptions with the same outcome have the same status. -/
theorem status_eq_of_raise_eq {e e' : Exception} {s s' : State} (h : raise e s = raise e' s') : e.status = e'.status := by
  have ht : s.take e = s'.take e' := Host.Outcome.next.inj h
  simpa [State.take] using congrArg State.resp ht

theorem freeCursorUpTo_le (k : Nat) (total : Word) : (freeCursorUpTo k total).toNat ≤ total.toNat := by
  have : (Config.freeCursor k).toNat % (total.toNat + 1) < total.toNat + 1 := Nat.mod_lt _ (Nat.succ_pos _)
  rw [freeCursorUpTo, BitVec.toNat_ofNat]
  exact (Nat.mod_le _ _).trans (Nat.le_of_lt_succ this)

/-! ### Everything a command can do -/

/-- `Effect s i t`: command `i` may take `s` to `t`. It is refused with an exception that touches no context, or it poisons the
`OPEN` reader it names, or it answers `OK` with the state of its own rule. Of that rule's conditions each case keeps those that
bound what it changes; `effect_of_exec` ties the relation to `exec`. -/
inductive Effect (s : State) : Instr → State → Prop where
  | refused {i : Instr} {e : Exception} (quiet : ∀ r, e ≠ .truncated r) : Effect s i (s.take e)
  | truncated {i : Instr} {r : Ctx} (named : r ∈ Instr.readersNamed i) (present : s.hasReader r = true)
      (opened : (s.reader r).st = .opened) : Effect s i (s.take (.truncated r))
  | wOpen {w : Ctx} (present : s.hasWriter w = true) :
      Effect s (.wOpen w) ((s.setWriter w { st := .opened, cur := 0, store := [], alloc := 0 }).respond .ok 0 [])
  | wBits {w : Ctx} {width : Width} {value : Word} (present : s.hasWriter w = true) (field : width.toNat ≤ 64)
      (opened : (s.writer w).st = .opened) (room : s.hasRoom w width.toNat = true) :
      Effect s (.wBits w width value)
        ((s.extendWriter w width.toNat (storeBits (s.writer w).store (s.writer w).cur.toNat width.toNat value)).respond
          .ok 0 [])
  | wAppend {w v : Ctx} (present : s.hasWriter w = true) (apart : w ≠ v) (opened : (s.writer w).st = .opened)
      (room : s.hasRoom w (s.writer v).cur.toNat = true) :
      Effect s (.wAppend w v)
        (((s.extendWriter w (s.writer v).cur.toNat
          (copyBits (s.writer w).store (s.writer w).cur.toNat (s.writer v).store (s.writer v).cur.toNat)).consumeWriter
            v).respond .ok 0 [])
  | wFinish {w : Ctx} (present : s.hasWriter w = true) (opened : (s.writer w).st = .opened) :
      Effect s (.wFinish w) ((s.setWriter w { s.writer w with st := .done }).respond .ok (s.writer w).cur [])
  | wByte {w : Ctx} {index : Word} :
      Effect s (.wByte w index) (s.respond .ok ((readByte (s.writer w).store index.toNat).setWidth 64) [])
  | wArray {w : Ctx} {width : Width} {elems : List Word} (present : s.hasWriter w = true) (field : width.toNat ≤ 64)
      (opened : (s.writer w).st = .opened) (room : s.hasRoom w (elems.length * width.toNat) = true) :
      Effect s (.wArray w width elems)
        (((s.extendWriter w (elems.length * width.toNat)
          (storeElems (s.writer w).store (s.writer w).cur.toNat width.toNat elems)).setFpTaken
            (s.fastOk (s.writer w).cur.toNat width.toNat)).respond .ok 0 [])
  | rOpen {r : Ctx} {nbytes total : Word} {src : List Byte} (present : s.hasReader r = true)
      (fits : nbytes.toNat ≤ s.params.rcap) (bytes : src.length = nbytes.toNat) (bits : total.toNat ≤ 8 * nbytes.toNat) :
      Effect s (.rOpen r nbytes total src) ((s.bindReader r nbytes total src).respond .ok total [])
  | rOpenB {r : Ctx} {nbytes : Word} {src : List Byte} (present : s.hasReader r = true)
      (fits : nbytes.toNat ≤ s.params.rcap) (bytes : src.length = nbytes.toNat) :
      Effect s (.rOpenB r nbytes src)
        ((s.bindReader r nbytes (BitVec.ofNat 64 (8 * nbytes.toNat)) src).respond .ok (BitVec.ofNat 64 (8 * nbytes.toNat)) [])
  | rBits {r : Ctx} {width : Width} (present : s.hasReader r = true) (opened : (s.reader r).st = .opened)
      (enough : (s.reader r).hasBits width.toNat = true) :
      Effect s (.rBits r width)
        ((s.advanceReader r width.toNat).respond .ok
          (loadBits (s.reader r).src (s.reader r).cur.toNat width.toNat) [])
  | rPeek {r : Ctx} {width : Width} :
      Effect s (.rPeek r width) (s.respond .ok (loadBits (s.reader r).src (s.reader r).cur.toNat width.toNat) [])
  | rRemain {r : Ctx} : Effect s (.rRemain r) (s.respond .ok (s.reader r).remaining [])
  | rArray {r : Ctx} {width : Width} {n : Word} (present : s.hasReader r = true) (opened : (s.reader r).st = .opened)
      (enough : (s.reader r).hasBits (n.toNat * width.toNat) = true) :
      Effect s (.rArray r width n)
        (((s.advanceReader r (n.toNat * width.toNat)).setFpTaken
          (s.fastOk (s.reader r).cur.toNat width.toNat)).respond .ok n
            (loadElems (s.reader r).src (s.reader r).cur.toNat width.toNat n.toNat))
  | rClose {r : Ctx} :
      Effect s (.rClose r)
        ((s.setReader r { s.reader r with st := .idle }).respond .ok
          (if (s.reader r).st = .opened then (s.reader r).remaining else 0) [])

theorem checked_eq_truncated {s : State} {legal : Bool} {body : Result} {r : Ctx}
    (h : checked s legal body = raise (.truncated r) s) : legal = true ∧ body = raise (.truncated r) s := by
  rcases checked_cases s legal body with ⟨_, hc⟩ | ⟨_, _, hc⟩ | ⟨_, hl, hc⟩ <;> rw [hc] at h
  · exact nomatch status_eq_of_raise_eq h
  · exact nomatch status_eq_of_raise_eq h
  · exact ⟨hl, h⟩

theorem needReader_eq_truncated {s : State} {q r : Ctx} {body : Result}
    (h : needReader s q body = raise (.truncated r) s) : (s.reader q).st = .opened := by
  rcases needReader_cases s q body with ⟨_, hc⟩ | ⟨_, hc⟩ | ⟨ho, _⟩
  · rw [hc] at h; exact nomatch status_eq_of_raise_eq h
  · rw [hc] at h; exact nomatch status_eq_of_raise_eq h
  · exact ho

theorem answer_ne_truncated (s u : State) (r0 : Word) (es : List Word) (r : Ctx) :
    answer u r0 es ≠ raise (.truncated r) s := fun h =>
  nomatch congrArg State.resp (Host.Outcome.next.inj h)

/-- `Truncated` is raised of an `OPEN` reader of the block only (60_exceptions R241). -/
theorem opened_of_exec_eq_truncated {i : Instr} {r : Ctx} (named : r ∈ Instr.readersNamed i) {s : State}
    (h : exec i s = raise (.truncated r) s) : s.hasReader r = true ∧ (s.reader r).st = .opened := by
  cases i with
  | wOpen | wBits | wAppend | wFinish | wArray | wByte => exact nomatch named
  | rOpen q nbytes total src =>
    exact absurd (checked_eq_truncated h).2 (answer_ne_truncated _ _ _ _ _)
  | rOpenB q nbytes src =>
    exact absurd (checked_eq_truncated h).2 (answer_ne_truncated _ _ _ _ _)
  | rBits q width =>
    obtain rfl := List.mem_singleton.mp named
    obtain ⟨hl, hb⟩ := checked_eq_truncated h
    exact ⟨(Bool.and_eq_true_iff.mp hl).1, needReader_eq_truncated hb⟩
  | rPeek q width =>
    obtain rfl := List.mem_singleton.mp named
    obtain ⟨hl, hb⟩ := checked_eq_truncated h
    exact ⟨(Bool.and_eq_true_iff.mp hl).1, needReader_eq_truncated hb⟩
  | rRemain q =>
    obtain rfl := List.mem_singleton.mp named
    obtain ⟨hl, hb⟩ := checked_eq_truncated h
    exact ⟨hl, needReader_eq_truncated hb⟩
  | rArray q width n =>
    obtain rfl := List.mem_singleton.mp named
    obtain ⟨hl, hb⟩ := checked_eq_truncated h
    exact ⟨(Bool.and_eq_true_iff.mp hl).1, needReader_eq_truncated hb⟩
  | rClose q =>
    obtain rfl := List.mem_singleton.mp named
    obtain ⟨hl, hb⟩ := checked_eq_truncated h
    refine ⟨hl, ?_⟩
    cases hs : (s.reader r).st with
    | idle => rw [hs] at hb; exact nomatch status_eq_of_raise_eq hb
    | opened => rfl
    | poisoned => rw [hs] at hb; exact absurd hb (answer_ne_truncated _ _ _ _ _)

theorem Exception.ofWriter.quiet {e : Exception} (he : e.ofWriter) (r : Ctx) : e ≠ .truncated r := by
  rcases he with rfl | rfl | rfl <;> exact nofun

theorem effect_of_writer_raise {i : Instr} {e : Exception} {s : State} (he : e.ofWriter) : Effect s i (s.take e) :=
  .refused he.quiet

theorem effect_of_reader_raise {i : Instr} {r : Ctx} (named : r ∈ Instr.readersNamed i) {e : Exception} {s : State}
    (he : e.ofReader r) (h : exec i s = raise e s) : Effect s i (s.take e) := by
  rcases he with rfl | rfl | rfl | rfl | rfl
  · exact .refused nofun
  · exact .refused nofun
  · exact .refused nofun
  · exact .refused nofun
  · obtain ⟨hr, ho⟩ := opened_of_exec_eq_truncated named h
    exact .truncated named hr ho

/-- The state a command leaves is one of its effects: the inversion lemmas of the thirteen commands in one. -/
theorem effect_of_exec {i : Instr} {s t : State} (h : exec i s = .next t) : Effect s i t := by
  have reaches {u : State} (hu : exec i s = .next u) (he : Effect s i u) : Effect s i t :=
    Host.Outcome.next.inj (hu.symm.trans h) ▸ he
  cases i with
  | wOpen w =>
    rcases execWOpen_cases w s with ⟨e, he, hx⟩ | ⟨_, hp, hx⟩
    · exact reaches hx (effect_of_writer_raise he)
    · exact reaches hx (.wOpen hp)
  | wBits w width value =>
    rcases execWBits_cases w width value s with ⟨e, he, hx⟩ | ⟨_, hp, hn, ho, hr, hx⟩
    · exact reaches hx (effect_of_writer_raise he)
    · exact reaches hx (.wBits hp hn ho hr)
  | wAppend w v =>
    rcases execWAppend_cases w v s with ⟨e, he, hx⟩ | ⟨_, hp, _, hne, ho, _, hr, hx⟩
    · exact reaches hx (effect_of_writer_raise he)
    · exact reaches hx (.wAppend hp hne ho hr)
  | wFinish w =>
    rcases execWFinish_cases w s with ⟨e, he, hx⟩ | ⟨_, hp, ho, hx⟩
    · exact reaches hx (effect_of_writer_raise he)
    · exact reaches hx (.wFinish hp ho)
  | wArray w width elems =>
    rcases execWArray_cases w width elems s with ⟨e, he, hx⟩ | ⟨_, hp, _, hn, _, ho, hr, hx⟩
    · exact reaches hx (effect_of_writer_raise he)
    · exact reaches hx (.wArray hp hn ho hr)
  | wByte w index =>
    rcases execWByte_cases w index s with ⟨e, he, hx⟩ | ⟨_, _, _, _, ⟨_, hx⟩ | ⟨_, hx⟩⟩
    · exact reaches hx (effect_of_writer_raise he)
    · exact nomatch hx.symm.trans h
    · exact reaches hx .wByte
  | rOpen r nbytes total src =>
    rcases execROpen_cases r nbytes total src s with ⟨e, he, hx⟩ | ⟨_, hp, hf, hl, hb, hx⟩
    · exact reaches hx (effect_of_reader_raise List.mem_cons_self he hx)
    · exact reaches hx (.rOpen hp hf hl hb)
  | rOpenB r nbytes src =>
    rcases execROpenB_cases r nbytes src s with ⟨e, he, hx⟩ | ⟨_, hp, hf, hl, hx⟩
    · exact reaches hx (effect_of_reader_raise List.mem_cons_self he hx)
    · exact reaches hx (.rOpenB hp hf hl)
  | rBits r width =>
    rcases execRBits_cases r width s with ⟨e, he, hx⟩ | ⟨_, hp, _, ho, hb, ⟨_, hx⟩ | ⟨_, hx⟩⟩
    · exact reaches hx (effect_of_reader_raise List.mem_cons_self he hx)
    · exact nomatch hx.symm.trans h
    · exact reaches hx (.rBits hp ho hb)
  | rPeek r width =>
    rcases execRPeek_cases r width s with ⟨e, he, hx⟩ | ⟨_, _, _, _, _, ⟨_, hx⟩ | ⟨_, hx⟩⟩
    · exact reaches hx (effect_of_reader_raise List.mem_cons_self he hx)
    · exact nomatch hx.symm.trans h
    · exact reaches hx .rPeek
  | rRemain r =>
    rcases execRRemain_cases r s with ⟨e, he, hx⟩ | ⟨_, _, _, hx⟩
    · exact reaches hx (effect_of_reader_raise List.mem_cons_self he hx)
    · exact reaches hx .rRemain
  | rArray r width n =>
    rcases execRArray_cases r width n s with ⟨e, he, hx⟩ | ⟨_, hp, _, _, ho, hb, ⟨_, hx⟩ | ⟨_, hx⟩⟩
    · exact reaches hx (effect_of_reader_raise List.mem_cons_self he hx)
    · exact nomatch hx.symm.trans h
    · exact reaches hx (.rArray hp ho hb)
  | rClose r =>
    rcases execRClose_cases r s with ⟨e, he, hx⟩ | ⟨_, _, _, hx⟩
    · exact reaches hx (effect_of_reader_raise List.mem_cons_self he hx)
    · exact reaches hx .rClose

/-! ### The invariants of a context (10_state R22, R25) -/

theorem Writer.inv_iff (p : Params) (x : Writer) :
    x.inv p = true ↔ x.store.wf = true ∧ (x.st ≠ .idle →
      x.cur.toNat ≤ 8 * p.wcap ∧ cdiv8 x.cur.toNat ≤ x.alloc ∧ x.alloc ≤ p.wcap ∧
        ∀ k, x.cur.toNat ≤ k → streamBit x.store k = false) := by
  simp only [Writer.inv, Bool.and_eq_true, Bool.or_eq_true, beq_iff_eq, decide_eq_true_eq, and_assoc]
  refine and_congr_right fun hm => ?_
  rw [highBitsClear_iff hm, or_iff_not_imp_left]

theorem Reader.inv_iff (p : Params) (x : Reader) :
    x.inv p = true ↔ x.src.wf = true ∧ (x.st ≠ .idle →
      x.cur.toNat ≤ x.total.toNat ∧ x.total.toNat ≤ 8 * x.nbytes.toNat ∧ x.nbytes.toNat ≤ p.rcap ∧
        x.src.all (fun cell => cell.1 < x.nbytes.toNat) = true) := by
  simp only [Reader.inv, Bool.and_eq_true, Bool.or_eq_true, beq_iff_eq, decide_eq_true_eq, and_assoc, or_iff_not_imp_left,
    ne_eq]

theorem Params.wf_iff (p : Params) :
    p.wf = true ↔ (1 ≤ p.nw ∧ p.nw ≤ 16) ∧ (1 ≤ p.nr ∧ p.nr ≤ 16) ∧ (1 ≤ p.wcap ∧ p.wcap ≤ 2 ^ 61 - 1) ∧
      1 ≤ p.rcap ∧ p.rcap ≤ 2 ^ 61 - 1 := by
  simp only [Params.wf, Bool.and_eq_true, decide_eq_true_eq, and_assoc]

theorem wcap_lt_of_wf {p : Params} (hp : p.wf = true) : 8 * p.wcap < 2 ^ 64 := by
  obtain ⟨_, _, ⟨_, h⟩, _⟩ := (Params.wf_iff p).mp hp
  omega

theorem hasRoom_iff (s : State) (w : Ctx) (n : Nat) :
    s.hasRoom w n = true ↔ cdiv8 ((s.writer w).cur.toNat + n) ≤ s.params.wcap := by
  simp only [State.hasRoom, decide_eq_true_eq]

theorem hasBits_iff (x : Reader) (n : Nat) : x.hasBits n = true ↔ x.cur.toNat + n ≤ x.total.toNat := by
  simp only [Reader.hasBits, decide_eq_true_eq]

/-- An append with room does not wrap the cursor (40_cursor_arithmetic R130). -/
theorem cursor_extend_toNat {s : State} (hp : s.params.wf = true) {w : Ctx} {n : Nat} (room : s.hasRoom w n = true) :
    (BitVec.ofNat 64 ((s.writer w).cur.toNat + n)).toNat = (s.writer w).cur.toNat + n := by
  have h := (hasRoom_iff s w n).mp room
  have := wcap_lt_of_wf hp
  rw [cdiv8] at h
  rw [BitVec.toNat_ofNat, Nat.mod_eq_of_lt (by omega)]

/-- A read of bits that remain does not wrap the cursor. -/
theorem cursor_advance_toNat {x : Reader} {n : Nat} (enough : x.hasBits n = true) :
    (BitVec.ofNat 64 (x.cur.toNat + n)).toNat = x.cur.toNat + n := by
  rw [BitVec.toNat_ofNat, Nat.mod_eq_of_lt (lt_of_le_of_lt ((hasBits_iff x n).mp enough) x.total.isLt)]

theorem grownAlloc_bounds {wcap need alloc : Nat} (hn : need ≤ wcap) (ha : alloc ≤ wcap) :
    need ≤ grownAlloc wcap need alloc ∧ grownAlloc wcap need alloc ≤ wcap := by
  rw [grownAlloc]
  split <;> omega

/-! ### Updates that keep the invariant -/

theorem Inv.respond {s : State} (hi : Inv s) {st : Status} {r0 : Word} {es : List Word} : Inv (s.respond st r0 es) := hi

theorem Inv.setFpTaken {s : State} (hi : Inv s) {b : Bool} : Inv (s.setFpTaken b) := hi

theorem Inv.dropEvent {s : State} (hi : Inv s) : Inv s.dropEvent := hi

theorem Inv.setWriter {s : State} (hi : Inv s) {w : Ctx} {x : Writer} (hx : x.inv s.params = true)
    (present : s.hasWriter w = true ∨ x.st = .idle) : Inv (s.setWriter w x) := by
  obtain ⟨hp, hw, hr, hnw, hnr⟩ := hi
  refine ⟨hp, fun v => ?_, hr, fun v => ?_, hnr⟩ <;> rw [writer_setWriter] <;> split
  · exact hx
  · exact hw v
  · next h => exact h ▸ present
  · exact hnw v

theorem Inv.setReader {s : State} (hi : Inv s) {r : Ctx} {x : Reader} (hx : x.inv s.params = true)
    (present : s.hasReader r = true ∨ x.st = .idle) : Inv (s.setReader r x) := by
  obtain ⟨hp, hw, hr, hnw, hnr⟩ := hi
  refine ⟨hp, hw, fun q => ?_, hnw, fun q => ?_⟩ <;> rw [reader_setReader] <;> split
  · exact hx
  · exact hr q
  · next h => exact h ▸ present
  · exact hnr q

theorem Inv.writer {s : State} (hi : Inv s) (w : Ctx) : (s.writer w).inv s.params = true := hi.2.1 w

theorem Inv.reader {s : State} (hi : Inv s) (r : Ctx) : (s.reader r).inv s.params = true := hi.2.2.1 r

/-- A store that differs within the `n` bits at the cursor only is one the writer may be extended to. -/
theorem Inv.extendWriter {s : State} (hi : Inv s) {w : Ctx} (present : s.hasWriter w = true)
    (opened : (s.writer w).st = .opened) {n : Nat} (room : s.hasRoom w n = true) {m : Memory} (hm : m.wf = true)
    (above : ∀ k, (s.writer w).cur.toNat + n ≤ k → streamBit m k = streamBit (s.writer w).store k) :
    Inv (s.extendWriter w n m) := by
  refine hi.setWriter ((Writer.inv_iff _ _).mpr ⟨hm, fun _ => ?_⟩) (.inl present)
  obtain ⟨_, _, halloc, hz⟩ := ((Writer.inv_iff _ _).mp (hi.writer w)).2 (by simp [opened])
  have hroom := (hasRoom_iff s w n).mp room
  obtain ⟨hlo, hhi⟩ := grownAlloc_bounds hroom halloc
  rw [cursor_extend_toNat hi.1 room]
  refine ⟨?_, hlo, hhi, fun k hk => ?_⟩
  · rw [cdiv8] at hroom
    omega
  · rw [above k hk, hz k (by omega)]

theorem Inv.consumeWriter {s : State} (hi : Inv s) (v : Ctx) : Inv (s.consumeWriter v) :=
  hi.setWriter ((Writer.inv_iff _ _).mpr ⟨((Writer.inv_iff _ _).mp (hi.writer v)).1, fun h => absurd rfl h⟩) (.inr rfl)

theorem Inv.bindReader {s : State} (hi : Inv s) {r : Ctx} (present : s.hasReader r = true) {nbytes total : Word}
    {src : List Byte} (fits : nbytes.toNat ≤ s.params.rcap) (bytes : src.length = nbytes.toNat)
    (bits : total.toNat ≤ 8 * nbytes.toNat) : Inv (s.bindReader r nbytes total src) := by
  refine hi.setReader ((Reader.inv_iff _ _).mpr ⟨wf_ofBytes src, fun _ => ⟨Nat.zero_le _, bits, fits, ?_⟩⟩) (.inl present)
  refine List.all_eq_true.mpr fun c hc => decide_eq_true ?_
  exact bytes ▸ Nat.zero_add src.length ▸ (mem_cellsFrom hc).2

theorem Inv.advanceReader {s : State} (hi : Inv s) {r : Ctx} (present : s.hasReader r = true)
    (opened : (s.reader r).st = .opened) {n : Nat} (enough : (s.reader r).hasBits n = true) :
    Inv (s.advanceReader r n) := by
  obtain ⟨hm, hb⟩ := (Reader.inv_iff _ _).mp (hi.reader r)
  obtain ⟨_, hrest⟩ := hb (by simp [opened])
  refine hi.setReader ((Reader.inv_iff _ _).mpr ⟨hm, fun _ => ⟨?_, hrest⟩⟩) (.inl present)
  rw [cursor_advance_toNat enough]
  exact (hasBits_iff _ _).mp enough

theorem Inv.poison {s : State} (hi : Inv s) {r : Ctx} (present : s.hasReader r = true)
    (opened : (s.reader r).st = .opened) : Inv (s.poison r) := by
  obtain ⟨hm, hb⟩ := (Reader.inv_iff _ _).mp (hi.reader r)
  obtain ⟨_, hrest⟩ := hb (by simp [opened])
  exact hi.setReader ((Reader.inv_iff _ _).mpr ⟨hm, fun _ => ⟨freeCursorUpTo_le _ _, hrest⟩⟩) (.inl present)

theorem Inv.take {s : State} (hi : Inv s) {e : Exception} (quiet : ∀ r, e ≠ .truncated r) : Inv (s.take e) := by
  cases e with
  | truncated r => exact absurd rfl (quiet r)
  | invalidData | illegalCommand | illegalState | poisoned | fatal => exact hi

/-- The reset state of a legal build, whatever the host has still to send. -/
theorem inv_of_idle {s : State} (hp : s.params.wf = true) (hw : ∀ w, s.writer w = Writer.atReset)
    (hr : ∀ r, s.reader r = Reader.atReset) : Inv s := by
  refine ⟨hp, fun w => ?_, fun r => ?_, fun w => .inr ?_, fun r => .inr ?_⟩ <;> simp only [hw, hr] <;> rfl

theorem Inv.applyReset {s : State} (hi : Inv s) (f h : Bool) : Inv (s.applyReset f h) :=
  inv_of_idle hi.1 (fun w => resetWith_writer s.params f h w) fun r => resetWith_reader s.params f h r

theorem Inv.exec {i : Instr} {s t : State} (hi : Inv s) (h : exec i s = .next t) : Inv t := by
  cases effect_of_exec h with
  | refused quiet => exact hi.take quiet
  | truncated _ present opened => exact (hi.poison present opened).respond
  | wOpen present =>
    refine (hi.setWriter ((Writer.inv_iff _ _).mpr ⟨rfl, fun _ => ?_⟩) (.inl present)).respond
    simp [cdiv8]
  | @wBits w width value present field opened room =>
    have hm := ((Writer.inv_iff _ _).mp (hi.writer w)).1
    exact (hi.extendWriter present opened room (wf_storeBits hm _ _ _) fun k hk =>
      streamBit_storeBits_outside hm field _ (.inr hk)).respond
  | @wAppend w v present _ opened room =>
    have hm := ((Writer.inv_iff _ _).mp (hi.writer w)).1
    exact ((hi.extendWriter present opened room (wf_copyBits hm _ _ _) fun k hk =>
      streamBit_copyBits_outside hm _ (.inr hk)).consumeWriter v).respond
  | @wFinish w present opened =>
    obtain ⟨hm, hb⟩ := (Writer.inv_iff _ _).mp (hi.writer w)
    exact (hi.setWriter (x := { s.writer w with st := .done })
      ((Writer.inv_iff _ _).mpr ⟨hm, fun _ => hb (by simp [opened])⟩) (.inl present)).respond
  | wByte => exact hi
  | @wArray w width elems present field opened room =>
    have hm := ((Writer.inv_iff _ _).mp (hi.writer w)).1
    exact (hi.extendWriter present opened room (wf_storeElems hm _ _ _) fun k hk =>
      streamBit_storeElems_outside hm field _ (.inr hk)).setFpTaken.respond
  | rOpen present fits bytes bits => exact (hi.bindReader present fits bytes bits).respond
  | rOpenB present fits bytes =>
    refine (hi.bindReader present fits bytes ?_).respond
    rw [BitVec.toNat_ofNat]
    exact Nat.mod_le _ _
  | rBits present opened enough => exact (hi.advanceReader present opened enough).respond
  | rPeek => exact hi
  | rRemain => exact hi
  | rArray present opened enough => exact (hi.advanceReader present opened enough).setFpTaken.respond
  | @rClose r =>
    have hm := ((Reader.inv_iff _ _).mp (hi.reader r)).1
    exact (hi.setReader (x := { s.reader r with st := .idle })
      ((Reader.inv_iff _ _).mpr ⟨hm, fun h => absurd rfl h⟩) (.inr rfl)).respond

theorem Inv.undecodable {s : State} (hi : Inv s) : Inv s.undecodable := by
  refine hi.take fun r => ?_
  split <;> exact nofun

/-- Settles O11: each kind of step keeps the invariant, a command by its effects. -/
theorem everyStepKeepsTheInvariant : Obligations.EveryStepKeepsTheInvariant := by
  intro s t hi h
  rcases step_cases s with ⟨_, hx⟩ | ⟨f, hl, _, _, hx⟩ | ⟨_, _, _, _, _, hx⟩ | ⟨_, _, i, _, _, hx⟩ <;> rw [hx] at h
  · exact Host.Outcome.next.inj h ▸ hi
  · exact Host.Outcome.next.inj h ▸ hi.dropEvent.applyReset f hl
  · exact Host.Outcome.next.inj h ▸ hi.dropEvent.undecodable
  · exact hi.dropEvent.exec h

/-- Settles O12: the invariant holds at reset and every step keeps it. -/
theorem everyReachableStateIsGood : Obligations.EveryReachableStateIsGood := by
  intro s hs
  induction hs with
  | reset p f h host legal =>
    exact inv_of_idle legal (fun w => resetWith_writer p f h w) fun r => resetWith_reader p f h r
  | step _ moves ih => exact everyStepKeepsTheInvariant _ _ ih moves

/-- Settles O9: every context at reset is `Writer.atReset` or `Reader.atReset`. -/
theorem resetStateIsIdleAndGood : Obligations.ResetStateIsIdleAndGood := by
  intro p f h
  refine ⟨fun w => ?_, fun r => ?_, rfl, rfl, rfl, fun legal => ?_⟩
  · rw [resetWith_writer]; rfl
  · rw [resetWith_reader]; rfl
  · have hi : Inv (State.resetWith p f h) := inv_of_idle legal (resetWith_writer p f h) (resetWith_reader p f h)
    exact ⟨hi, hi, rfl⟩

/-! ### Two states no command can tell apart (10_state R26, R30, R31) -/

theorem SameVisible.setWriter {s t : State} (h : SameVisible s t) (w : Ctx) {x y : Writer} (hxy : x.Same y) :
    SameVisible (s.setWriter w x) (t.setWriter w y) := by
  obtain ⟨hp, hf, hw, hr⟩ := h
  refine ⟨hp, hf, fun v => ?_, hr⟩
  rw [writer_setWriter, writer_setWriter]
  split
  · exact hxy
  · exact hw v

theorem SameVisible.setReader {s t : State} (h : SameVisible s t) (r : Ctx) {x y : Reader} (hxy : x.Same y) :
    SameVisible (s.setReader r x) (t.setReader r y) := by
  obtain ⟨hp, hf, hw, hr⟩ := h
  refine ⟨hp, hf, hw, fun q => ?_⟩
  rw [reader_setReader, reader_setReader]
  split
  · exact hxy
  · exact hr q

/-- The path taken is hidden (10_state R31). -/
theorem SameVisible.setFpTaken {s t : State} (h : SameVisible s t) {a b : Bool} :
    SameVisible (s.setFpTaken a) (t.setFpTaken b) := h

theorem SameVisible.writer_st {s t : State} (h : SameVisible s t) (w : Ctx) : (s.writer w).st = (t.writer w).st :=
  (h.2.2.1 w).1

theorem SameVisible.reader_st {s t : State} (h : SameVisible s t) (r : Ctx) : (s.reader r).st = (t.reader r).st :=
  (h.2.2.2 r).1

theorem SameVisible.writer_contents {s t : State} (h : SameVisible s t) {w : Ctx} (hst : (s.writer w).st ≠ .idle) :
    (s.writer w).cur = (t.writer w).cur ∧ (s.writer w).store = (t.writer w).store :=
  (h.2.2.1 w).2 hst

theorem SameVisible.reader_contents {s t : State} (h : SameVisible s t) {r : Ctx} (hst : (s.reader r).st = .opened) :
    (s.reader r).cur = (t.reader r).cur ∧ (s.reader r).total = (t.reader r).total ∧
      ∀ k, k < (s.reader r).total.toNat → streamBit (s.reader r).src k = streamBit (t.reader r).src k :=
  (h.2.2.2 r).2 hst

/-- Extending two writers alike by the same bits. -/
theorem SameVisible.extendWriter {s t : State} (h : SameVisible s t) {w : Ctx} (opened : (s.writer w).st = .opened)
    {n : Nat} {m : Memory} : SameVisible (s.extendWriter w n m) (t.extendWriter w n m) := by
  obtain ⟨hc, _⟩ := h.writer_contents (w := w) (by simp [opened])
  exact h.setWriter w ⟨h.writer_st w, fun _ => ⟨by rw [hc], rfl⟩⟩

theorem SameVisible.consumeWriter {s t : State} (h : SameVisible s t) (v : Ctx) :
    SameVisible (s.consumeWriter v) (t.consumeWriter v) :=
  h.setWriter v ⟨rfl, fun hne => absurd rfl hne⟩

theorem SameVisible.bindReader {s t : State} (h : SameVisible s t) (r : Ctx) (nbytes total : Word) (src : List Byte) :
    SameVisible (s.bindReader r nbytes total src) (t.bindReader r nbytes total src) :=
  h.setReader r ⟨rfl, fun _ => ⟨rfl, rfl, fun _ _ => rfl⟩⟩

theorem SameVisible.advanceReader {s t : State} (h : SameVisible s t) {r : Ctx} (opened : (s.reader r).st = .opened)
    (n : Nat) : SameVisible (s.advanceReader r n) (t.advanceReader r n) := by
  obtain ⟨hc, hrest⟩ := h.reader_contents opened
  exact h.setReader r ⟨h.reader_st r, fun _ => ⟨by rw [hc], hrest⟩⟩

/-- A poisoned reader shows no cursor, so the two free values need not agree (10_state R26). -/
theorem SameVisible.poison {s t : State} (h : SameVisible s t) (r : Ctx) : SameVisible (s.poison r) (t.poison r) :=
  h.setReader r ⟨rfl, nofun⟩

theorem SameVisible.exceptionChange {s t : State} (h : SameVisible s t) (e : Exception) :
    SameVisible (s.exceptionChange e) (t.exceptionChange e) := by
  cases e with
  | truncated r => exact h.poison r
  | fatal => exact ⟨h.1, rfl, h.2.2⟩
  | invalidData | illegalCommand | illegalState | poisoned => exact h

theorem SameVisible.legal_eq {s t : State} (h : SameVisible s t) (i : Instr) : s.legal i = t.legal i := by
  cases i <;> simp only [State.legal, State.hasWriter, State.hasReader, State.bindingOk, h.1]

theorem SameVisible.hasRoom_eq {s t : State} (h : SameVisible s t) {w : Ctx} (hst : (s.writer w).st ≠ .idle) (n : Nat) :
    s.hasRoom w n = t.hasRoom w n := by
  simp only [State.hasRoom, h.1, (h.writer_contents hst).1]

theorem SameVisible.hasBits_eq {s t : State} (h : SameVisible s t) {r : Ctx} (opened : (s.reader r).st = .opened)
    (n : Nat) : (s.reader r).hasBits n = (t.reader r).hasBits n := by
  obtain ⟨hc, ht, _⟩ := h.reader_contents opened
  simp only [Reader.hasBits, hc, ht]

theorem SameVisible.remaining_eq {s t : State} (h : SameVisible s t) {r : Ctx} (opened : (s.reader r).st = .opened) :
    (s.reader r).remaining = (t.reader r).remaining := by
  obtain ⟨hc, ht, _⟩ := h.reader_contents opened
  simp only [Reader.remaining, hc, ht]

/-- Bits that remain read alike: they lie below `total` (20_memory R68). -/
theorem SameVisible.loadBits_eq {s t : State} (h : SameVisible s t) {r : Ctx} (opened : (s.reader r).st = .opened)
    {n : Nat} (hn : n ≤ 64) (enough : (s.reader r).hasBits n = true) :
    loadBits (s.reader r).src (s.reader r).cur.toNat n = loadBits (t.reader r).src (t.reader r).cur.toNat n := by
  obtain ⟨hc, _, hsrc⟩ := h.reader_contents opened
  rw [← hc]
  exact loadBits_congr hn fun k hk => hsrc k (hk.trans_le ((hasBits_iff _ _).mp enough))

theorem SameVisible.loadElems_eq {s t : State} (h : SameVisible s t) {r : Ctx} (opened : (s.reader r).st = .opened)
    {width n : Nat} (hw : width ≤ 64) (enough : (s.reader r).hasBits (n * width) = true) :
    loadElems (s.reader r).src (s.reader r).cur.toNat width n =
      loadElems (t.reader r).src (t.reader r).cur.toNat width n := by
  obtain ⟨hc, _, hsrc⟩ := h.reader_contents opened
  rw [← hc]
  exact loadElems_congr hw fun k hk => hsrc k (hk.trans_le ((hasBits_iff _ _).mp enough))

/-! ### No access of a good state misses its store (10_state R32) -/

theorem sourceCovers_of_hasBits {s : State} (hi : Inv s) {r : Ctx} (opened : (s.reader r).st = .opened) {n : Nat}
    (enough : (s.reader r).hasBits n = true) : (s.reader r).sourceCovers n = true := by
  obtain ⟨_, htotal, _⟩ := ((Reader.inv_iff _ _).mp (hi.reader r)).2 (by simp [opened])
  have := (hasBits_iff _ _).mp enough
  rw [Reader.sourceCovers, Bool.or_eq_true_iff]
  rcases Nat.eq_zero_or_pos n with hn | hn
  · exact .inl (decide_eq_true hn)
  · refine .inr (decide_eq_true ?_)
    simp only [split, span, cdiv8, show n ≠ 0 by omega, if_false]
    omega

theorem index_lt_wcap {s : State} (hi : Inv s) {w : Ctx} (hst : (s.writer w).st ≠ .idle) {index : Nat}
    (h : index < cdiv8 (s.writer w).cur.toNat) : index < s.params.wcap := by
  obtain ⟨_, hneed, halloc, _⟩ := ((Writer.inv_iff _ _).mp (hi.writer w)).2 hst
  omega

/-! ### Outcomes the host cannot tell apart -/

/-- Both commands answer, with the same response, and leave states no later command can tell apart. -/
def Alike (x y : Result) : Prop :=
  ∃ s' t', x = .next s' ∧ y = .next t' ∧ s'.resp = t'.resp ∧ SameVisible s' t'

section
variable {s t : State}

theorem Alike.answer (h : SameVisible s t) {a b : Word} (hab : a = b) {es fs : List Word} (hef : es = fs) :
    Alike (answer s a es) (answer t b fs) :=
  ⟨_, _, rfl, rfl, by rw [hab, hef]; rfl, h⟩

theorem Alike.raise (h : SameVisible s t) (e : Exception) : Alike (raise e s) (raise e t) :=
  ⟨_, _, rfl, rfl, rfl, h.exceptionChange e⟩

theorem Alike.checked (h : SameVisible s t) (i : Instr) {x y : Result} (hxy : s.legal i = true → Alike x y) :
    Alike (checked s (s.legal i) x) (checked t (t.legal i) y) := by
  rw [Machine.checked, Machine.checked, ← h.2.1, ← h.legal_eq i]
  split
  · exact .raise h _
  · split
    · next hl => exact hxy hl
    · exact .raise h _

theorem Alike.needWriter (h : SameVisible s t) (w : Ctx) (st : WriterState) {x y : Result}
    (hxy : (s.writer w).st = st → Alike x y) : Alike (needWriter s w st x) (needWriter t w st y) := by
  rw [Machine.needWriter, Machine.needWriter, ← h.writer_st w]
  split
  · next hst => exact hxy hst
  · exact .raise h _

theorem Alike.needReader (h : SameVisible s t) (r : Ctx) {x y : Result}
    (hxy : (s.reader r).st = .opened → Alike x y) : Alike (needReader s r x) (needReader t r y) := by
  rw [Machine.needReader, Machine.needReader, ← h.reader_st r]
  cases hst : (s.reader r).st with
  | idle => exact .raise h _
  | poisoned => exact .raise h _
  | opened => exact hxy hst

theorem Alike.needRoom (h : SameVisible s t) {w : Ctx} (opened : (s.writer w).st = .opened) (n : Nat) {x y : Result}
    (hxy : Alike x y) : Alike (needRoom s w n x) (needRoom t w n y) := by
  rw [Machine.needRoom, Machine.needRoom, ← h.hasRoom_eq (by simp [opened])]
  split
  · exact hxy
  · exact .raise h _

theorem Alike.needBits (hs : Inv s) (ht : Inv t) (h : SameVisible s t) {r : Ctx} (opened : (s.reader r).st = .opened)
    (n : Nat) {x y : Result} (hxy : (s.reader r).hasBits n = true → Alike x y) :
    Alike (needBits s r n x) (needBits t r n y) := by
  rw [Machine.needBits, Machine.needBits, ← h.hasBits_eq opened]
  by_cases enough : (s.reader r).hasBits n = true
  · have enough' := h.hasBits_eq opened n ▸ enough
    rw [if_pos enough, if_pos enough, if_pos (sourceCovers_of_hasBits hs opened enough),
      if_pos (sourceCovers_of_hasBits ht (h.reader_st r ▸ opened) enough')]
    exact hxy enough
  · rw [if_neg enough, if_neg enough]
    exact .raise h _

end

/-- Every command answers alike in two good states that look alike. -/
theorem alike_exec {s t : State} (i : Instr) (hs : Inv s) (ht : Inv t) (h : SameVisible s t) :
    Alike (exec i s) (exec i t) := by
  cases i with
  | wOpen w =>
    exact .checked h (.wOpen w) fun _ => .answer (h.setWriter w ⟨rfl, fun _ => ⟨rfl, rfl⟩⟩) rfl rfl
  | wBits w width value =>
    refine .checked h (.wBits w width value) fun _ => .needWriter h w .opened fun ho => .needRoom h ho _ ?_
    obtain ⟨hc, hm⟩ := h.writer_contents (w := w) (by simp [ho])
    rw [← hc, ← hm]
    exact .answer (h.extendWriter ho) rfl rfl
  | wAppend w v =>
    refine .checked h (.wAppend w v) fun _ => .needWriter h w .opened fun ho => .needWriter h v .opened fun hv => ?_
    obtain ⟨hc, hm⟩ := h.writer_contents (w := w) (by simp [ho])
    obtain ⟨hc', hm'⟩ := h.writer_contents (w := v) (by simp [hv])
    rw [← hc, ← hm, ← hc', ← hm']
    exact .needRoom h ho _ (.answer ((h.extendWriter ho).consumeWriter v) rfl rfl)
  | wFinish w =>
    refine .checked h (.wFinish w) fun _ => .needWriter h w .opened fun ho => ?_
    have hsame := h.writer_contents (w := w) (by simp [ho])
    have hdone : ({ s.writer w with st := .done } : Writer).Same { t.writer w with st := .done } := ⟨rfl, fun _ => hsame⟩
    exact .answer (h.setWriter w hdone) hsame.1 rfl
  | wArray w width elems =>
    refine .checked h (.wArray w width elems) fun _ => .needWriter h w .opened fun ho => .needRoom h ho _ ?_
    obtain ⟨hc, hm⟩ := h.writer_contents (w := w) (by simp [ho])
    rw [← hc, ← hm]
    exact .answer (h.extendWriter ho).setFpTaken rfl rfl
  | wByte w index =>
    refine .checked h (.wByte w index) fun _ => .needWriter h w .done fun ho => ?_
    have hst : (s.writer w).st ≠ .idle := by simp [ho]
    obtain ⟨hc, hm⟩ := h.writer_contents hst
    rw [← hc, ← hm, ← h.1]
    split
    · next hlt =>
      rw [if_pos (index_lt_wcap hs hst hlt), if_pos (index_lt_wcap hs hst hlt)]
      exact .answer h rfl rfl
    · exact .raise h _
  | rOpen r nbytes total src =>
    exact .checked h (.rOpen r nbytes total src) fun _ => .answer (h.bindReader r nbytes total src) rfl rfl
  | rOpenB r nbytes src =>
    exact .checked h (.rOpenB r nbytes src) fun _ => .answer (h.bindReader r nbytes _ src) rfl rfl
  | rBits r width =>
    refine .checked h (.rBits r width) fun hl => .needReader h r fun ho => .needBits hs ht h ho _ fun enough => ?_
    have hn : width.toNat ≤ 64 := of_decide_eq_true (Bool.and_eq_true_iff.mp hl).2
    exact .answer (h.advanceReader ho _) (h.loadBits_eq ho hn enough) rfl
  | rPeek r width =>
    refine .checked h (.rPeek r width) fun hl => .needReader h r fun ho => .needBits hs ht h ho _ fun enough => ?_
    have hn : width.toNat ≤ 64 := of_decide_eq_true (Bool.and_eq_true_iff.mp hl).2
    exact .answer h (h.loadBits_eq ho hn enough) rfl
  | rRemain r =>
    exact .checked h (.rRemain r) fun _ => .needReader h r fun ho => .answer h (h.remaining_eq ho) rfl
  | rArray r width n =>
    refine .checked h (.rArray r width n) fun hl => .needReader h r fun ho => .needBits hs ht h ho _ fun enough => ?_
    have hn : width.toNat ≤ 64 :=
      of_decide_eq_true (Bool.and_eq_true_iff.mp (Bool.and_eq_true_iff.mp hl).2).2
    exact .answer (h.advanceReader ho _).setFpTaken rfl (h.loadElems_eq ho hn enough)
  | rClose r =>
    refine .checked h (.rClose r) fun _ => ?_
    have hclosed : SameVisible (s.setReader r { s.reader r with st := .idle })
        (t.setReader r { t.reader r with st := .idle }) := h.setReader r ⟨rfl, nofun⟩
    rw [← h.reader_st r]
    cases hst : (s.reader r).st with
    | idle => exact .raise h _
    | opened => exact .answer hclosed (h.remaining_eq hst) rfl
    | poisoned => exact .answer hclosed rfl rfl

/-- Settles O51: the checks, the response and the changes of each command are the same in both states. -/
theorem responsesDependOnVisibleStateOnly : Obligations.ResponsesDependOnVisibleStateOnly :=
  fun _ _ i hs ht h => alike_exec i hs ht h

/-! ### Writers along a run (10_state R22, R23) -/

/-- What an extension within the bits at the cursor does not touch: the bits below the old cursor, which does not fall. -/
theorem extendWriter_appends {s : State} (hi : Inv s) {w : Ctx} {n : Nat} (room : s.hasRoom w n = true) {m : Memory}
    (below : ∀ k, k < (s.writer w).cur.toNat → streamBit m k = streamBit (s.writer w).store k) (u : Ctx) :
    (∀ k, k < (s.writer u).cur.toNat →
        streamBit ((s.extendWriter w n m).writer u).store k = streamBit (s.writer u).store k) ∧
      (s.writer u).cur.toNat ≤ ((s.extendWriter w n m).writer u).cur.toNat := by
  rw [writer_extendWriter]
  split
  · next hu =>
    subst hu
    refine ⟨below, ?_⟩
    simp only [cursor_extend_toNat hi.1 room]
    omega
  · exact ⟨fun _ _ => rfl, le_rfl⟩

/-- No command but `W_OPEN` of the writer changes a bit below its cursor, unless it consumes the writer, and none lowers the
cursor of a writer that stays in use (10_state R22 items 3 and 4). -/
theorem exec_appends {s t : State} {i : Instr} {u : Ctx} (hi : Inv s) (hne : i ≠ .wOpen u) (h : exec i s = .next t)
    (hst : (t.writer u).st ≠ .idle) :
    (∀ k, k < (s.writer u).cur.toNat → streamBit (t.writer u).store k = streamBit (s.writer u).store k) ∧
      (s.writer u).cur.toNat ≤ (t.writer u).cur.toNat := by
  have same {t' : State} (hw : t'.writer u = s.writer u) :
      (∀ k, k < (s.writer u).cur.toNat → streamBit (t'.writer u).store k = streamBit (s.writer u).store k) ∧
        (s.writer u).cur.toNat ≤ (t'.writer u).cur.toNat := by
    rw [hw]
    exact ⟨fun _ _ => rfl, le_rfl⟩
  have hm (w : Ctx) : (s.writer w).store.wf = true := ((Writer.inv_iff _ _).mp (hi.writer w)).1
  cases effect_of_exec h with
  | refused | truncated => exact same (take_writer _ _ _)
  | @wOpen w =>
    have hu : u ≠ w := by rintro rfl; exact hne rfl
    exact same ((writer_setWriter _ _ _ _).trans (if_neg hu))
  | wBits _ field _ room =>
    exact extendWriter_appends hi room (fun k hk => streamBit_storeBits_outside (hm _) field _ (.inl hk)) u
  | @wAppend w v _ _ _ room =>
    rw [respond_writer, writer_consumeWriter] at hst ⊢
    split
    · next hu => rw [if_pos hu] at hst; exact absurd rfl hst
    · exact extendWriter_appends hi room (fun k hk => streamBit_copyBits_outside (hm _) _ (.inl hk)) u
  | @wFinish w =>
    rw [respond_writer, writer_setWriter]
    split
    · next hu => subst hu; exact ⟨fun _ _ => rfl, le_rfl⟩
    · exact ⟨fun _ _ => rfl, le_rfl⟩
  | wArray _ field _ room =>
    exact extendWriter_appends hi room (fun k hk => streamBit_storeElems_outside (hm _) field _ (.inl hk)) u
  | wByte | rOpen | rOpenB | rBits | rPeek | rRemain | rArray | rClose => exact same rfl

/-- Settles O14: the bounds are the writer's part of the invariant, the rest is `exec_appends`. -/
theorem writerInvariantsHold : Obligations.WriterInvariantsHold := by
  refine ⟨fun s w hs hst => ?_, fun s t i w hi _ hne h => ⟨fun hst => ?_, fun hst => ?_⟩⟩
  · have hi := everyReachableStateIsGood s hs
    obtain ⟨hcap, hneed, _, hzero⟩ := ((Writer.inv_iff _ _).mp (hi.writer w)).2 hst
    refine ⟨hcap, ?_, hneed, hzero⟩
    rw [cdiv8] at hneed
    omega
  · exact (exec_appends hi hne h hst).1
  · exact (exec_appends hi hne h (by simp [hst])).2

/-! ### Readers along a run (10_state R25) -/

/-- `y` is bound as `x` is, and its cursor has not fallen unless it is unspecified. -/
def Reader.Follows (x y : Reader) : Prop :=
  y.total = x.total ∧ y.nbytes = x.nbytes ∧ y.src = x.src ∧
    (x.st = .opened → y.st = .opened → x.cur.toNat ≤ y.cur.toNat)

theorem Reader.Follows.refl (x : Reader) : x.Follows x := ⟨rfl, rfl, rfl, fun _ _ => le_rfl⟩

theorem follows_advanceReader {s : State} {r : Ctx} {n : Nat} (enough : (s.reader r).hasBits n = true) (q : Ctx) :
    (s.reader q).Follows ((s.advanceReader r n).reader q) := by
  rw [reader_advanceReader]
  split
  · next hq =>
    subst hq
    refine ⟨rfl, rfl, rfl, fun _ _ => ?_⟩
    rw [cursor_advance_toNat enough]
    omega
  · exact .refl _

theorem follows_poison (s : State) (r q : Ctx) : (s.reader q).Follows ((s.poison r).reader q) := by
  rw [reader_poison]
  split
  · next hq => exact hq ▸ ⟨rfl, rfl, rfl, fun _ => nofun⟩
  · exact .refl _

/-- Another command than an open or close of the reader keeps its binding (10_state R25 items 3 and 4). -/
theorem exec_follows {s t : State} {i : Instr} {q : Ctx} (hopen : ∀ nbytes total src, i ≠ .rOpen q nbytes total src)
    (hopenB : ∀ nbytes src, i ≠ .rOpenB q nbytes src) (hclose : i ≠ .rClose q) (h : exec i s = .next t) :
    (s.reader q).Follows (t.reader q) := by
  have same {t' : State} (hr : t'.reader q = s.reader q) : (s.reader q).Follows (t'.reader q) := hr ▸ .refl _
  cases effect_of_exec h with
  | refused quiet => exact same (take_reader s quiet q)
  | truncated => exact follows_poison s _ q
  | @rOpen r nbytes total src =>
    have hq : q ≠ r := by rintro rfl; exact hopen nbytes total src rfl
    exact same ((reader_bindReader _ _ _ _ _ _).trans (if_neg hq))
  | @rOpenB r nbytes src =>
    have hq : q ≠ r := by rintro rfl; exact hopenB nbytes src rfl
    exact same ((reader_bindReader _ _ _ _ _ _).trans (if_neg hq))
  | rBits _ _ enough => exact follows_advanceReader enough q
  | rArray _ _ enough => exact follows_advanceReader enough q
  | @rClose r =>
    have hq : q ≠ r := by rintro rfl; exact hclose rfl
    exact same ((reader_setReader _ _ _ _).trans (if_neg hq))
  | wOpen | wBits | wAppend | wFinish | wByte | wArray | rPeek | rRemain => exact same rfl

/-- Settles O15: the bounds are the reader's part of the invariant, the rest is `exec_follows`. -/
theorem readerInvariantsHold : Obligations.ReaderInvariantsHold := by
  refine ⟨fun s r hs hst => ?_, fun s t i r _ _ hopen hopenB hclose h => exec_follows hopen hopenB hclose h⟩
  have hi := everyReachableStateIsGood s hs
  obtain ⟨hcur, htotal, hcap, _⟩ := ((Reader.inv_iff _ _).mp (hi.reader r)).2 hst
  exact ⟨hcur, htotal, hcap⟩

/-! ### What the writer commands leave unchanged (10_state R29, 20_memory R66, R70) -/

/-- Equal but for the writers, `FATAL`, the path taken and the response. -/
def SameBesideWriters (s t : State) : Prop :=
  t.readers = s.readers ∧ t.params = s.params ∧ t.fastEn = s.fastEn ∧ t.hostLe = s.hostLe ∧ t.input = s.input ∧
    t.freeCount = s.freeCount

theorem SameBesideWriters.take (s : State) {e : Exception} (quiet : ∀ r, e ≠ .truncated r) :
    SameBesideWriters s (s.take e) := by
  cases e with
  | truncated r => exact absurd rfl (quiet r)
  | invalidData | illegalCommand | illegalState | poisoned | fatal => exact ⟨rfl, rfl, rfl, rfl, rfl, rfl⟩

section
variable {s t : State} {i : Instr}

theorem exec_sameBesideWriters (hw : Instr.readersNamed i = []) (h : exec i s = .next t) : SameBesideWriters s t := by
  cases effect_of_exec h with
  | refused quiet => exact .take s quiet
  | truncated named => rw [hw] at named; exact nomatch named
  | wOpen | wBits | wAppend | wFinish | wByte | wArray => exact ⟨rfl, rfl, rfl, rfl, rfl, rfl⟩
  | rOpen | rOpenB | rBits | rPeek | rRemain | rArray | rClose => exact nomatch hw

theorem exec_writer_unnamed {u : Ctx} (hu : u ∉ Instr.writersNamed i) (h : exec i s = .next t) :
    t.writer u = s.writer u := by
  cases effect_of_exec h with
  | refused | truncated => exact take_writer _ _ _
  | wOpen | wBits | wFinish | wArray =>
    refine (writer_setWriter _ _ _ _).trans (if_neg ?_)
    rintro rfl
    exact hu List.mem_cons_self
  | wAppend =>
    simp only [Instr.writersNamed, List.mem_cons, List.not_mem_nil, or_false, not_or] at hu
    rw [respond_writer, writer_consumeWriter, if_neg hu.2, writer_extendWriter, if_neg hu.1]
  | wByte | rOpen | rOpenB | rBits | rPeek | rRemain | rArray | rClose => rfl

/-- `FATAL` is set only with the answer `Fatal` (60_exceptions R246). -/
theorem exec_fatal_eq (h : exec i s = .next t) (hans : ∀ a, t.resp = some a → a.status ≠ .fatal) :
    t.fatal = s.fatal := by
  cases effect_of_exec h with
  | @refused _ e =>
    cases e with
    | fatal => exact absurd rfl (hans _ rfl)
    | truncated | invalidData | illegalCommand | illegalState | poisoned => rfl
  | truncated | wOpen | wBits | wAppend | wFinish | wByte | wArray => rfl
  | rOpen | rOpenB | rBits | rPeek | rRemain | rArray | rClose => rfl

/-- Only the array commands record a path (10_state R31, 43_fastpath_array R181). -/
theorem exec_fpTaken_eq (hw : ∀ w width elems, i ≠ .wArray w width elems) (hr : ∀ r width n, i ≠ .rArray r width n)
    (h : exec i s = .next t) : t.fpTaken = s.fpTaken := by
  cases effect_of_exec h with
  | @refused _ e => cases e <;> rfl
  | wArray => exact absurd rfl (hw _ _ _)
  | rArray => exact absurd rfl (hr _ _ _)
  | truncated | wOpen | wBits | wAppend | wFinish | wByte => rfl
  | rOpen | rOpenB | rBits | rPeek | rRemain | rClose => rfl

end

theorem store_extendWriter (s : State) (w : Ctx) (n : Nat) (m : Memory) : ((s.extendWriter w n m).writer w).store = m := by
  rw [writer_extendWriter, if_pos rfl]

/-- `W_BITS` touches the bytes its field spans only. -/
theorem exec_wBits_readByte {s t : State} {w : Ctx} {width : Width} {value : Word} {a : Nat}
    (h : exec (.wBits w width value) s = .next t)
    (ha : a < (split (s.writer w).cur.toNat).1 ∨
      (split (s.writer w).cur.toNat).1 + span (split (s.writer w).cur.toNat).2 width.toNat ≤ a) :
    readByte (t.writer w).store a = readByte (s.writer w).store a := by
  cases effect_of_exec h with
  | refused | truncated => rw [take_writer]
  | wBits =>
    rw [respond_writer, store_extendWriter]
    exact readByte_storeBits_outside _ _ (outside_of_outside_span ha)

/-- `W_ARRAY` touches the bytes its elements span only. -/
theorem exec_wArray_readByte {s t : State} {w : Ctx} {width : Width} {elems : List Word} {a : Nat}
    (h : exec (.wArray w width elems) s = .next t)
    (ha : a < (split (s.writer w).cur.toNat).1 ∨
      (split (s.writer w).cur.toNat).1 + span (split (s.writer w).cur.toNat).2 (elems.length * width.toNat) ≤ a) :
    readByte (t.writer w).store a = readByte (s.writer w).store a := by
  cases effect_of_exec h with
  | refused | truncated => rw [take_writer]
  | wArray =>
    rw [respond_writer, setFpTaken_writer, store_extendWriter]
    exact readByte_storeElems_outside _ _ (outside_of_outside_span ha)

/-- `W_APPEND` touches the bytes the appended bits span only. -/
theorem exec_wAppend_readByte {s t : State} {w v : Ctx} {a : Nat} (h : exec (.wAppend w v) s = .next t)
    (ha : a < (split (s.writer w).cur.toNat).1 ∨
      (split (s.writer w).cur.toNat).1 + span (split (s.writer w).cur.toNat).2 (s.writer v).cur.toNat ≤ a) :
    readByte (t.writer w).store a = readByte (s.writer w).store a := by
  cases effect_of_exec h with
  | refused | truncated => rw [take_writer]
  | wAppend _ apart =>
    rw [respond_writer, writer_consumeWriter, if_neg apart, store_extendWriter]
    exact readByte_copyBits_outside _ _ (outside_of_outside_span ha)

/-- The appended writer keeps its store and cursor (log 9). -/
theorem exec_wAppend_source {s t : State} {w v : Ctx} (h : exec (.wAppend w v) s = .next t) :
    (t.writer v).store = (s.writer v).store ∧ (t.writer v).cur = (s.writer v).cur := by
  cases effect_of_exec h with
  | refused | truncated => rw [take_writer]; exact ⟨rfl, rfl⟩
  | wAppend _ apart =>
    rw [respond_writer, writer_consumeWriter, if_pos rfl, writer_extendWriter, if_neg apart.symm]
    exact ⟨rfl, rfl⟩

/-- `W_FINISH` and `W_BYTE` store nothing (41_writer_ops R144, R145). -/
theorem exec_storeless {s t : State} {i : Instr} {w : Ctx} (hi : i = .wFinish w ∨ ∃ index, i = .wByte w index)
    (h : exec i s = .next t) : (t.writer w).store = (s.writer w).store ∧ (t.writer w).cur = (s.writer w).cur := by
  rcases hi with rfl | ⟨index, rfl⟩
  · cases effect_of_exec h with
    | refused | truncated => rw [take_writer]; exact ⟨rfl, rfl⟩
    | wFinish => rw [respond_writer, writer_setWriter_same]; exact ⟨rfl, rfl⟩
  · cases effect_of_exec h with
    | refused | truncated => rw [take_writer]; exact ⟨rfl, rfl⟩
    | wByte => exact ⟨rfl, rfl⟩

/-- Settles O34, clause by clause. -/
theorem writerCommandsFrame : Obligations.WriterCommandsFrame := by
  intro s t i hw h
  obtain ⟨hr, hp, hf, hl, hin, hfree⟩ := exec_sameBesideWriters hw h
  refine ⟨hr, hp, hf, hl, hin, hfree, fun u hu => exec_writer_unnamed hu h, exec_fatal_eq h, fun hna => ?_,
    ?_, ?_, ?_, ?_, fun w hi => exec_storeless hi h⟩
  · exact exec_fpTaken_eq hna (fun r width n hi => by rw [hi] at hw; exact nomatch hw) h
  · rintro w width value a rfl ha
    exact exec_wBits_readByte h ha
  · rintro w width elems a rfl ha
    exact exec_wArray_readByte h ha
  · rintro w v a rfl ha
    exact exec_wAppend_readByte h ha
  · rintro w v rfl _
    exact exec_wAppend_source h

end Sys2Proof.Machine

namespace Sys2Proof.Machine

/-! ### A command sees and changes the contexts it names only (20_memory R74) -/

theorem Reader.SameButPoison.of_eq {x y : Reader} (h : x = y) : x.SameButPoison y := .inl h.symm

theorem Reader.SameButPoison.symm {x y : Reader} (h : x.SameButPoison y) : y.SameButPoison x := by
  rcases h with rfl | ⟨hst, hy⟩
  · exact .inl rfl
  · exact .inr ⟨by rw [hy]; exact hst, by rw [hy]⟩

/-- Two states with the same build and the same `FATAL`, whose contexts that `i` names are the same writers and readers related
by `R`: equal before a command, and equal but for an unspecified cursor after it. -/
structure AgreeOn (i : Instr) (R : Reader → Reader → Prop) (s t : State) : Prop where
  params : s.params = t.params
  fatal : s.fatal = t.fatal
  writer : ∀ w ∈ Instr.writersNamed i, s.writer w = t.writer w
  reader : ∀ r ∈ Instr.readersNamed i, R (s.reader r) (t.reader r)

/-- If the first outcome is a state, so is the second, with the same response and the same contexts among those `i` names. -/
def AlikeOn (i : Instr) (x y : Result) : Prop :=
  ∀ s', x = .next s' → ∃ t', y = .next t' ∧ s'.resp = t'.resp ∧ AgreeOn i Reader.SameButPoison s' t'

section
variable {i : Instr} {s t : State}

theorem AgreeOn.butPoison (h : AgreeOn i Eq s t) : AgreeOn i Reader.SameButPoison s t :=
  ⟨h.params, h.fatal, h.writer, fun r hr => .of_eq (h.reader r hr)⟩

theorem AgreeOn.setWriter {R : Reader → Reader → Prop} (h : AgreeOn i R s t) (w : Ctx) {x y : Writer} (hxy : x = y) :
    AgreeOn i R (s.setWriter w x) (t.setWriter w y) := by
  refine ⟨h.params, h.fatal, fun v hv => ?_, h.reader⟩
  rw [writer_setWriter, writer_setWriter, hxy, h.writer v hv]

theorem AgreeOn.setReader {R : Reader → Reader → Prop} (h : AgreeOn i R s t) (r : Ctx) {x y : Reader} (hxy : R x y) :
    AgreeOn i R (s.setReader r x) (t.setReader r y) := by
  refine ⟨h.params, h.fatal, h.writer, fun q hq => ?_⟩
  rw [reader_setReader, reader_setReader]
  split
  · exact hxy
  · exact h.reader q hq

/-- The path taken is no part of a context (10_state R31). -/
theorem AgreeOn.setFpTaken {R : Reader → Reader → Prop} (h : AgreeOn i R s t) {a b : Bool} :
    AgreeOn i R (s.setFpTaken a) (t.setFpTaken b) := ⟨h.params, h.fatal, h.writer, h.reader⟩

theorem AgreeOn.extendWriter {R : Reader → Reader → Prop} (h : AgreeOn i R s t) {w : Ctx}
    (hw : w ∈ Instr.writersNamed i) (n : Nat) (m : Memory) : AgreeOn i R (s.extendWriter w n m) (t.extendWriter w n m) :=
  h.setWriter w (by rw [h.writer w hw, h.params])

theorem AgreeOn.consumeWriter {R : Reader → Reader → Prop} (h : AgreeOn i R s t) {v : Ctx}
    (hv : v ∈ Instr.writersNamed i) : AgreeOn i R (s.consumeWriter v) (t.consumeWriter v) :=
  h.setWriter v (by rw [h.writer v hv])

theorem AgreeOn.advanceReader (h : AgreeOn i Eq s t) {r : Ctx} (hr : r ∈ Instr.readersNamed i) (n : Nat) :
    AgreeOn i Eq (s.advanceReader r n) (t.advanceReader r n) :=
  h.setReader r (by rw [h.reader r hr])

/-- The two free cursors need not agree, and nothing else of the poisoned reader differs (10_state R26). -/
theorem AgreeOn.poison (h : AgreeOn i Eq s t) (r : Ctx) : AgreeOn i Reader.SameButPoison (s.poison r) (t.poison r) := by
  refine ⟨h.params, h.fatal, h.writer, fun q hq => ?_⟩
  rw [reader_poison, reader_poison]
  split
  · next hqr => exact .inr ⟨rfl, by rw [← hqr, h.reader q hq]⟩
  · exact .of_eq (h.reader q hq)

theorem AgreeOn.exceptionChange (h : AgreeOn i Eq s t) (e : Exception) :
    AgreeOn i Reader.SameButPoison (s.exceptionChange e) (t.exceptionChange e) := by
  cases e with
  | truncated r => exact h.poison r
  | fatal => exact ⟨h.params, rfl, h.writer, h.butPoison.reader⟩
  | invalidData | illegalCommand | illegalState | poisoned => exact h.butPoison

theorem AgreeOn.legal_eq {R : Reader → Reader → Prop} (h : AgreeOn i R s t) (j : Instr) : s.legal j = t.legal j := by
  cases j <;> simp only [State.legal, State.hasWriter, State.hasReader, State.bindingOk, h.params]

theorem AlikeOn.answer (h : AgreeOn i Eq s t) (r0 : Word) (es : List Word) :
    AlikeOn i (answer s r0 es) (answer t r0 es) := by
  rintro _ ⟨⟩
  exact ⟨_, rfl, rfl, h.params, h.fatal, h.writer, h.butPoison.reader⟩

theorem AlikeOn.raise (h : AgreeOn i Eq s t) (e : Exception) : AlikeOn i (raise e s) (raise e t) := by
  rintro _ ⟨⟩
  have he := h.exceptionChange e
  exact ⟨_, rfl, rfl, he.params, he.fatal, he.writer, he.reader⟩

theorem AlikeOn.checked (h : AgreeOn i Eq s t) {x y : Result} (hxy : AlikeOn i x y) :
    AlikeOn i (checked s (s.legal i) x) (checked t (t.legal i) y) := by
  rw [Machine.checked, Machine.checked, ← h.fatal, ← h.legal_eq i]
  split
  · exact .raise h _
  · split
    · exact hxy
    · exact .raise h _

theorem AlikeOn.needWriter (h : AgreeOn i Eq s t) {w : Ctx} (hw : w ∈ Instr.writersNamed i) (st : WriterState)
    {x y : Result} (hxy : AlikeOn i x y) : AlikeOn i (needWriter s w st x) (needWriter t w st y) := by
  rw [Machine.needWriter, Machine.needWriter, ← h.writer w hw]
  split
  · exact hxy
  · exact .raise h _

theorem AlikeOn.needReader (h : AgreeOn i Eq s t) {r : Ctx} (hr : r ∈ Instr.readersNamed i) {x y : Result}
    (hxy : AlikeOn i x y) : AlikeOn i (needReader s r x) (needReader t r y) := by
  rw [Machine.needReader, Machine.needReader, ← h.reader r hr]
  cases (s.reader r).st with
  | idle => exact .raise h _
  | poisoned => exact .raise h _
  | opened => exact hxy

theorem AlikeOn.needRoom (h : AgreeOn i Eq s t) {w : Ctx} (hw : w ∈ Instr.writersNamed i) (n : Nat) {x y : Result}
    (hxy : AlikeOn i x y) : AlikeOn i (needRoom s w n x) (needRoom t w n y) := by
  rw [Machine.needRoom, Machine.needRoom, State.hasRoom, State.hasRoom, ← h.writer w hw, ← h.params]
  split
  · exact hxy
  · exact .raise h _

/-- A read outside the source is a fault in both states, so the states need not be good. -/
theorem AlikeOn.needBits (h : AgreeOn i Eq s t) {r : Ctx} (hr : r ∈ Instr.readersNamed i) (n : Nat) {x y : Result}
    (hxy : AlikeOn i x y) : AlikeOn i (needBits s r n x) (needBits t r n y) := by
  rw [Machine.needBits, Machine.needBits, ← h.reader r hr]
  split
  · split
    · exact hxy
    · exact nofun
  · exact .raise h _

end

/-- A command is answered alike, and leaves alike the contexts it names, in two states that agree on those. -/
theorem alikeOn_exec {i : Instr} {s t : State} (h : AgreeOn i Eq s t) : AlikeOn i (exec i s) (exec i t) := by
  cases i with
  | wOpen w => exact .checked h (.answer (h.setWriter w rfl) _ _)
  | wBits w width value =>
    have hw : w ∈ Instr.writersNamed (.wBits w width value) := List.mem_cons_self
    refine .checked h (.needWriter h hw _ (.needRoom h hw _ ?_))
    rw [← h.writer w hw]
    exact .answer (h.extendWriter hw _ _) _ _
  | wAppend w v =>
    have hw : w ∈ Instr.writersNamed (.wAppend w v) := List.mem_cons_self
    have hv : v ∈ Instr.writersNamed (.wAppend w v) := List.mem_cons_of_mem w List.mem_cons_self
    refine .checked h (.needWriter h hw _ (.needWriter h hv _ ?_))
    rw [← h.writer w hw, ← h.writer v hv]
    exact .needRoom h hw _ (.answer ((h.extendWriter hw _ _).consumeWriter hv) _ _)
  | wFinish w =>
    have hw : w ∈ Instr.writersNamed (.wFinish w) := List.mem_cons_self
    refine .checked h (.needWriter h hw _ ?_)
    rw [← h.writer w hw]
    exact .answer (h.setWriter w rfl) _ _
  | wArray w width elems =>
    have hw : w ∈ Instr.writersNamed (.wArray w width elems) := List.mem_cons_self
    refine .checked h (.needWriter h hw _ (.needRoom h hw _ ?_))
    rw [← h.writer w hw]
    exact .answer (h.extendWriter hw _ _).setFpTaken _ _
  | wByte w index =>
    have hw : w ∈ Instr.writersNamed (.wByte w index) := List.mem_cons_self
    refine .checked h (.needWriter h hw _ ?_)
    rw [← h.writer w hw, ← h.params]
    split
    · split
      · exact .answer h _ _
      · exact nofun
    · exact .raise h _
  | rOpen r nbytes total src => exact .checked h (.answer (h.setReader r rfl) _ _)
  | rOpenB r nbytes src => exact .checked h (.answer (h.setReader r rfl) _ _)
  | rBits r width =>
    have hr : r ∈ Instr.readersNamed (.rBits r width) := List.mem_cons_self
    refine .checked h (.needReader h hr (.needBits h hr _ ?_))
    rw [← h.reader r hr]
    exact .answer (h.advanceReader hr _) _ _
  | rPeek r width =>
    have hr : r ∈ Instr.readersNamed (.rPeek r width) := List.mem_cons_self
    refine .checked h (.needReader h hr (.needBits h hr _ ?_))
    rw [← h.reader r hr]
    exact .answer h _ _
  | rRemain r =>
    have hr : r ∈ Instr.readersNamed (.rRemain r) := List.mem_cons_self
    refine .checked h (.needReader h hr ?_)
    rw [← h.reader r hr]
    exact .answer h _ _
  | rArray r width n =>
    have hr : r ∈ Instr.readersNamed (.rArray r width n) := List.mem_cons_self
    refine .checked h (.needReader h hr (.needBits h hr _ ?_))
    rw [← h.reader r hr]
    exact .answer (h.advanceReader hr _).setFpTaken _ _
  | rClose r =>
    have hr : r ∈ Instr.readersNamed (.rClose r) := List.mem_cons_self
    refine .checked h ?_
    rw [← h.reader r hr]
    cases (s.reader r).st with
    | idle => exact .raise h _
    | opened => exact .answer (h.setReader r rfl) _ _
    | poisoned => exact .answer (h.setReader r rfl) _ _

section
variable {i : Instr} {s t : State}

theorem exec_reader_unnamed {q : Ctx} (hq : q ∉ Instr.readersNamed i) (h : exec i s = .next t) :
    t.reader q = s.reader q := by
  cases effect_of_exec h with
  | refused quiet => exact take_reader s quiet q
  | truncated named =>
    refine (reader_poison _ _ _).trans (if_neg ?_)
    rintro rfl
    exact hq named
  | rOpen | rOpenB | rBits | rArray | rClose =>
    refine (reader_setReader _ _ _ _).trans (if_neg ?_)
    rintro rfl
    exact hq List.mem_cons_self
  | wOpen | wBits | wAppend | wFinish | wByte | wArray | rPeek | rRemain => rfl

/-- The build and the straps are no command's to change (10_state R30, 70_reset R271). -/
theorem exec_config_eq (h : exec i s = .next t) :
    t.params = s.params ∧ t.fastEn = s.fastEn ∧ t.hostLe = s.hostLe := by
  cases effect_of_exec h with
  | @refused _ e => cases e <;> exact ⟨rfl, rfl, rfl⟩
  | truncated | wOpen | wBits | wAppend | wFinish | wByte | wArray => exact ⟨rfl, rfl, rfl⟩
  | rOpen | rOpenB | rBits | rPeek | rRemain | rArray | rClose => exact ⟨rfl, rfl, rfl⟩

/-- No command clears `FATAL` (60_exceptions R246). -/
theorem fatal_eq_false_of_exec (h : exec i s = .next t) (ht : t.fatal = false) : s.fatal = false := by
  cases effect_of_exec h with
  | @refused _ e =>
    cases e with
    | fatal => exact nomatch ht
    | truncated | invalidData | illegalCommand | illegalState | poisoned => exact ht
  | truncated | wOpen | wBits | wAppend | wFinish | wByte | wArray => exact ht
  | rOpen | rOpenB | rBits | rPeek | rRemain | rArray | rClose => exact ht

/-- A command that raises no `Fatal` leaves alone all that a command on other contexts sees. -/
theorem agreeOn_of_exec_disjoint {j : Instr} (hw : ∀ w ∈ Instr.writersNamed j, w ∉ Instr.writersNamed i)
    (hr : ∀ r ∈ Instr.readersNamed j, r ∉ Instr.readersNamed i) (h : exec i s = .next t) (ht : t.fatal = false) :
    AgreeOn j Eq s t where
  params := (exec_config_eq h).1.symm
  fatal := (fatal_eq_false_of_exec h ht).trans ht.symm
  writer w hwj := (exec_writer_unnamed (hw w hwj) h).symm
  reader r hrj := (exec_reader_unnamed (hr r hrj) h).symm

end

/-- Settles O52: each command is answered in the state the other left as it was before it, so the contexts that `i` names end
as `i` leaves them, those that `j` names as `j` leaves them, and the others as they were. -/
theorem disjointCommandsCommute : Obligations.DisjointCommandsCommute := by
  intro s s1 s2 i j hw hr h1 h2 hf1 hf2
  have hj := agreeOn_of_exec_disjoint (fun w hwj hwi => hw w hwi hwj) (fun r hrj hri => hr r hri hrj) h1 hf1
  obtain ⟨s12, h12, hresp12, hsame12⟩ := alikeOn_exec hj s2 h2
  obtain ⟨s21, h21, hresp21, hsame21⟩ := alikeOn_exec (agreeOn_of_exec_disjoint hw hr h2 hf2) s1 h1
  obtain ⟨hp1, he1, hl1⟩ := exec_config_eq h1
  obtain ⟨_, he2, hl2⟩ := exec_config_eq h2
  obtain ⟨_, he12, hl12⟩ := exec_config_eq h12
  obtain ⟨_, he21, hl21⟩ := exec_config_eq h21
  refine ⟨s12, s21, h12, h21, hresp12.symm, hresp21.symm, ?_, ?_, ?_, ?_, fun w => ?_, fun r => ?_⟩
  · rw [(exec_config_eq h12).1, hsame21.params]
  · rw [← hsame12.fatal, ← hsame21.fatal, hf1, hf2]
  · rw [he12, he1, he21, he2]
  · rw [hl12, hl1, hl21, hl2]
  · by_cases hwj : w ∈ Instr.writersNamed j
    · have hwi : w ∉ Instr.writersNamed i := fun hwi => hw w hwi hwj
      rw [← hsame12.writer w hwj, exec_writer_unnamed hwi h21]
    · rw [exec_writer_unnamed hwj h12]
      by_cases hwi : w ∈ Instr.writersNamed i
      · exact hsame21.writer w hwi
      · rw [exec_writer_unnamed hwi h1, exec_writer_unnamed hwi h21, exec_writer_unnamed hwj h2]
  · by_cases hrj : r ∈ Instr.readersNamed j
    · have hri : r ∉ Instr.readersNamed i := fun hri => hr r hri hrj
      rw [exec_reader_unnamed hri h21]
      exact (hsame12.reader r hrj).symm
    · rw [exec_reader_unnamed hrj h12]
      by_cases hri : r ∈ Instr.readersNamed i
      · exact hsame21.reader r hri
      · rw [exec_reader_unnamed hri h1, exec_reader_unnamed hri h21, exec_reader_unnamed hrj h2]
        exact .of_eq rfl

/-! ### The integer view of a store (20_memory R63) -/

theorem storeInt_cons (a : Nat) (b : Byte) (m : Memory) :
    storeInt ((a, b) :: m) = b.toNat * 256 ^ a + storeInt m := by
  simp only [storeInt, List.map_cons, List.sum_cons]

/-- A store that lists no address below `lo` is a multiple of `256^lo`. -/
theorem two_pow_dvd_storeInt {lo : Nat} {m : Memory} (hm : Memory.wfFrom lo m = true) : 2 ^ (8 * lo) ∣ storeInt m := by
  induction m generalizing lo with
  | nil => exact Nat.dvd_zero _
  | cons cell m ih =>
    obtain ⟨a, b⟩ := cell
    obtain ⟨hlo, _, hm'⟩ := (Memory.wfFrom_cons _ _ _ _).mp hm
    rw [storeInt_cons, show 256 = 2 ^ 8 from rfl, ← Nat.pow_mul]
    exact (Dvd.dvd.mul_left (Nat.pow_dvd_pow 2 (by omega)) _).add ((Nat.pow_dvd_pow 2 (by omega)).trans (ih hm'))

theorem streamBit_cons (a : Nat) (b : Byte) (m : Memory) (k : Nat) :
    streamBit ((a, b) :: m) k = if k / 8 = a then b.getLsbD (k % 8) else streamBit m k := by
  simp only [streamBit, readByte]
  split <;> rfl

/-- Stream bit `k` of a canonical store is bit `k` of its integer view: the listed bytes do not overlap. -/
theorem testBit_storeInt {lo : Nat} {m : Memory} (hm : Memory.wfFrom lo m = true) (k : Nat) :
    (storeInt m).testBit k = streamBit m k := by
  induction m generalizing lo with
  | nil => rw [streamBit_nil]; exact Nat.zero_testBit k
  | cons cell m ih =>
    obtain ⟨a, b⟩ := cell
    obtain ⟨_, _, hm'⟩ := (Memory.wfFrom_cons _ _ _ _).mp hm
    obtain ⟨q, hq⟩ := two_pow_dvd_storeInt hm'
    have hlow : b.toNat * 2 ^ (8 * a) < 2 ^ (8 * (a + 1)) := by
      rw [Nat.mul_succ, Nat.pow_add, Nat.mul_comm]
      exact Nat.mul_lt_mul_of_pos_left b.isLt (Nat.two_pow_pos _)
    rw [storeInt_cons, streamBit_cons, ← ih hm', hq, Nat.add_comm, show 256 = 2 ^ 8 from rfl, ← Nat.pow_mul,
      Nat.testBit_two_pow_mul_add _ hlow, Nat.testBit_two_pow_mul, Nat.testBit_mul_two_pow]
    by_cases hk : k / 8 = a
    · have hkm : k - 8 * a = k % 8 := by omega
      rw [if_pos hk, if_pos (by omega), hkm, decide_eq_true (by omega), Bool.true_and, BitVec.testBit_toNat]
    · rw [if_neg hk]
      split
      · simp [show ¬ 8 * a ≤ k by omega, show ¬ 8 * (a + 1) ≤ k by omega]
      · simp [show 8 * (a + 1) ≤ k by omega]

/-- Settles O40: numbers with the same bits are equal, and every bit is a stream bit. -/
theorem integerViewOfAStore : Obligations.IntegerViewOfAStore := by
  intro B c n v hB hn
  refine ⟨testBit_storeInt hB, Nat.eq_of_testBit_eq fun i => ?_, fun hzero => Nat.eq_of_testBit_eq fun k => ?_⟩
  · rw [BitVec.testBit_toNat, getLsbD_loadBits B c hn, Nat.testBit_mod_two_pow, Nat.testBit_div_two_pow,
      testBit_storeInt hB, Nat.add_comm]
  · have hlow : storeInt B < 2 ^ c :=
      Nat.lt_pow_two_of_testBit _ fun k hk => (testBit_storeInt hB k).trans (hzero k hk)
    rw [testBit_storeInt (wf_storeBits hB c n v), streamBit_storeBits hB c hn, Nat.add_comm (storeInt B), Nat.mul_comm,
      Nat.testBit_two_pow_mul_add _ hlow, testBit_storeInt hB, Nat.testBit_mod_two_pow, BitVec.testBit_toNat]
    split
    · next hk => simp [show ¬ c ≤ k by omega]
    · next hk =>
      have hin : (c ≤ k ∧ k < c + n) ↔ k - c < n := by omega
      rw [hzero k (by omega), Bool.false_or, decide_eq_decide.mpr hin]

/-! ### A finished output (20_memory R80) -/

/-- `W_APPEND` from a writer that is not `OPEN` changes no writer (60_exceptions R244). -/
theorem exec_wAppend_of_source_not_opened {s t : State} {w v : Ctx} (hv : (s.writer v).st ≠ .opened)
    (h : exec (.wAppend w v) s = .next t) (u : Ctx) : t.writer u = s.writer u := by
  rcases execWAppend_cases w v s with ⟨e, _, hx⟩ | ⟨_, _, _, _, _, hopened, _⟩
  · obtain rfl : s.take e = t := Host.Outcome.next.inj (hx.symm.trans h)
    exact take_writer s e u
  · exact absurd hopened hv

/-- Only its own `W_OPEN` changes a writer that is not `OPEN`. -/
theorem exec_writer_of_not_opened {s t : State} {i : Instr} {u : Ctx} (hst : (s.writer u).st ≠ .opened)
    (hne : i ≠ .wOpen u) (h : exec i s = .next t) : t.writer u = s.writer u := by
  cases effect_of_exec h with
  | refused | truncated => exact take_writer _ _ _
  | wOpen =>
    refine (writer_setWriter _ _ _ _).trans (if_neg ?_)
    rintro rfl
    exact hne rfl
  | wBits _ _ opened | wArray _ _ opened | wFinish _ opened =>
    refine (writer_setWriter _ _ _ _).trans (if_neg ?_)
    rintro rfl
    exact hst opened
  | @wAppend w v _ _ opened =>
    by_cases huv : u = v
    · exact exec_wAppend_of_source_not_opened (huv ▸ hst) h u
    · have huw : u ≠ w := by rintro rfl; exact hst opened
      rw [respond_writer, writer_consumeWriter, if_neg huv, writer_extendWriter, if_neg huw]
  | wByte | rOpen | rOpenB | rBits | rPeek | rRemain | rArray | rClose => rfl

theorem take_fatal_of_halted {s : State} (hs : s.fatal = true) : s.take .fatal = s.respond .fatal 0 [] := by
  simp only [State.take, State.exceptionChange, ← hs, Exception.status]

/-- `W_BYTE` does nothing but answer: it raises `Fatal` in a halted block only. -/
theorem exec_wByte_responds {s t : State} {w : Ctx} {index : Word} (h : exec (.wByte w index) s = .next t) :
    ∃ st r0, t = s.respond st r0 [] := by
  have reaches {st : Status} {r0 : Word} (hx : .next (s.respond st r0 []) = (.next t : Result)) :
      ∃ st r0, t = s.respond st r0 [] := ⟨st, r0, (Host.Outcome.next.inj hx).symm⟩
  rw [exec, execWByte] at h
  rcases checked_cases s (s.legal (.wByte w index)) _ with ⟨hf, hx⟩ | ⟨_, _, hx⟩ | ⟨_, _, hx⟩ <;> rw [hx] at h
  · rw [raise_eq, take_fatal_of_halted hf] at h
    exact reaches h
  · exact reaches h
  rcases needWriter_cases s w .done _ with ⟨_, hx⟩ | ⟨_, hx⟩ <;> rw [hx] at h
  · exact reaches h
  split at h
  · split at h
    · exact reaches h
    · exact nomatch h
  · exact reaches h

/-- Settles O49: no command but `W_OPEN w` changes a writer that is `DONE`, and `W_BYTE` answers from what it names. -/
theorem finishedOutputIsImmutable : Obligations.FinishedOutputIsImmutable := by
  refine ⟨fun s t w hdone hstep hreset hopen => ?_, fun s t w index _ hw hp hf u h => ?_, fun s t w index h => ?_⟩
  · rcases step_cases s with ⟨_, hx⟩ | ⟨f, hl, rest, hin, _⟩ | ⟨_, _, _, _, _, hx⟩ | ⟨p, rest, i, hin, hdec, hx⟩
    · obtain rfl := Host.Outcome.next.inj (hx.symm.trans hstep)
      rfl
    · exact absurd hin (hreset f hl rest)
    · obtain rfl := Host.Outcome.next.inj (hx.symm.trans hstep)
      exact take_writer _ _ w
    · have hne : i ≠ .wOpen w := fun hi => hopen p rest hin (hi ▸ hdec)
      exact exec_writer_of_not_opened (s := s.dropEvent) (by simp [hdone]) hne (hx.symm.trans hstep)
  · have hagree : AgreeOn (.wByte w index) Eq s t :=
      ⟨hp.symm, hf.symm, fun v hv => List.mem_singleton.mp hv ▸ hw.symm, nofun⟩
    obtain ⟨v, hv, hresp, _⟩ := alikeOn_exec hagree u h
    exact ⟨v, hv, hresp.symm⟩
  · obtain ⟨st, r0, rfl⟩ := exec_wByte_responds h
    rfl

end Sys2Proof.Machine

namespace Sys2Proof

/-! ### The fields of a command word (30_encoding R91, R96) -/

@[simp] theorem ctxField_cmdWord (o : Opcode) (c c2 : Ctx) (width : Width) : ctxField (cmdWord o c c2 width) = c := by
  refine BitVec.eq_of_getLsbD_eq fun j hj => ?_
  simp only [ctxField, BitVec.getLsbD_extractLsb', hj, decide_true, Bool.true_and]
  rw [Laws.EncodedRow.getLsbD_cmdWord o c c2 width (8 + j) (by omega)]
  simp [show 8 + j < 12 by omega, show 8 + j < 16 by omega]

@[simp] theorem ctx2Field_cmdWord (o : Opcode) (c c2 : Ctx) (width : Width) : ctx2Field (cmdWord o c c2 width) = c2 := by
  refine BitVec.eq_of_getLsbD_eq fun j hj => ?_
  simp only [ctx2Field, BitVec.getLsbD_extractLsb', hj, decide_true, Bool.true_and]
  rw [Laws.EncodedRow.getLsbD_cmdWord o c c2 width (12 + j) (by omega)]
  simp [BitVec.getLsbD_of_ge o.code (12 + j) (by omega), BitVec.getLsbD_of_ge c (12 + j - 8) (by omega),
    show 12 + j < 16 by omega]

@[simp] theorem widthField_cmdWord (o : Opcode) (c c2 : Ctx) (width : Width) :
    widthField (cmdWord o c c2 width) = width := by
  refine BitVec.eq_of_getLsbD_eq fun j hj => ?_
  simp only [widthField, BitVec.getLsbD_extractLsb', hj, decide_true, Bool.true_and]
  rw [Laws.EncodedRow.getLsbD_cmdWord o c c2 width (16 + j) (by omega)]
  simp [BitVec.getLsbD_of_ge o.code (16 + j) (by omega), BitVec.getLsbD_of_ge c (16 + j - 8) (by omega),
    BitVec.getLsbD_of_ge c2 (16 + j - 12) (by omega)]

/-- Within a row's mask a command word has the opcode's bits, and zeros above them. -/
theorem getLsbD_of_masked {cw : CmdWord} {o : Opcode} (hm : cw &&& o.mask = o.matchWord) {j : Nat} (hj : j < 32)
    (hfixed : o.mask.getLsbD j = true) : cw.getLsbD j = o.code.getLsbD j := by
  have hbit : (cw &&& o.mask).getLsbD j = o.matchWord.getLsbD j := by rw [hm]
  rwa [BitVec.getLsbD_and, hfixed, Bool.and_true, Opcode.matchWord, BitVec.getLsbD_setWidth, decide_eq_true hj,
    Bool.true_and] at hbit

/-- A row fixes `ctx2` as a whole or not at all. -/
theorem mask_ctx2 (o : Opcode) : ∀ j, j < 4 → o.mask.getLsbD (12 + j) = o.mask.getLsbD 12 := by cases o <;> decide

/-- A row fixes `width` as a whole or not at all. -/
theorem mask_width (o : Opcode) : ∀ j, j < 7 → o.mask.getLsbD (16 + j) = o.mask.getLsbD 16 := by cases o <;> decide

/-- Every row fixes the reserved bits `cw[31:23]`. -/
theorem mask_reserved (o : Opcode) : ∀ j, j < 32 → 23 ≤ j → o.mask.getLsbD j = true := by cases o <;> decide

theorem ctx2Field_eq_zero {cw : CmdWord} {o : Opcode} (hm : cw &&& o.mask = o.matchWord)
    (hfixed : o.mask.getLsbD 12 = true) : ctx2Field cw = 0 := by
  refine BitVec.eq_of_getLsbD_eq fun j hj => ?_
  simp [ctx2Field, hj, getLsbD_of_masked hm (show 12 + j < 32 by omega) ((mask_ctx2 o j hj).trans hfixed),
    BitVec.getLsbD_of_ge o.code (12 + j) (by omega)]

theorem widthField_eq_zero {cw : CmdWord} {o : Opcode} (hm : cw &&& o.mask = o.matchWord)
    (hfixed : o.mask.getLsbD 16 = true) : widthField cw = 0 := by
  refine BitVec.eq_of_getLsbD_eq fun j hj => ?_
  simp [widthField, hj, getLsbD_of_masked hm (show 16 + j < 32 by omega) ((mask_width o j hj).trans hfixed),
    BitVec.getLsbD_of_ge o.code (16 + j) (by omega)]

/-- A command word under its row's mask is the word of its opcode and its three fields. -/
theorem cmdWord_fields {cw : CmdWord} {o : Opcode} (hm : cw &&& o.mask = o.matchWord) :
    cmdWord o (ctxField cw) (ctx2Field cw) (widthField cw) = cw := by
  refine BitVec.eq_of_getLsbD_eq fun j hj => ?_
  rw [Laws.EncodedRow.getLsbD_cmdWord _ _ _ _ _ hj]
  simp only [ctxField, ctx2Field, widthField, BitVec.getLsbD_extractLsb']
  have hcode (h8 : 8 ≤ j) : o.code.getLsbD j = false := BitVec.getLsbD_of_ge _ _ h8
  obtain hop | hctx | hctx2 | hwidth | hreserved :
      j < 8 ∨ (8 ≤ j ∧ j < 12) ∨ (12 ≤ j ∧ j < 16) ∨ (16 ≤ j ∧ j < 23) ∨ 23 ≤ j := by omega
  · simp [hop, show j < 12 by omega, show j < 16 by omega,
      getLsbD_of_masked hm hj (Laws.EncodedRow.opcode_bits_fixed o j hop)]
  · simp [hctx, show ¬j < 8 by omega, show j < 16 by omega, show j - 8 < 4 by omega,
      show 8 + (j - 8) = j by omega]
  · simp [hctx2, hcode (by omega), show ¬j < 12 by omega, show ¬j - 8 < 4 by omega, show j - 12 < 4 by omega,
      show 12 + (j - 12) = j by omega]
  · simp [hcode (by omega), show ¬j < 16 by omega, show ¬j - 8 < 4 by omega, show ¬j - 12 < 4 by omega,
      show j - 16 < 7 by omega, show 16 + (j - 16) = j by omega]
  · simp [hcode (by omega), getLsbD_of_masked hm hj (mask_reserved o j hj hreserved), show ¬j - 8 < 4 by omega,
      show ¬j - 12 < 4 by omega, show ¬j - 16 < 7 by omega]

/-! ### The words and the binding after the command word (30_encoding R92, R93, R98) -/

@[simp] theorem words0_eq_ok {i j : Instr} {ws : List Word} : words0 i ws = .ok j ↔ ws = [] ∧ i = j := by
  cases ws <;> simp [words0]

@[simp] theorem words1_eq_ok {f : Word → Instr} {ws : List Word} {i : Instr} :
    words1 f ws = .ok i ↔ ∃ a0, ws = [a0] ∧ f a0 = i := by
  match ws with
  | [] | [_] | _ :: _ :: _ => simp [words1]

@[simp] theorem words2_eq_ok {f : Word → Word → Instr} {ws : List Word} {i : Instr} :
    words2 f ws = .ok i ↔ ∃ a0 a1, ws = [a0, a1] ∧ f a0 a1 = i := by
  match ws with
  | [] | [_] | [_, _] | _ :: _ :: _ :: _ => simp [words2]

@[simp] theorem wordsElems_eq_ok {f : List Word → Instr} {ws : List Word} {i : Instr} :
    wordsElems f ws = .ok i ↔ ∃ a0 es, ws = a0 :: es ∧ es.length = a0.toNat ∧ f es = i := by
  cases ws with
  | nil => simp [wordsElems]
  | cons a0 es =>
    by_cases hlen : es.length = a0.toNat <;> simp [wordsElems, hlen]

@[simp] theorem unbound_eq_ok {x : Except DecodeError Instr} {b : Option (List Byte)} {i : Instr} :
    unbound x b = .ok i ↔ b = none ∧ x = .ok i := by
  cases b <;> simp [unbound]

@[simp] theorem bound_eq_ok {f : List Byte → Except DecodeError Instr} {b : Option (List Byte)} {i : Instr} :
    bound f b = .ok i ↔ ∃ src, b = some src ∧ f src = .ok i := by
  cases b <;> simp [bound]

/-! ### The decoder (30_encoding R95) -/

theorem ofCode_eq_some {b : BitVec 8} {o : Opcode} : Opcode.ofCode b = some o ↔ b = o.code := by
  constructor
  · intro h
    have hcode : (o.code == b) = true := List.find?_some (p := fun o : Opcode => o.code == b) h
    exact (eq_of_beq hcode).symm
  · rintro rfl
    exact Laws.EncodedRow.ofCode_code o

/-- A packet decodes to a command exactly when its command word lies in a row and the operands of that row are there. -/
theorem decode_eq_ok {p : Packet} {i : Instr} :
    decode p = .ok i ↔
      ∃ o, opField p.cw = o.code ∧ p.cw &&& o.mask = o.matchWord ∧
        operandsOf o (ctxField p.cw) (ctx2Field p.cw) (widthField p.cw) p.words p.binding = .ok i := by
  simp only [← ofCode_eq_some, decode]
  cases Opcode.ofCode (opField p.cw) with
  | none => simp
  | some o => by_cases hm : p.cw &&& o.mask = o.matchWord <;> simp [hm]

theorem encode_in_row (i : Instr) : Laws.EncodedRow.Statement i := by
  cases i with
  | wOpen => apply Laws.EncodedRow.wOpen
  | wBits => apply Laws.EncodedRow.wBits
  | wAppend => apply Laws.EncodedRow.wAppend
  | wFinish => apply Laws.EncodedRow.wFinish
  | wArray => apply Laws.EncodedRow.wArray
  | wByte => apply Laws.EncodedRow.wByte
  | rOpen => apply Laws.EncodedRow.rOpen
  | rOpenB => apply Laws.EncodedRow.rOpenB
  | rBits => apply Laws.EncodedRow.rBits
  | rPeek => apply Laws.EncodedRow.rPeek
  | rRemain => apply Laws.EncodedRow.rRemain
  | rArray => apply Laws.EncodedRow.rArray
  | rClose => apply Laws.EncodedRow.rClose

/-- The operands read from the packet of a command are its own. -/
theorem operandsOf_encode {i : Instr}
    (hcount : ∀ w width elems, i = .wArray w width elems → elems.length < 2 ^ 64) :
    operandsOf i.opcode (ctxField (encode i).cw) (ctx2Field (encode i).cw) (widthField (encode i).cw) (encode i).words
      (encode i).binding = .ok i := by
  cases i with
  | wArray w width elems =>
    have : elems.length % 2 ^ 64 = elems.length := Nat.mod_eq_of_lt (hcount w width elems rfl)
    simpa [operandsOf, Instr.opcode, encode] using this.symm
  | wOpen | wBits | wAppend | wFinish | wByte | rOpen | rOpenB | rBits | rPeek | rRemain | rArray | rClose =>
    simp [operandsOf, Instr.opcode, encode]

/-- Settles O1: the packet of a command lies in the command's row, and the operands read from it are the command's. -/
theorem encodeThenDecodeGivesTheCommand : Obligations.EncodeThenDecodeGivesTheCommand := by
  intro i hcount
  obtain ⟨hcode, hmask⟩ := encode_in_row i
  exact decode_eq_ok.mpr ⟨i.opcode, ofCode_eq_some.mp hcode, hmask, operandsOf_encode hcount⟩

/-- The packet of the command read from operands is made of them, if the fields that the row does not use are zero. -/
theorem encode_of_operandsOf {o : Opcode} {c c2 : Ctx} {width : Width} {ws : List Word} {src : Option (List Byte)}
    {i : Instr} (h : operandsOf o c c2 width ws src = .ok i) (hc2 : o.mask.getLsbD 12 = true → c2 = 0)
    (hwidth : o.mask.getLsbD 16 = true → width = 0) : encode i = ⟨cmdWord o c c2 width, ws, src⟩ := by
  cases o with
  | wOpen | wFinish | rRemain | rClose =>
    obtain ⟨rfl, rfl⟩ : c2 = 0 ∧ width = 0 := ⟨hc2 (by decide), hwidth (by decide)⟩
    obtain ⟨rfl, rfl, rfl⟩ := by simpa [operandsOf] using h
    rfl
  | wByte =>
    obtain ⟨rfl, rfl⟩ : c2 = 0 ∧ width = 0 := ⟨hc2 (by decide), hwidth (by decide)⟩
    obtain ⟨rfl, index, rfl, rfl⟩ := by simpa [operandsOf] using h
    rfl
  | rOpenB =>
    obtain ⟨rfl, rfl⟩ : c2 = 0 ∧ width = 0 := ⟨hc2 (by decide), hwidth (by decide)⟩
    obtain ⟨b, rfl, nbytes, rfl, rfl⟩ := by simpa [operandsOf] using h
    rfl
  | rOpen =>
    obtain ⟨rfl, rfl⟩ : c2 = 0 ∧ width = 0 := ⟨hc2 (by decide), hwidth (by decide)⟩
    obtain ⟨b, rfl, nbytes, total, rfl, rfl⟩ := by simpa [operandsOf] using h
    rfl
  | wAppend =>
    obtain rfl := hwidth (by decide)
    obtain ⟨rfl, rfl, rfl⟩ := by simpa [operandsOf] using h
    rfl
  | rBits | rPeek =>
    obtain rfl := hc2 (by decide)
    obtain ⟨rfl, rfl, rfl⟩ := by simpa [operandsOf] using h
    rfl
  | wBits | rArray =>
    obtain rfl := hc2 (by decide)
    obtain ⟨rfl, a0, rfl, rfl⟩ := by simpa [operandsOf] using h
    rfl
  | wArray =>
    obtain rfl := hc2 (by decide)
    obtain ⟨rfl, a0, es, rfl, hlen, rfl⟩ := by simpa [operandsOf] using h
    simp [encode, hlen]

/-- Settles O2: the fields of the command word are the operands or zero, and the rest of the packet is operands. -/
theorem noBitOfAPacketIsIgnored : Obligations.NoBitOfAPacketIsIgnored := by
  intro p i hdec
  obtain ⟨o, _, hm, hops⟩ := decode_eq_ok.mp hdec
  rw [encode_of_operandsOf hops (ctx2Field_eq_zero hm) (widthField_eq_zero hm), cmdWord_fields hm]

/-- The operands of a row are there exactly when the words and the binding are those of the row. -/
theorem exists_operandsOf_eq_ok (o : Opcode) (c c2 : Ctx) (width : Width) (ws : List Word) (src : Option (List Byte)) :
    (∃ i, operandsOf o c c2 width ws src = .ok i) ↔
      src.isSome = o.binds ∧ (o ≠ .wArray → ws.length = o.argWords) ∧
        (o = .wArray → ∃ a0 es, ws = a0 :: es ∧ es.length = a0.toNat) := by
  cases o with
  | wArray => simp [operandsOf, Opcode.binds]
  | wOpen | wAppend | wFinish | rBits | rPeek | rRemain | rClose => simp [operandsOf, Opcode.binds, Opcode.argWords]
  | wBits | wByte | rArray => simp [operandsOf, Opcode.binds, Opcode.argWords, List.length_eq_one_iff]
  | rOpenB => simp [operandsOf, Opcode.binds, Opcode.argWords, List.length_eq_one_iff, Option.isSome_iff_exists]
  | rOpen => simp [operandsOf, Opcode.binds, Opcode.argWords, List.length_eq_two, Option.isSome_iff_exists]

/-- Settles O3: the row is the one of the opcode byte, and its operands are there exactly in a well-framed packet. -/
theorem packetDecodesExactlyWhenWellFramed : Obligations.PacketDecodesExactlyWhenWellFramed := by
  intro p
  simp only [decode_eq_ok]
  rw [exists_comm]
  simp only [exists_and_left, exists_operandsOf_eq_ok]

end Sys2Proof

namespace Sys2Proof.Machine

/-! ### Commands and packets that are refused before their own rule (30_encoding R95, R97, 60_exceptions R243, R248) -/

/-- Every command begins with the first checks, on its own operands. -/
theorem exec_eq_checked (i : Instr) (s : State) : ∃ body, exec i s = checked s (s.legal i) body := by
  cases i <;> exact ⟨_, rfl⟩

theorem exec_of_not_legal {s : State} {i : Instr} (hf : s.fatal = false) (hl : s.legal i = false) :
    exec i s = raise .illegalCommand s := by
  obtain ⟨body, hx⟩ := exec_eq_checked i s
  simp [hx, checked, hf, hl]

theorem legal_eq_false_of_outOfRange {s : State} {i : Instr} (h : OutOfRange s.params i) : s.legal i = false := by
  refine Bool.eq_false_iff.mpr fun hl => ?_
  cases i with
  | wOpen | wFinish | wByte | rRemain | rClose => exact Nat.not_lt.mpr h (of_decide_eq_true hl)
  | wAppend w v =>
    simp only [State.legal, State.hasWriter, Bool.and_eq_true, decide_eq_true_eq, bne_iff_ne] at hl
    obtain ⟨⟨hw, hv⟩, hne⟩ := hl
    rcases h with h | h | h
    · exact Nat.not_lt.mpr h hw
    · exact Nat.not_lt.mpr h hv
    · exact hne h
  | wBits | rBits | rPeek =>
    simp only [State.legal, State.hasWriter, State.hasReader, fieldWidthOk, Bool.and_eq_true, decide_eq_true_eq] at hl
    simp only [OutOfRange] at h
    omega
  | wArray | rArray =>
    simp only [State.legal, State.hasWriter, State.hasReader, elementWidthOk, Bool.and_eq_true, decide_eq_true_eq] at hl
    simp only [OutOfRange] at h
    omega
  | rOpen | rOpenB =>
    simp only [State.legal, State.hasReader, State.bindingOk, Bool.and_eq_true, decide_eq_true_eq, beq_iff_eq] at hl
    simp only [OutOfRange] at h
    omega

/-- Settles O16: an operand out of range is not legal, and `IllegalCommand` changes nothing but the response. -/
theorem outOfRangeOperandsAreIllegal : Obligations.OutOfRangeOperandsAreIllegal :=
  fun _ _ hf h => exec_of_not_legal hf (legal_eq_false_of_outOfRange h)

theorem step_of_undecodable {s : State} {p : Packet} {rest : List HostEvent} {e : DecodeError}
    (hin : s.input = .command p :: rest) (hdec : decode p = .error e) : step s = .next s.dropEvent.undecodable := by
  simp only [step, intake, hin, hdec]

theorem undecodable_of_running {s : State} (hf : s.fatal = false) : s.undecodable = s.respond .illegalCommand 0 [] := by
  rw [State.undecodable, if_neg (Bool.eq_false_iff.mp hf)]
  rfl

theorem undecodable_of_halted {s : State} (hf : s.fatal = true) : s.undecodable = s.respond .fatal 0 [] := by
  rw [State.undecodable, if_pos hf, take_fatal_of_halted hf]

/-- Settles O6: the step takes the packet, and the exception it raises changes nothing but the response. -/
theorem undecodablePacketIsAnswered : Obligations.UndecodablePacketIsAnswered := by
  intro s p rest e hin hdec
  rw [step_of_undecodable hin hdec]
  refine ⟨fun hf => ?_, fun hf => ?_⟩
  · rw [undecodable_of_running (s := s.dropEvent) hf, dropEvent_of_input hin]
    rfl
  · rw [undecodable_of_halted (s := s.dropEvent) hf, dropEvent_of_input hin]
    rfl

end Sys2Proof.Machine

namespace Sys2Proof.Machine

/-! ### The cursor functions (40_cursor_arithmetic R120 to R123) -/

theorem pack_toNat (v : Word) (n : Nat) : (pack v n).toNat = v.toNat % 2 ^ n := by
  rw [pack, BitVec.toNat_ofNat, Nat.mod_eq_of_lt ((Nat.mod_le _ _).trans_lt v.isLt)]

theorem unpack_toNat (win : Window) {n : Nat} (hn : n ≤ 64) : (unpack win n).toNat = win.toNat % 2 ^ n := by
  have := Nat.mod_lt win.toNat (Nat.two_pow_pos n)
  rw [unpack, BitVec.toNat_ofNat, Nat.mod_eq_of_lt (this.trans_le (Nat.pow_le_pow_right (by decide) hn))]

/-- `unpack` gives back what `pack` left in the accumulator. -/
theorem unpack_pack (v : Word) {n : Nat} (hn : n ≤ 64) : unpack ((pack v n).setWidth 72) n = pack v n := by
  have hwide : (pack v n).toNat < 2 ^ 72 := (pack v n).isLt.trans (by decide)
  refine BitVec.eq_of_toNat_eq ?_
  rw [unpack_toNat _ hn, BitVec.toNat_setWidth, Nat.mod_eq_of_lt hwide, pack_toNat, Nat.mod_mod]

theorem span_of_pos (s : Nat) {n : Nat} (hn : 1 ≤ n) : span s n = (s + n + 7) / 8 := if_neg (by omega)

theorem span_eq_nine {s n : Nat} (hs : s ≤ 7) (hn : n ≤ 64) (h : 65 ≤ s + n) : span s n = 9 := by
  rw [span_of_pos s (by omega)]
  omega

/-- Settles O36: division with remainder for `split`, then the laws of `span`, `pack` and `unpack` above. -/
theorem cursorFunctionsAreExact : Obligations.CursorFunctionsAreExact := by
  refine ⟨fun c hc => ⟨rfl, rfl, ?_⟩, fun s n hs => ?_, fun v win n hn => ?_⟩
  · simp only [split]
    omega
  · exact ⟨rfl, span_of_pos s, span_le_nine hs, fun h9 hn => span_eq_nine hs hn h9⟩
  · exact ⟨pack_toNat v n, unpack_toNat win hn, unpack_pack v hn⟩

/-! ### One field (40_cursor_arithmetic R124 to R126) -/

/-- With ZERO-ABOVE (10_state R22 item 2), `store_bits` leaves the bits of the value in the field. -/
theorem streamBit_storeBits_inside {m : Memory} (hm : m.wf = true) {c n : Nat} (hn : n ≤ 64) (v : Word)
    (hzero : ∀ k, c ≤ k → streamBit m k = false) {i : Nat} (hi : i < n) :
    streamBit (storeBits m c n v) (c + i) = v.getLsbD i := by
  rw [streamBit_storeBits hm c hn, hzero _ (Nat.le_add_right c i), Nat.add_sub_cancel_left, Bool.false_or,
    decide_eq_true (by omega), Bool.true_and]

/-- Settles O38: inside the field by ZERO-ABOVE, outside it in any canonical store. -/
theorem storeBitsPlacesTheValue : Obligations.StoreBitsPlacesTheValue :=
  fun _ _ _ v hB hn hzero =>
    ⟨fun _ hi => streamBit_storeBits_inside hB hn v hzero hi, fun _ hk => streamBit_storeBits_outside hB hn v hk⟩

/-- Settles O39: the bits of the shifted window below `n` are stream bits, and `unpack` clears the others. -/
theorem loadBitsReadsTheField : Obligations.LoadBitsReadsTheField :=
  fun B c _ hn i => getLsbD_loadBits B c hn i

/-- With ZERO-ABOVE, a field stored reads back as the packed value. -/
theorem loadBits_storeBits {m : Memory} (hm : m.wf = true) {c n : Nat} (hn : n ≤ 64) (v : Word)
    (hzero : ∀ k, c ≤ k → streamBit m k = false) : loadBits (storeBits m c n v) c n = pack v n := by
  refine BitVec.eq_of_getLsbD_eq fun i _ => ?_
  rw [getLsbD_loadBits _ c hn, getLsbD_pack]
  by_cases hi : i < n
  · rw [streamBit_storeBits_inside hm hn v hzero hi]
  · simp [hi]

theorem loadBits_storeBits_disjoint {m : Memory} (hm : m.wf = true) {c n c2 n2 : Nat} (hn : n ≤ 64) (hn2 : n2 ≤ 64)
    (v : Word) (h : c2 + n2 ≤ c ∨ c + n ≤ c2) : loadBits (storeBits m c n v) c2 n2 = loadBits m c2 n2 := by
  refine BitVec.eq_of_getLsbD_eq fun i _ => ?_
  rw [getLsbD_loadBits _ _ hn2, getLsbD_loadBits _ _ hn2]
  by_cases hi : i < n2
  · rw [streamBit_storeBits_outside hm hn v (by omega)]
  · simp [hi]

/-- Settles O41: what is stored reads back packed, and a load elsewhere sees no bit of the field. -/
theorem storedFieldReadsBack : Obligations.StoredFieldReadsBack := by
  intro B c n c2 n2 v hB hn hn2 hzero
  refine ⟨?_, loadBits_storeBits_disjoint hB hn hn2 v⟩
  rw [loadBits_storeBits hB hn v hzero, pack_toNat]

/-! ### Two adjacent fields (40_cursor_arithmetic R127) -/

/-- The bits of two packed values, the second above the first. -/
theorem getLsbD_pack_or_shift (v1 v2 : Word) {n1 n2 : Nat} (hn : n1 + n2 ≤ 64) (i : Nat) :
    (pack v1 n1 ||| pack v2 n2 <<< n1).getLsbD i =
      if i < n1 then v1.getLsbD i else decide (i < n1 + n2) && v2.getLsbD (i - n1) := by
  rw [BitVec.getLsbD_or, BitVec.getLsbD_shiftLeft, getLsbD_pack, getLsbD_pack]
  by_cases h1 : i < n1
  · simp [h1]
  · by_cases h2 : i < n1 + n2
    · simp [h1, h2, show i < 64 by omega, show i - n1 < n2 by omega]
    · simp [h1, h2, show ¬i - n1 < n2 by omega]

/-- Two fields stored one after the other are the joined field, in any canonical store. -/
theorem storeBits_storeBits_adjacent {m : Memory} (hm : m.wf = true) (c : Nat) {n1 n2 : Nat} (hn : n1 + n2 ≤ 64)
    (v1 v2 : Word) :
    storeBits (storeBits m c n1 v1) (c + n1) n2 v2 = storeBits m c (n1 + n2) (pack v1 n1 ||| pack v2 n2 <<< n1) := by
  refine eq_of_streamBit (wf_storeBits (wf_storeBits hm _ _ _) _ _ _) (wf_storeBits hm _ _ _) fun k => ?_
  rw [streamBit_storeBits (wf_storeBits hm _ _ _) _ (by omega), streamBit_storeBits hm _ (by omega),
    streamBit_storeBits hm _ hn, getLsbD_pack_or_shift v1 v2 hn]
  obtain hk | hk | hk | hk :
      k < c ∨ (c ≤ k ∧ k < c + n1) ∨ (c + n1 ≤ k ∧ k < c + (n1 + n2)) ∨ c + (n1 + n2) ≤ k := by omega
  · simp [show ¬c ≤ k by omega, show ¬c + n1 ≤ k by omega]
  · simp [hk, show k < c + (n1 + n2) by omega, show k - c < n1 by omega, show ¬c + n1 ≤ k by omega]
  · simp [hk, show c ≤ k by omega, show ¬k < c + n1 by omega, show ¬k - c < n1 by omega,
      show k - c < n1 + n2 by omega, show k < c + n1 + n2 by omega, Nat.sub_sub]
  · simp [show ¬k < c + (n1 + n2) by omega, show ¬k < c + n1 by omega, show ¬k < c + n1 + n2 by omega]

/-- Two adjacent fields loaded are the joined field, in any store. -/
theorem loadBits_adjacent (m : Memory) (c : Nat) {n1 n2 : Nat} (hn : n1 + n2 ≤ 64) :
    loadBits m c (n1 + n2) = loadBits m c n1 ||| loadBits m (c + n1) n2 <<< n1 := by
  refine BitVec.eq_of_getLsbD_eq fun i hi => ?_
  rw [BitVec.getLsbD_or, BitVec.getLsbD_shiftLeft, getLsbD_loadBits _ _ hn, getLsbD_loadBits _ _ (by omega),
    getLsbD_loadBits _ _ (by omega)]
  by_cases h1 : i < n1
  · simp [h1, show i < n1 + n2 by omega]
  · have hadd : c + n1 + (i - n1) = c + i := by omega
    have hlt : i < n1 + n2 ↔ i - n1 < n2 := by omega
    simp [h1, hi, hadd, hlt]

/-- Settles O42: in each half the two sides have the same bits. -/
theorem fieldsSplitAndJoin : Obligations.FieldsSplitAndJoin :=
  ⟨fun _ c _ _ v1 v2 hB hn _ => storeBits_storeBits_adjacent hB c hn v1 v2, fun B c _ _ hn => loadBits_adjacent B c hn⟩

/-! ### Fields of whole bytes at a byte boundary (40_cursor_arithmetic R128) -/

theorem getLsbD_readByte (m : Memory) (a : Nat) {j : Nat} (hj : j < 8) :
    (readByte m a).getLsbD j = streamBit m (8 * a + j) := by
  rw [streamBit, Nat.mul_add_div (by decide), Nat.mul_add_mod, Nat.div_eq_of_lt hj, Nat.mod_eq_of_lt hj, Nat.add_zero]

/-- Bit `i` of a little-endian number is bit `i mod 8` of its byte `i div 8`. -/
theorem getLsbD_littleEndian (bs : List Byte) {i : Nat} (hi : i < 64) :
    (littleEndian bs).getLsbD i = (bs.getD (i / 8) 0).getLsbD (i % 8) := by
  induction bs generalizing i with
  | nil => simp [littleEndian]
  | cons b bs ih =>
    rw [littleEndian, BitVec.getLsbD_or, BitVec.getLsbD_setWidth, BitVec.getLsbD_shiftLeft]
    by_cases h8 : i < 8
    · simp [h8, hi, Nat.div_eq_of_lt h8, Nat.mod_eq_of_lt h8]
    · have hdiv : i / 8 = (i - 8) / 8 + 1 := by omega
      have hmod : i % 8 = (i - 8) % 8 := by omega
      rw [ih (by omega), BitVec.getLsbD_of_ge b i (by omega), hdiv, hmod, List.getD_cons_succ]
      simp [h8, hi]

/-- The load half of R128, in any store. -/
theorem loadBits_aligned (m : Memory) (b : Nat) {count : Nat} (hcount : count ≤ 8) :
    loadBits m (8 * b) (8 * count) = littleEndian ((List.range count).map fun k => readByte m (b + k)) := by
  refine BitVec.eq_of_getLsbD_eq fun i hi => ?_
  rw [getLsbD_loadBits _ _ (by omega), getLsbD_littleEndian _ hi]
  by_cases hin : i / 8 < count
  · have haddr : 8 * b + i = 8 * (b + i / 8) + i % 8 := by omega
    rw [haddr, ← getLsbD_readByte _ _ (Nat.mod_lt i (by decide))]
    simp [hin, show i < 8 * count by omega]
  · simp [hin, show ¬i < 8 * count by omega]

/-- Settles O43: a byte of the store half has the bits that `store_bits` placed, and the load half is `loadBits_aligned`. -/
theorem alignedFieldsAreLittleEndian : Obligations.AlignedFieldsAreLittleEndian := by
  refine ⟨fun B b m v hB hm hzero k hk => BitVec.eq_of_getLsbD_eq fun j hj => ?_, fun B b m hm => loadBits_aligned B b hm⟩
  rw [getLsbD_readByte _ _ hj, Nat.mul_add, Nat.add_assoc,
    streamBit_storeBits_inside hB (by omega) v hzero (by omega), BitVec.getLsbD_extractLsb', decide_eq_true hj,
    Bool.true_and]

/-! ### The bit-block copy (40_cursor_arithmetic R129) -/

/-- One chunk of a copy: source bits `[off, off + n)` are or-ed in at `c + off`. -/
theorem streamBit_storeBits_loadBits {m : Memory} (hm : m.wf = true) (src : Memory) (c off : Nat) {n : Nat} (hn : n ≤ 64)
    (k : Nat) :
    streamBit (storeBits m (c + off) n (loadBits src off n)) k =
      (streamBit m k || (decide (c + off ≤ k ∧ k < c + (off + n)) && streamBit src (k - c))) := by
  rw [streamBit_storeBits hm _ hn, getLsbD_loadBits _ _ hn, Nat.add_assoc]
  by_cases hk : c + off ≤ k ∧ k < c + (off + n)
  · have hsrc : off + (k - (c + off)) = k - c := by omega
    rw [hsrc, decide_eq_true (show k - (c + off) < n by omega), Bool.true_and]
  · rw [decide_eq_false hk, Bool.false_and, Bool.false_and]

/-- Two blocks of the same source, or-ed in one after the other, are the block of the bits of either. -/
theorem or_block_or_block {P Q R : Prop} [Decidable P] [Decidable Q] [Decidable R] (h : R ↔ P ∨ Q) (x y : Bool) :
    (x || (decide P && y) || (decide Q && y)) = (x || (decide R && y)) := by
  rw [decide_eq_decide.mpr h, Bool.decide_or, Bool.and_or_distrib_right, Bool.or_assoc]

/-- Every stream bit after the first `count` chunks of `copy_bits`. -/
theorem streamBit_foldl_copyChunk {dst : Memory} (hd : dst.wf = true) (c : Nat) (src : Memory) (n count k : Nat) :
    streamBit ((List.range count).foldl
        (fun d i => storeBits d (copyChunk c src n i).1 (copyChunk c src n i).2.1 (copyChunk c src n i).2.2) dst) k =
      (streamBit dst k || (decide (c ≤ k ∧ k < c + min n (64 * count)) && streamBit src (k - c))) := by
  induction count with
  | zero => simp [show ¬(c ≤ k ∧ k < c) by omega]
  | succ count ih =>
    have hwf := wf_foldl_storeBits (copyChunk c src n) (List.range count) hd
    rw [List.range_succ, List.foldl_append, List.foldl_cons, List.foldl_nil]
    refine (streamBit_storeBits_loadBits hwf src c (64 * count) (Nat.min_le_left 64 (n - 64 * count)) k).trans ?_
    rw [ih]
    exact or_block_or_block (by omega) _ _

/-- Every stream bit after `copy_bits`: the bits of the block are or-ed in, the others stay. -/
theorem streamBit_copyBits {dst : Memory} (hd : dst.wf = true) (c : Nat) (src : Memory) (n k : Nat) :
    streamBit (copyBits dst c src n) k =
      (streamBit dst k || (decide (c ≤ k ∧ k < c + n) && streamBit src (k - c))) := by
  rw [copyBits_eq_foldl, streamBit_foldl_copyChunk hd, Nat.min_eq_left (by omega)]

theorem wf_copyChunks (src : Memory) (cut : List Nat) {dst : Memory} (hd : dst.wf = true) (c off : Nat) :
    (copyChunks src cut dst c off).wf = true := by
  induction cut generalizing dst off with
  | nil => exact hd
  | cons n cut ih => exact ih (wf_storeBits hd _ _ _) _

/-- Every stream bit after a copy cut into given chunks. -/
theorem streamBit_copyChunks (src : Memory) {cut : List Nat} (hcut : ∀ x ∈ cut, x ≤ 64) {dst : Memory} (hd : dst.wf = true)
    (c off k : Nat) :
    streamBit (copyChunks src cut dst c off) k =
      (streamBit dst k || (decide (c + off ≤ k ∧ k < c + (off + cut.sum)) && streamBit src (k - c))) := by
  induction cut generalizing dst off with
  | nil => simp [copyChunks, show ¬(c + off ≤ k ∧ k < c + off) by omega]
  | cons n cut ih =>
    obtain ⟨hn, hrest⟩ := List.forall_mem_cons.mp hcut
    rw [copyChunks, ih hrest (wf_storeBits hd _ _ _), streamBit_storeBits_loadBits hd _ _ _ hn, List.sum_cons]
    exact or_block_or_block (by omega) _ _

/-- A copy does not depend on how it is cut into chunks of at most 64 bits. -/
theorem copyBits_eq_copyChunks {dst : Memory} (hd : dst.wf = true) (c : Nat) (src : Memory) {cut : List Nat}
    (hcut : ∀ x ∈ cut, x ≤ 64) : copyBits dst c src cut.sum = copyChunks src cut dst c 0 := by
  refine eq_of_streamBit (wf_copyBits hd _ _ _) (wf_copyChunks src cut hd _ _) fun k => ?_
  rw [streamBit_copyBits hd, streamBit_copyChunks src hcut hd, Nat.add_zero, Nat.zero_add]

/-- With ZERO-ABOVE, `copy_bits` leaves the bits of the source in the block. -/
theorem streamBit_copyBits_inside {dst : Memory} (hd : dst.wf = true) {c : Nat} (src : Memory) {n : Nat}
    (hzero : ∀ k, c ≤ k → streamBit dst k = false) {i : Nat} (hi : i < n) :
    streamBit (copyBits dst c src n) (c + i) = streamBit src i := by
  rw [streamBit_copyBits hd, hzero _ (Nat.le_add_right c i), Nat.add_sub_cancel_left, Bool.false_or,
    decide_eq_true (by omega), Bool.true_and]

/-- With ZERO-ABOVE and a byte-aligned cursor, `copy_bits` is a byte copy with the last byte masked. -/
theorem readByte_copyBits_aligned {dst : Memory} (hd : dst.wf = true) {b : Nat} (src : Memory) {n : Nat}
    (hzero : ∀ k, 8 * b ≤ k → streamBit dst k = false) (a : Nat) :
    (readByte (copyBits dst (8 * b) src n) (b + a)).toNat = (readByte src a).toNat % 2 ^ min 8 (n - 8 * a) := by
  refine Nat.eq_of_testBit_eq fun j => ?_
  rw [Nat.testBit_mod_two_pow, BitVec.testBit_toNat, BitVec.testBit_toNat]
  by_cases hj : j < 8
  · rw [getLsbD_readByte _ _ hj, getLsbD_readByte _ _ hj, Nat.mul_add, Nat.add_assoc]
    by_cases hin : 8 * a + j < n
    · rw [streamBit_copyBits_inside hd src hzero hin, decide_eq_true (by omega), Bool.true_and]
    · rw [streamBit_copyBits_outside hd src (by omega), hzero _ (by omega), decide_eq_false (by omega), Bool.false_and]
  · rw [BitVec.getLsbD_of_ge _ _ (by omega), BitVec.getLsbD_of_ge _ _ (by omega), Bool.and_false]

/-- Settles O44: the bits of the block, the bits outside it, any cut, and the aligned copy. -/
theorem copyBitsCopiesTheBlock : Obligations.CopyBitsCopiesTheBlock := by
  refine fun D S c n hD hzero => ⟨fun i hi => streamBit_copyBits_inside hD S hzero hi,
    fun k hk => streamBit_copyBits_outside hD S hk, fun cut hcut hsum => ?_, fun hc j _ => ?_⟩
  · rw [← hsum, copyBits_eq_copyChunks hD c S hcut]
  · obtain ⟨b, rfl⟩ := Nat.dvd_of_mod_eq_zero hc
    rw [Nat.mul_div_cancel_left b (by decide), readByte_copyBits_aligned hD S hzero]

end Sys2Proof.Machine

namespace Sys2Proof.Machine

/-! ### Commands whose checks pass, and commands of a halted block (60_exceptions R246, R248) -/

section
variable {s : State} {w : Ctx} {body : Result}

theorem hasWriter_of_lt (hw : w.toNat < s.params.nw) : s.hasWriter w = true := decide_eq_true hw

theorem checked_of_legal {legal : Bool} (hf : s.fatal = false) (hl : legal = true) : checked s legal body = body := by
  simp [checked, hf, hl]

theorem needWriter_of_st {st : WriterState} (h : (s.writer w).st = st) : needWriter s w st body = body := if_pos h

theorem needRoom_of_room {n : Nat} (h : s.hasRoom w n = true) : needRoom s w n body = body := if_pos h

theorem needRoom_of_no_room {n : Nat} (h : s.hasRoom w n = false) : needRoom s w n body = raise .fatal s := by
  simp [needRoom, h]

theorem exec_of_halted (i : Instr) (hf : s.fatal = true) : exec i s = raise .fatal s := by
  obtain ⟨body, hx⟩ := exec_eq_checked i s
  rw [hx, checked, if_pos hf]

end

section
variable {s : State} {w v : Ctx}

theorem exec_wOpen (hf : s.fatal = false) (hw : w.toNat < s.params.nw) :
    exec (.wOpen w) s =
      .next ((s.setWriter w { st := .opened, cur := 0, store := [], alloc := 0 }).respond .ok 0 []) :=
  checked_of_legal hf (hasWriter_of_lt hw)

theorem exec_wFinish_of_opened (hf : s.fatal = false) (hw : w.toNat < s.params.nw) (ho : (s.writer w).st = .opened) :
    exec (.wFinish w) s = .next ((s.setWriter w { s.writer w with st := .done }).respond .ok (s.writer w).cur []) :=
  (checked_of_legal hf (hasWriter_of_lt hw)).trans (needWriter_of_st ho)

/-- The state that `W_BITS` with room leaves (41_writer_ops R142). -/
def State.writeBits (s : State) (w : Ctx) (n : Nat) (v : Word) : State :=
  (s.extendWriter w n (storeBits (s.writer w).store (s.writer w).cur.toNat n v)).respond .ok 0 []

/-- `W_BITS` on an `OPEN` writer is decided by its room. -/
theorem exec_wBits_of_opened {width : Width} (value : Word) (hf : s.fatal = false) (hw : w.toNat < s.params.nw)
    (hn : width.toNat ≤ 64) (ho : (s.writer w).st = .opened) :
    exec (.wBits w width value) s = needRoom s w width.toNat (.next (s.writeBits w width.toNat value)) :=
  have legal : s.legal (.wBits w width value) = true :=
    Bool.and_eq_true_iff.mpr ⟨hasWriter_of_lt hw, decide_eq_true hn⟩
  (checked_of_legal hf legal).trans (needWriter_of_st ho)

theorem exec_wAppend_of_room (hf : s.fatal = false) (hw : w.toNat < s.params.nw) (hv : v.toNat < s.params.nw)
    (hne : w ≠ v) (ho : (s.writer w).st = .opened) (hov : (s.writer v).st = .opened)
    (room : s.hasRoom w (s.writer v).cur.toNat = true) :
    exec (.wAppend w v) s =
      .next (((s.extendWriter w (s.writer v).cur.toNat
        (copyBits (s.writer w).store (s.writer w).cur.toNat (s.writer v).store (s.writer v).cur.toNat)).consumeWriter
          v).respond .ok 0 []) :=
  have legal : s.legal (.wAppend w v) = true := by
    simp [State.legal, hasWriter_of_lt hw, hasWriter_of_lt hv, hne]
  (checked_of_legal hf legal).trans <| (needWriter_of_st ho).trans <| (needWriter_of_st hov).trans (needRoom_of_room room)

/-- `W_BYTE` on a `DONE` writer is decided by its index. -/
theorem exec_wByte_of_done (index : Word) (hf : s.fatal = false) (hw : w.toNat < s.params.nw)
    (hd : (s.writer w).st = .done) :
    exec (.wByte w index) s =
      if index.toNat < cdiv8 (s.writer w).cur.toNat then
        if index.toNat < s.params.wcap then
          .next (s.respond .ok ((readByte (s.writer w).store index.toNat).setWidth 64) [])
        else .fault .storeOutside
      else raise .illegalCommand s :=
  (checked_of_legal hf (hasWriter_of_lt hw)).trans (needWriter_of_st hd)

/-! ### A writer of a good state, and its extension (10_state R22) -/

theorem Inv.store_wf (hi : Inv s) (w : Ctx) : (s.writer w).store.wf = true :=
  ((Writer.inv_iff _ _).mp (hi.writer w)).1

/-- ZERO-ABOVE (R22 item 2). -/
theorem Inv.zero_above (hi : Inv s) (hst : (s.writer w).st ≠ .idle) :
    ∀ k, (s.writer w).cur.toNat ≤ k → streamBit (s.writer w).store k = false := by
  obtain ⟨_, _, _, hzero⟩ := ((Writer.inv_iff _ _).mp (hi.writer w)).2 hst
  exact hzero

theorem st_extendWriter (n : Nat) (m : Memory) : ((s.extendWriter w n m).writer w).st = (s.writer w).st := by
  rw [writer_extendWriter, if_pos rfl]

theorem cur_extendWriter (hi : Inv s) {n : Nat} (room : s.hasRoom w n = true) (m : Memory) :
    ((s.extendWriter w n m).writer w).cur.toNat = (s.writer w).cur.toNat + n := by
  rw [writer_extendWriter, if_pos rfl]
  exact cursor_extend_toNat hi.1 room

theorem st_writeBits (n : Nat) (v : Word) : ((s.writeBits w n v).writer w).st = (s.writer w).st := st_extendWriter _ _

theorem cur_writeBits (hi : Inv s) {n : Nat} (room : s.hasRoom w n = true) (v : Word) :
    ((s.writeBits w n v).writer w).cur.toNat = (s.writer w).cur.toNat + n :=
  cur_extendWriter hi room _

theorem store_writeBits (n : Nat) (v : Word) :
    ((s.writeBits w n v).writer w).store = storeBits (s.writer w).store (s.writer w).cur.toNat n v :=
  store_extendWriter _ _ _ _

end

/-! ### What the writer commands do (41_writer_ops R141 to R145) -/

/-- Settles O22: the writer `W_OPEN` leaves does not depend on the one before. -/
theorem openWriterIsEmpty : Obligations.OpenWriterIsEmpty := by
  intro s w hf hw
  refine ⟨_, exec_wOpen hf hw, rfl, ?_⟩
  rw [respond_writer, writer_setWriter_same]
  exact ⟨rfl, rfl, fun _ => rfl, rfl⟩

/-- Settles O23: the bits are those `store_bits` leaves under ZERO-ABOVE. -/
theorem writeBitsAppendsTheValue : Obligations.WriteBitsAppendsTheValue := by
  intro s w width value hi hf hw hn ho hroom
  have room := (hasRoom_iff s w _).mpr hroom
  refine ⟨_, (exec_wBits_of_opened value hf hw hn ho).trans (needRoom_of_room room), rfl, ?_⟩
  rw [st_writeBits, cur_writeBits hi room, store_writeBits]
  exact ⟨ho, rfl, fun i => streamBit_storeBits_inside (hi.store_wf w) hn value (hi.zero_above (by simp [ho])),
    fun k => streamBit_storeBits_outside (hi.store_wf w) hn value⟩

/-- Settles O24: the bits are those `copy_bits` leaves under ZERO-ABOVE. -/
theorem appendConcatenatesTheSource : Obligations.AppendConcatenatesTheSource := by
  intro s w v hi hf hw hv hne ho hov hroom
  have room := (hasRoom_iff s w _).mpr hroom
  refine ⟨_, exec_wAppend_of_room hf hw hv hne ho hov room, rfl, ?_⟩
  rw [respond_writer, respond_writer, writer_consumeWriter, writer_consumeWriter, if_neg hne, if_pos rfl, st_extendWriter,
    cur_extendWriter hi room, store_extendWriter]
  exact ⟨ho, rfl, rfl, fun i => streamBit_copyBits_inside (hi.store_wf w) _ (hi.zero_above (by simp [ho])),
    fun k => streamBit_copyBits_outside (hi.store_wf w) _⟩

/-- Settles O25: the trailing bits are zero by ZERO-ABOVE. -/
theorem finishFixesThePaddedOutput : Obligations.FinishFixesThePaddedOutput := by
  intro s w hi hf hw ho
  refine ⟨_, exec_wFinish_of_opened hf hw ho, rfl, ?_⟩
  rw [respond_writer, writer_setWriter_same]
  refine ⟨rfl, ?_, hi.zero_above (by simp [ho])⟩
  rw [outputBytes, List.length_map, List.length_range]

/-- Settles O26: a byte of the output lies below `WCAP`. -/
theorem byteReadsTheOutput : Obligations.ByteReadsTheOutput := by
  intro s w index hi hf hw hd
  rw [exec_wByte_of_done index hf hw hd]
  refine ⟨fun hin => ?_, fun hout => ?_⟩
  · rw [if_pos hin, if_pos (index_lt_wcap hi (by simp [hd]) hin)]
    refine ⟨_, _, rfl, rfl, fun j => ?_⟩
    rw [BitVec.getLsbD_setWidth]
    by_cases hj : j < 8
    · rw [getLsbD_readByte _ _ hj, decide_eq_true hj, decide_eq_true (show j < 64 by omega)]
    · rw [BitVec.getLsbD_of_ge _ _ (by omega), decide_eq_false hj, Bool.and_false, Bool.false_and]
  · rw [if_neg (by omega)]
    rfl

/-! ### Two writes and the joined write (41_writer_ops R146) -/

theorem runAll_cons {i : Instr} {is : List Instr} {s t : State} {a : Response} (h : exec i s = .next t)
    (ha : t.resp = some a) : runAll (i :: is) s = (runAll is t).map fun p => (a :: p.1, p.2) := by
  simp only [runAll, h, ha]

theorem runAll_pair {i j : Instr} {s t u : State} {a b : Response} (hi : exec i s = .next t) (ha : t.resp = some a)
    (hj : exec j t = .next u) (hb : u.resp = some b) : runAll [i, j] s = some ([a, b], u) := by
  rw [runAll_cons hi ha, runAll_cons hj hb]
  rfl

/-- Two extensions are one, but for the hidden capacity (10_state R31). -/
theorem sameState_extendWriter_extendWriter {s : State} (hi : Inv s) {w : Ctx} {n1 : Nat}
    (room1 : s.hasRoom w n1 = true) (n2 : Nat) (m1 : Memory) {m m' : Memory} (hm : m = m') :
    SameState ((s.extendWriter w n1 m1).extendWriter w n2 m) (s.extendWriter w (n1 + n2) m') := by
  subst hm
  refine ⟨rfl, rfl, rfl, rfl, rfl, fun u => ?_⟩
  simp only [writer_extendWriter, if_true]
  split
  · simp only [Writer.SameButAlloc, cursor_extend_toNat hi.1 room1, Nat.add_assoc, and_self]
  · exact ⟨rfl, rfl, rfl⟩

section
variable {s : State} {w : Ctx}

theorem hasRoom_of_le {m n : Nat} (room : s.hasRoom w n = true) (h : m ≤ n) : s.hasRoom w m = true := by
  rw [hasRoom_iff, cdiv8] at *
  omega

/-- The byte count that decides about a second write is the final one. -/
theorem hasRoom_writeBits (hi : Inv s) {n1 : Nat} (room1 : s.hasRoom w n1 = true) (v1 : Word) (n2 : Nat) :
    (s.writeBits w n1 v1).hasRoom w n2 = s.hasRoom w (n1 + n2) := by
  rw [State.hasRoom, State.hasRoom, cur_writeBits hi room1, Nat.add_assoc]
  rfl

/-- A second write begins where the first one ended. -/
theorem sameState_writeBits_writeBits (hi : Inv s) {n1 n2 : Nat} (hn : n1 + n2 ≤ 64)
    (room1 : s.hasRoom w n1 = true) (v1 v2 : Word) :
    SameState ((s.writeBits w n1 v1).writeBits w n2 v2) (s.writeBits w (n1 + n2) (pack v1 n1 ||| pack v2 n2 <<< n1)) := by
  have hstore : storeBits ((s.writeBits w n1 v1).writer w).store ((s.writeBits w n1 v1).writer w).cur.toNat n2 v2 =
      storeBits (s.writer w).store (s.writer w).cur.toNat (n1 + n2) (pack v1 n1 ||| pack v2 n2 <<< n1) := by
    rw [store_writeBits, cur_writeBits hi room1, storeBits_storeBits_adjacent (hi.store_wf w) _ hn]
  exact sameState_extendWriter_extendWriter hi room1 n2 _ hstore

end

/-- Settles O48: by cases on the room for the first write, without which the block is halted when the second arrives. -/
theorem twoWritesAreOneWrite : Obligations.TwoWritesAreOneWrite := by
  intro s w n1 n2 n v1 v2 hi hf hw hsum hn ho
  have first := exec_wBits_of_opened (width := n1) v1 hf hw (by omega) ho
  have second := exec_wBits_of_opened (s := s.writeBits w n1.toNat v1) (width := n2) v2 hf hw (by omega)
    ((st_writeBits _ _).trans ho)
  have joined := exec_wBits_of_opened (width := n) (pack v1 n1.toNat ||| pack v2 n2.toNat <<< n1.toNat) hf hw hn ho
  rw [hsum] at hn joined ⊢
  refine ⟨fun hroom => ?_, fun hfull => ?_⟩
  · have room : s.hasRoom w (n1.toNat + n2.toNat) = true := (hasRoom_iff s w _).mpr hroom
    have room1 : s.hasRoom w n1.toNat = true := hasRoom_of_le room (Nat.le_add_right _ _)
    have room2 := (hasRoom_writeBits hi room1 v1 n2.toNat).trans room
    exact ⟨_, _, runAll_pair (first.trans (needRoom_of_room room1)) rfl (second.trans (needRoom_of_room room2)) rfl,
      joined.trans (needRoom_of_room room), sameState_writeBits_writeBits hi hn room1 v1 v2⟩
  · have full : s.hasRoom w (n1.toNat + n2.toNat) = false := decide_eq_false (Nat.not_le.mpr hfull)
    have joinedFatal := joined.trans (needRoom_of_no_room full)
    cases room1 : s.hasRoom w n1.toNat with
    | false =>
      exact ⟨_, _, _, runAll_pair (first.trans (needRoom_of_no_room room1)) rfl (exec_of_halted _ rfl) rfl, joinedFatal, rfl⟩
    | true =>
      have full2 := (hasRoom_writeBits hi room1 v1 n2.toNat).trans full
      exact ⟨_, _, _, runAll_pair (first.trans (needRoom_of_room room1)) rfl (second.trans (needRoom_of_no_room full2)) rfl,
        joinedFatal, rfl⟩

/-! ### The output as a sequence of bits (41_writer_ops R147) -/

/-- `m'` is `m` with the given bits or-ed in from stream bit `c` on. -/
def OredIn (m m' : Memory) (c : Nat) (bits : List Bool) : Prop :=
  ∀ k, streamBit m' k = (streamBit m k || (decide (c ≤ k) && bits.getD (k - c) false))

theorem OredIn.refl (m : Memory) (c : Nat) : OredIn m m c [] := fun k => by simp

/-- Bits or-ed in one block behind the other are or-ed in as one block. -/
theorem OredIn.trans {m1 m2 m3 : Memory} {c : Nat} {xs ys : List Bool} (h : OredIn m1 m2 c xs)
    (h' : OredIn m2 m3 (c + xs.length) ys) : OredIn m1 m3 c (xs ++ ys) := by
  intro k
  rw [h', h, Bool.or_assoc]
  congr 1
  obtain hk | hk | hk : k < c ∨ (c ≤ k ∧ k - c < xs.length) ∨ c + xs.length ≤ k := by omega
  · simp [show ¬c ≤ k by omega, show ¬c + xs.length ≤ k by omega]
  · rw [List.getD_append _ _ _ _ hk.2, decide_eq_false (show ¬c + xs.length ≤ k by omega), Bool.false_and, Bool.or_false]
  · rw [List.getD_append_right _ _ _ _ (by omega), List.getD_eq_default _ _ (by omega), decide_eq_true hk,
      decide_eq_true (show c ≤ k by omega), Nat.sub_sub, Bool.and_false, Bool.false_or]

/-- A block given bit by bit. -/
theorem oredIn_map_range {m m' : Memory} {c n : Nat} {f : Nat → Bool}
    (h : ∀ k, streamBit m' k = (streamBit m k || (decide (c ≤ k ∧ k < c + n) && f (k - c)))) :
    OredIn m m' c ((List.range n).map f) := by
  intro k
  rw [h]
  congr 1
  by_cases hk : c ≤ k ∧ k < c + n
  · simp [hk, List.getElem?_range (show k - c < n by omega)]
  · by_cases hc : c ≤ k
    · simp [hk, List.getElem?_eq_none (l := List.range n) (i := k - c) (by simp; omega)]
    · simp [hc]

@[simp] theorem lowBits_length (v : Word) (n : Nat) : (lowBits v n).length = n := by simp [lowBits]

theorem oredIn_storeBits {m : Memory} (hm : m.wf = true) (c : Nat) {n : Nat} (hn : n ≤ 64) (v : Word) :
    OredIn m (storeBits m c n v) c (lowBits v n) :=
  oredIn_map_range (streamBit_storeBits hm c hn v)

theorem oredIn_storeElems {m : Memory} (hm : m.wf = true) (c : Nat) {width : Nat} (hw : width ≤ 64) (es : List Word) :
    OredIn m (storeElems m c width es) c (es.flatMap fun e => lowBits e width) := by
  induction es generalizing m c with
  | nil => exact .refl m c
  | cons e es ih =>
    have first := oredIn_storeBits hm c hw e
    have rest := ih (wf_storeBits hm c width e) (c + width)
    rw [List.flatMap_cons]
    exact first.trans (by rwa [lowBits_length])

/-- The output of the writer, unless it is `IDLE`: the given bits in order and then zeros, the cursor behind them. -/
def Writer.Holds (x : Writer) (bits : List Bool) : Prop :=
  x.st ≠ .idle → x.cur.toNat = bits.length ∧ OredIn [] x.store 0 bits

theorem Writer.Holds.streamBit {x : Writer} {bits : List Bool} (h : x.Holds bits) (hst : x.st ≠ .idle) (k : Nat) :
    streamBit x.store k = bits.getD k false := by
  rw [(h hst).2 k, streamBit_nil, decide_eq_true (Nat.zero_le k), Bool.false_or, Bool.true_and, Nat.sub_zero]

section
variable {s : State} {w : Ctx} {bits : List Bool}

/-- An `OPEN` writer `v` extended by a block of bits holds them behind its own, and any other writer holds what it held. -/
theorem Writer.Holds.extendWriter (hb : (s.writer w).Holds bits) (hi : Inv s) {v : Ctx}
    (opened : (s.writer v).st = .opened) {n : Nat} (room : s.hasRoom v n = true) {m : Memory} {new : List Bool}
    (hlen : new.length = n) (hm : OredIn (s.writer v).store m (s.writer v).cur.toNat new) :
    ((s.extendWriter v n m).writer w).Holds (bits ++ if v = w then new else []) := by
  by_cases hw : v = w
  · subst hw
    obtain ⟨hcur, hstore⟩ := hb (by simp [opened])
    rw [if_pos rfl]
    intro _
    rw [cur_extendWriter hi room, store_extendWriter, List.length_append, hcur, hlen]
    exact ⟨rfl, hstore.trans (by rwa [Nat.zero_add, ← hcur])⟩
  · rwa [if_neg hw, List.append_nil, writer_extendWriter, if_neg (Ne.symm hw)]

theorem Writer.Holds.consumeWriter (hb : (s.writer w).Holds bits) (v : Ctx) : ((s.consumeWriter v).writer w).Holds bits := by
  rw [writer_consumeWriter]
  split
  · exact fun hst => absurd rfl hst
  · exact hb

/-- The bits a command appends to writer `w`, given the state it leaves: none unless it is answered `OK`. -/
def bitsAnswered (w : Ctx) (i : Instr) (s t : State) : List Bool :=
  if t.resp.map (fun a => a.status) = some .ok then bitsAppended w i s else []

theorem bitsOfRun_cons {i : Instr} {is : List Instr} {t : State} (h : exec i s = .next t) :
    bitsOfRun w (i :: is) s = bitsAnswered w i s t ++ bitsOfRun w is t := by
  simp only [bitsOfRun, h, bitsAnswered]

theorem bitsAnswered_take (i : Instr) (e : Exception) : bitsAnswered w i s (s.take e) = [] := by
  cases e <;> rfl

/-- Each command appends to the output what R147 counts for it. -/
theorem Writer.Holds.exec (hb : (s.writer w).Holds bits) (hi : Inv s) {i : Instr} {t : State} (hne : i ≠ .wOpen w)
    (h : exec i s = .next t) : (t.writer w).Holds (bits ++ bitsAnswered w i s t) := by
  have same {t' : State} (hw : t'.writer w = s.writer w) (hnone : bitsAnswered w i s t' = []) :
      (t'.writer w).Holds (bits ++ bitsAnswered w i s t') := by
    rwa [hw, hnone, List.append_nil]
  cases effect_of_exec h with
  | refused | truncated => exact same (take_writer _ _ _) (bitsAnswered_take _ _)
  | @wOpen v =>
    have hv : w ≠ v := by rintro rfl; exact hne rfl
    exact same ((writer_setWriter _ _ _ _).trans (if_neg hv)) rfl
  | wBits _ field opened room =>
    exact hb.extendWriter hi opened room (lowBits_length _ _) (oredIn_storeBits (hi.store_wf _) _ field _)
  | wArray _ field opened room =>
    exact hb.extendWriter hi opened room (by simp [List.length_flatMap]) (oredIn_storeElems (hi.store_wf _) _ field _)
  | wAppend _ _ opened room =>
    exact (hb.extendWriter hi opened room (by simp)
      (oredIn_map_range (streamBit_copyBits (hi.store_wf _) _ _ _))).consumeWriter _
  | @wFinish v _ opened =>
    by_cases hv : w = v
    · subst hv
      have hdone : ({ s.writer w with st := .done } : Writer).Holds bits := fun _ => hb (by simp [opened])
      rw [respond_writer, writer_setWriter_same]
      exact (List.append_nil bits).symm ▸ hdone
    · exact same ((writer_setWriter _ _ _ _).trans (if_neg hv)) rfl
  | wByte | rOpen | rOpenB | rBits | rPeek | rRemain | rArray | rClose => exact same rfl rfl

end

theorem exists_exec_of_runAll_cons {i : Instr} {is : List Instr} {s t : State} {rs : List Response}
    (h : runAll (i :: is) s = some (rs, t)) : ∃ u rs', exec i s = .next u ∧ runAll is u = some (rs', t) := by
  rw [runAll] at h
  split at h
  · next u hx =>
    split at h
    · obtain ⟨⟨rs', t'⟩, hrun, heq⟩ := Option.map_eq_some_iff.mp h
      obtain ⟨_, rfl⟩ := Prod.mk.inj heq
      exact ⟨u, rs', hx, hrun⟩
    · exact nomatch h
  · exact nomatch h
  · exact nomatch h

/-- A run without `W_OPEN` of the writer appends to the output the bits of its commands, in order. -/
theorem Writer.Holds.runAll {cs : List Instr} {s t : State} {w : Ctx} {bits : List Bool} {rs : List Response}
    (hb : (s.writer w).Holds bits) (hi : Inv s) (hne : ∀ i ∈ cs, i ≠ .wOpen w) (h : runAll cs s = some (rs, t)) :
    (t.writer w).Holds (bits ++ bitsOfRun w cs s) := by
  induction cs generalizing s bits rs with
  | nil =>
    obtain ⟨_, rfl⟩ := Prod.mk.inj (Option.some.inj h)
    rwa [bitsOfRun, List.append_nil]
  | cons i cs ih =>
    obtain ⟨hhead, htail⟩ := List.forall_mem_cons.mp hne
    obtain ⟨u, rs', hx, hrun⟩ := exists_exec_of_runAll_cons h
    rw [bitsOfRun_cons hx, ← List.append_assoc]
    exact ih (hb.exec hi hhead hx) (hi.exec hx) htail hrun

theorem holds_of_exec_wOpen {s u : State} {w : Ctx} (hf : s.fatal = false) (hw : w.toNat < s.params.nw)
    (h : exec (.wOpen w) s = .next u) : (u.writer w).Holds [] := by
  obtain rfl := Host.Outcome.next.inj ((exec_wOpen hf hw).symm.trans h)
  rw [respond_writer, writer_setWriter_same]
  exact fun _ => ⟨rfl, .refl [] 0⟩

/-- Settles O54: the writer holds no bits after `W_OPEN`, and then those of the run. -/
theorem outputIsTheBitSequence : Obligations.OutputIsTheBitSequence := by
  intro s t w cs rs hi hf hw hne hrun hst
  obtain ⟨u, rs', hx, hrun'⟩ := exists_exec_of_runAll_cons hrun
  have hholds := (holds_of_exec_wOpen hf hw hx).runAll (hi.exec hx) hne hrun'
  have hnone : bitsAnswered w (.wOpen w) s u = [] := ite_self []
  rw [bitsOfRun_cons hx, hnone]
  exact ⟨(hholds hst).1, hholds.streamBit hst⟩

end Sys2Proof.Machine

namespace Sys2Proof.Machine

/-! ### Reader commands whose checks pass (42_reader_ops R160 to R166) -/

section
variable {s t : State} {r : Ctx}

theorem hasReader_of_lt (hr : r.toNat < s.params.nr) : s.hasReader r = true := decide_eq_true hr

theorem needReader_of_opened {body : Result} (ho : (s.reader r).st = .opened) : needReader s r body = body := by
  simp [needReader, ho]

/-- In a good state the bytes of bits that remain exist (10_state R32). -/
theorem needBits_of_enough {n : Nat} {body : Result} (hi : Inv s) (ho : (s.reader r).st = .opened)
    (enough : (s.reader r).hasBits n = true) : needBits s r n body = body := by
  simp [needBits, enough, sourceCovers_of_hasBits hi ho enough]

theorem needBits_of_short {n : Nat} {body : Result} (short : (s.reader r).hasBits n = false) :
    needBits s r n body = raise (.truncated r) s := by
  simp [needBits, short]

theorem hasBits_eq_false {x : Reader} {n : Nat} (h : x.total.toNat < x.cur.toNat + n) : x.hasBits n = false :=
  decide_eq_false (Nat.not_le.mpr h)

theorem toNat_remaining (x : Reader) : x.remaining.toNat = x.total.toNat - x.cur.toNat := by
  rw [Reader.remaining, BitVec.toNat_ofNat, Nat.mod_eq_of_lt ((Nat.sub_le _ _).trans_lt x.total.isLt)]

theorem Inv.cur_le_total (hi : Inv s) (hst : (s.reader r).st ≠ .idle) :
    (s.reader r).cur.toNat ≤ (s.reader r).total.toNat := by
  obtain ⟨hcur, _⟩ := ((Reader.inv_iff _ _).mp (hi.reader r)).2 hst
  exact hcur

theorem exec_rOpen {nbytes total : Word} {src : List Byte} (hf : s.fatal = false) (hr : r.toNat < s.params.nr)
    (fits : nbytes.toNat ≤ s.params.rcap) (bytes : src.length = nbytes.toNat) (bits : total.toNat ≤ 8 * nbytes.toNat) :
    exec (.rOpen r nbytes total src) s = .next ((s.bindReader r nbytes total src).respond .ok total []) :=
  checked_of_legal hf (by simp [State.legal, State.bindingOk, hasReader_of_lt hr, fits, bytes, bits])

theorem exec_rRemain_of_opened (hf : s.fatal = false) (hr : r.toNat < s.params.nr) (ho : (s.reader r).st = .opened) :
    exec (.rRemain r) s = .next (s.respond .ok (s.reader r).remaining []) :=
  (checked_of_legal hf (hasReader_of_lt hr)).trans (needReader_of_opened ho)

theorem exec_rClose_of_not_idle (hf : s.fatal = false) (hr : r.toNat < s.params.nr) (hst : (s.reader r).st ≠ .idle) :
    exec (.rClose r) s =
      .next ((s.setReader r { s.reader r with st := .idle }).respond .ok
        (if (s.reader r).st = .opened then (s.reader r).remaining else 0) []) := by
  refine (checked_of_legal hf (hasReader_of_lt hr)).trans ?_
  cases hs : (s.reader r).st with
  | idle => exact absurd hs hst
  | opened | poisoned => rfl

/-! ### The three reads in one (42_reader_ops R163, R164, 43_fastpath_array R188) -/

/-- What a read of bits that remain answers. -/
def Reader.readResponse (x : Reader) : Instr → Response
  | .rBits _ width | .rPeek _ width => okResponse (loadBits x.src x.cur.toNat width.toNat)
  | .rArray _ width n => { status := .ok, r0 := n, elems := loadElems x.src x.cur.toNat width.toNat n.toNat }
  | .wOpen _ | .wBits _ _ _ | .wAppend _ _ | .wFinish _ | .wArray _ _ _ | .wByte _ _ | .rOpen _ _ _ _ | .rOpenB _ _ _
  | .rRemain _ | .rClose _ => okResponse 0

/-- The state a read of bits that remain leaves, but for the response: `R_PEEK` keeps the cursor, `R_ARRAY` records its path. -/
def State.afterRead (s : State) : Instr → State
  | .rBits r width => s.advanceReader r width.toNat
  | .rArray r width n =>
    (s.advanceReader r (n.toNat * width.toNat)).setFpTaken (s.fastOk (s.reader r).cur.toNat width.toNat)
  | .wOpen _ | .wBits _ _ _ | .wAppend _ _ | .wFinish _ | .wArray _ _ _ | .wByte _ _ | .rOpen _ _ _ _ | .rOpenB _ _ _
  | .rPeek _ _ | .rRemain _ | .rClose _ => s

theorem legal_rBits {width : Width} (hr : r.toNat < s.params.nr) (hn : width.toNat ≤ 64) :
    s.legal (.rBits r width) = true :=
  Bool.and_eq_true_iff.mpr ⟨hasReader_of_lt hr, decide_eq_true hn⟩

theorem width_le_of_legal_rBits {width : Width} (hl : s.legal (.rBits r width) = true) : width.toNat ≤ 64 :=
  of_decide_eq_true (Bool.and_eq_true_iff.mp hl).2

theorem width_le_of_legal_rArray {width : Width} {n : Word} (hl : s.legal (.rArray r width n) = true) :
    width.toNat ≤ 64 := by
  simp only [State.legal, elementWidthOk, Bool.and_eq_true, decide_eq_true_eq] at hl
  exact hl.2.2

variable {i : Instr} {n : Nat}

/-- A legal read of an `OPEN` reader is decided by the bits that remain. -/
theorem exec_read_of_opened (asked : bitsAsked i = some (r, n)) (hf : s.fatal = false) (hl : s.legal i = true)
    (ho : (s.reader r).st = .opened) :
    exec i s = needBits s r n (.next { s.afterRead i with resp := some ((s.reader r).readResponse i) }) := by
  cases i with
  | rBits | rPeek | rArray =>
    cases asked
    exact (checked_of_legal hf hl).trans (needReader_of_opened ho)
  | wOpen | wBits | wAppend | wFinish | wArray | wByte | rOpen | rOpenB | rRemain | rClose => exact nomatch asked

theorem exec_read_of_enough (asked : bitsAsked i = some (r, n)) (hi : Inv s) (hf : s.fatal = false)
    (hl : s.legal i = true) (ho : (s.reader r).st = .opened) (enough : (s.reader r).hasBits n = true) :
    exec i s = .next { s.afterRead i with resp := some ((s.reader r).readResponse i) } :=
  (exec_read_of_opened asked hf hl ho).trans (needBits_of_enough hi ho enough)

theorem exec_read_of_short (asked : bitsAsked i = some (r, n)) (hf : s.fatal = false) (hl : s.legal i = true)
    (ho : (s.reader r).st = .opened) (short : (s.reader r).hasBits n = false) :
    exec i s = .next (s.take (.truncated r)) :=
  (exec_read_of_opened asked hf hl ho).trans (needBits_of_short short)

/-- The reader that `R_BITS` of bits that remain leaves. -/
theorem reader_afterRead_rBits (s : State) (r : Ctx) (width : Width) (a : Option Response) :
    ({ s.afterRead (.rBits r width) with resp := a } : State).reader r =
      { s.reader r with cur := BitVec.ofNat 64 ((s.reader r).cur.toNat + width.toNat) } :=
  reader_setReader_same _ _ _

theorem status_readResponse (x : Reader) (i : Instr) : (x.readResponse i).status = .ok := by
  cases i <;> rfl

/-- The answer of a legal read depends on the cursor and on the bits it delivers only. -/
theorem readResponse_congr {x y : Reader} (asked : bitsAsked i = some (r, n)) (hl : s.legal i = true)
    (hcur : x.cur = y.cur) (hbits : ∀ k, k < x.cur.toNat + n → streamBit x.src k = streamBit y.src k) :
    x.readResponse i = y.readResponse i := by
  cases i with
  | rBits | rPeek =>
    cases asked
    simp only [Reader.readResponse, ← hcur, loadBits_congr (width_le_of_legal_rBits hl) hbits]
  | rArray =>
    cases asked
    simp only [Reader.readResponse, ← hcur, loadElems_congr (width_le_of_legal_rArray hl) hbits]
  | wOpen | wBits | wAppend | wFinish | wArray | wByte | rOpen | rOpenB | rRemain | rClose => exact nomatch asked

end

/-! ### What the reader commands do (42_reader_ops R161 to R166) -/

/-- Settles O28: the reader `R_OPEN` leaves does not depend on the one before. -/
theorem openReaderBindsTheSource : Obligations.OpenReaderBindsTheSource := by
  intro s r nbytes total src hf hr fits bytes bits
  refine ⟨_, exec_rOpen hf hr fits bytes bits, rfl, ?_⟩
  rw [respond_reader, reader_bindReader, if_pos rfl]
  exact ⟨rfl, rfl, rfl, rfl, fun j _ => readByte_ofBytes src j⟩

/-- Eight times a byte count that the build accepts is a 64-bit count (00_scope R5). -/
theorem toNat_eight_mul {p : Params} (hp : p.wf = true) {nbytes : Word} (fits : nbytes.toNat ≤ p.rcap) :
    (BitVec.ofNat 64 (8 * nbytes.toNat)).toNat = 8 * nbytes.toNat := by
  obtain ⟨_, _, _, _, hcap⟩ := (Params.wf_iff p).mp hp
  rw [BitVec.toNat_ofNat, Nat.mod_eq_of_lt (by omega)]

/-- Both commands accept the same bindings. -/
theorem legal_rOpenB {s : State} (hp : s.params.wf = true) (r : Ctx) (nbytes : Word) (src : List Byte) :
    s.legal (.rOpenB r nbytes src) = s.legal (.rOpen r nbytes (BitVec.ofNat 64 (8 * nbytes.toNat)) src) := by
  simp only [State.legal, State.bindingOk]
  by_cases fits : nbytes.toNat ≤ s.params.rcap
  · rw [toNat_eight_mul hp fits]
  · simp [fits]

/-- Settles O29: with the same legality the two commands are one; a product that wraps belongs to no binding the build accepts. -/
theorem openWholeBytesIsOpen : Obligations.OpenWholeBytesIsOpen := by
  intro s r nbytes src hi
  have same : exec (.rOpenB r nbytes src) s = exec (.rOpen r nbytes (BitVec.ofNat 64 (8 * nbytes.toNat)) src) s := by
    simp only [exec, execROpenB, execROpen, legal_rOpenB hi.1]
  refine ⟨same, fun hf hr fits bytes => ?_⟩
  have htotal := toNat_eight_mul hi.1 fits
  obtain ⟨t, hx, hresp, hbound⟩ := openReaderBindsTheSource s r nbytes _ src hf hr fits bytes htotal.le
  exact ⟨t, _, same.trans hx, hresp, htotal, hbound⟩

/-- Settles O30: both commands answer what `load_bits` delivers. -/
theorem readAndPeekReturnTheField : Obligations.ReadAndPeekReturnTheField := by
  intro s r width hi hf hr hn ho hle
  have enough := (hasBits_iff _ _).mpr hle
  exact ⟨_, _, _, exec_read_of_enough rfl hi hf (legal_rBits hr hn) ho enough,
    exec_read_of_enough rfl hi hf (legal_rBits hr hn) ho enough, getLsbD_loadBits _ _ hn, cursor_advance_toNat enough, rfl⟩

/-- Settles O31: `R_BITS` succeeds exactly where the bounds check passes, and else answers `Truncated`. -/
theorem remainCountsTheReadableBits : Obligations.RemainCountsTheReadableBits := by
  intro s r hi hf hr ho
  have hcur := hi.cur_le_total (r := r) (by simp [ho])
  refine ⟨_, exec_rRemain_of_opened hf hr ho, ?_, fun width hn => ?_⟩ <;> rw [toNat_remaining]
  · omega
  · have hl := legal_rBits hr hn
    constructor
    · rintro ⟨t, v, hx, hresp⟩
      by_contra hlt
      have hx' := exec_read_of_short rfl hf hl ho (hasBits_eq_false (n := width.toNat) (by omega))
      rw [← Host.Outcome.next.inj (hx'.symm.trans hx)] at hresp
      exact nomatch hresp
    · intro hle
      exact ⟨_, _, exec_read_of_enough rfl hi hf hl ho ((hasBits_iff _ _).mpr (by omega)), rfl⟩

/-- Settles O33: the answer is chosen by the lifecycle state the reader was in. -/
theorem closeReportsTheUnreadBits : Obligations.CloseReportsTheUnreadBits := by
  intro s r hi hf hr hst
  refine ⟨_, _, exec_rClose_of_not_idle hf hr hst, rfl, ?_, fun ho => ?_, fun hp => ?_⟩
  · rw [respond_reader, reader_setReader_same]
  · rw [if_pos ho, toNat_remaining]
    exact Nat.sub_add_cancel (hi.cur_le_total hst)
  · rw [if_neg (by simp [hp])]

/-! ### What the reader commands leave unchanged (42_reader_ops R170) -/

/-- The outcome, if it is a state, has the `FATAL` of `s`. -/
def KeepsFatal (s : State) (x : Result) : Prop := ∀ t, x = .next t → t.fatal = s.fatal

section
variable {s t : State} {r : Ctx} {body : Result}

theorem keepsFatal_next (h : t.fatal = s.fatal) : KeepsFatal s (.next t) :=
  fun _ hx => Host.Outcome.next.inj hx ▸ h

theorem keepsFatal_answer (h : t.fatal = s.fatal) {r0 : Word} {es : List Word} : KeepsFatal s (answer t r0 es) :=
  keepsFatal_next h

theorem keepsFatal_fault (f : Fault) : KeepsFatal s (.fault f) := nofun

/-- A halted block stays halted. -/
theorem KeepsFatal.checked (h : KeepsFatal s body) (legal : Bool) : KeepsFatal s (checked s legal body) := by
  rcases checked_cases s legal body with ⟨hf, hx⟩ | ⟨_, _, hx⟩ | ⟨_, _, hx⟩ <;> rw [hx]
  · exact keepsFatal_next hf.symm
  · exact keepsFatal_next rfl
  · exact h

theorem KeepsFatal.needReader (h : KeepsFatal s body) (r : Ctx) : KeepsFatal s (needReader s r body) := by
  rcases needReader_cases s r body with ⟨_, hx⟩ | ⟨_, hx⟩ | ⟨_, hx⟩ <;> rw [hx]
  · exact keepsFatal_next rfl
  · exact keepsFatal_next rfl
  · exact h

theorem KeepsFatal.needBits (h : KeepsFatal s body) (r : Ctx) (n : Nat) : KeepsFatal s (needBits s r n body) := by
  rcases needBits_cases s r n body with ⟨_, hx⟩ | ⟨_, _, hx⟩ | ⟨_, _, hx⟩ <;> rw [hx]
  · exact keepsFatal_next rfl
  · exact keepsFatal_fault _
  · exact h

/-- No reader command halts the block (60_exceptions R246). -/
theorem exec_reader_keepsFatal {i : Instr} (hr : Instr.readersNamed i = [r]) (s : State) : KeepsFatal s (exec i s) := by
  cases i with
  | wOpen | wBits | wAppend | wFinish | wArray | wByte => exact nomatch hr
  | rOpen | rOpenB => exact KeepsFatal.checked (keepsFatal_answer (by rfl)) _
  | rRemain => exact KeepsFatal.checked (KeepsFatal.needReader (keepsFatal_answer (by rfl)) _) _
  | rBits | rPeek | rArray =>
    exact KeepsFatal.checked (KeepsFatal.needReader (KeepsFatal.needBits (keepsFatal_answer (by rfl)) _ _) _) _
  | rClose q =>
    refine KeepsFatal.checked ?_ _
    cases (s.reader q).st with
    | idle | opened | poisoned => exact keepsFatal_next rfl

theorem exec_reader_writers_eq {i : Instr} (hr : Instr.readersNamed i = [r]) (h : exec i s = .next t) :
    t.writers = s.writers := by
  cases effect_of_exec h with
  | @refused _ e => cases e <;> rfl
  | truncated | rOpen | rOpenB | rBits | rPeek | rRemain | rArray | rClose => rfl
  | wOpen | wBits | wAppend | wFinish | wArray | wByte => exact nomatch hr

theorem exec_input_eq {i : Instr} (h : exec i s = .next t) : t.input = s.input := by
  cases effect_of_exec h with
  | @refused _ e => cases e <;> rfl
  | truncated | wOpen | wBits | wAppend | wFinish | wByte | wArray => rfl
  | rOpen | rOpenB | rBits | rPeek | rRemain | rArray | rClose => rfl

/-- No reader command but an open changes the binding of a reader; a close keeps it (log 9). -/
theorem exec_binding_eq {i : Instr} {q : Ctx} (hopen : ∀ nbytes total src, i ≠ .rOpen q nbytes total src)
    (hopenB : ∀ nbytes src, i ≠ .rOpenB q nbytes src) (h : exec i s = .next t) :
    (t.reader q).total = (s.reader q).total ∧ (t.reader q).nbytes = (s.reader q).nbytes ∧
      (t.reader q).src = (s.reader q).src := by
  by_cases hclose : i = .rClose q
  · subst hclose
    cases effect_of_exec h with
    | refused quiet => rw [take_reader s quiet]; exact ⟨rfl, rfl, rfl⟩
    | truncated =>
      obtain ⟨htotal, hnbytes, hsrc, _⟩ := follows_poison s _ q
      exact ⟨htotal, hnbytes, hsrc⟩
    | rClose => rw [respond_reader, reader_setReader_same]; exact ⟨rfl, rfl, rfl⟩
  · obtain ⟨htotal, hnbytes, hsrc, _⟩ := exec_follows hopen hopenB hclose h
    exact ⟨htotal, hnbytes, hsrc⟩

end

/-- Settles O35, clause by clause. -/
theorem readerCommandsFrame : Obligations.ReaderCommandsFrame := by
  intro s t i r hr h
  obtain ⟨hparams, hfast, hlittle⟩ := exec_config_eq h
  refine ⟨exec_reader_writers_eq hr h, fun q hq => exec_reader_unnamed ?_ h, exec_reader_keepsFatal hr s t h, hparams,
    hfast, hlittle, exec_input_eq h, fun hna => ?_, fun hopen hopenB => exec_binding_eq hopen hopenB h⟩
  · rw [hr, List.mem_singleton]
    exact hq
  · refine exec_fpTaken_eq (fun w width elems hi => ?_) (fun q width n hi => ?_) h
    · rw [hi] at hr
      exact nomatch hr
    · obtain rfl : q = r := by simpa [hi, Instr.readersNamed] using hr
      exact hna width n hi

/-! ### A reader cut short (42_reader_ops R169) -/

/-- Settles O50: before the cut both reads deliver the same bits, across it the bounds check fails. -/
theorem truncatedBufferReadsUpToTheCut : Obligations.TruncatedBufferReadsUpToTheCut := by
  intro s t i r n hs ht hfs hft hls hlt asked hos hot hcur htotal hbits hle
  have full := exec_read_of_enough asked hs hfs hls hos ((hasBits_iff _ _).mpr hle)
  have hok : some (((s.reader r).readResponse i).status) = some .ok := congrArg some (status_readResponse _ _)
  by_cases hcut : (s.reader r).cur.toNat + n ≤ (t.reader r).total.toNat
  · have enough : (t.reader r).hasBits n = true := (hasBits_iff _ _).mpr (by rw [hcur]; exact hcut)
    refine ⟨_, _, full, exec_read_of_enough asked ht hft hlt hot enough, hok, fun _ => ?_, fun h => by omega⟩
    refine congrArg some (readResponse_congr asked hlt hcur fun k hk => hbits k ?_)
    rw [hcur] at hk
    omega
  · have short : (t.reader r).hasBits n = false := hasBits_eq_false (by rw [hcur]; omega)
    refine ⟨_, _, full, exec_read_of_short asked hft hlt hot short, hok, fun h => absurd h hcut, fun _ => ⟨rfl, ?_⟩⟩
    exact congrArg Reader.st ((reader_poison _ _ _).trans (if_pos rfl))

/-! ### Reads as a walk over the stream bits (42_reader_ops R167) -/

/-- `n` stream bits from bit `c` on. -/
def streamBits (m : Memory) (c n : Nat) : List Bool := (List.range n).map fun k => streamBit m (c + k)

@[simp] theorem streamBits_zero (m : Memory) (c : Nat) : streamBits m c 0 = [] := rfl

@[simp] theorem streamBits_length (m : Memory) (c n : Nat) : (streamBits m c n).length = n := by simp [streamBits]

theorem streamBits_add (m : Memory) (c a b : Nat) :
    streamBits m c (a + b) = streamBits m c a ++ streamBits m (c + a) b := by
  simp [streamBits, List.range_add, Nat.add_assoc]

/-- The bits of a field that `load_bits` delivers. -/
theorem lowBits_loadBits (m : Memory) (c : Nat) {n : Nat} (hn : n ≤ 64) :
    lowBits (loadBits m c n) n = streamBits m c n := by
  refine List.map_congr_left fun k hk => ?_
  rw [getLsbD_loadBits m c hn, decide_eq_true (List.mem_range.mp hk), Bool.true_and]

/-- The bits of the elements that the slow datapath of `R_ARRAY` delivers. -/
theorem flatMap_lowBits_loadElems (m : Memory) (c : Nat) {width : Nat} (hw : width ≤ 64) (n : Nat) :
    (loadElems m c width n).flatMap (fun e => lowBits e width) = streamBits m c (n * width) := by
  induction n with
  | zero => simp [loadElems]
  | succ n ih =>
    have last : loadElems m c width (n + 1) = loadElems m c width n ++ [loadBits m (c + n * width) width] := by
      simp [loadElems, List.range_succ]
    rw [last, List.flatMap_append, ih, List.flatMap_singleton, lowBits_loadBits m _ hw, Nat.succ_mul, streamBits_add]

section
variable {s u : State} {r : Ctx} {i : Instr} {a : Response}

theorem status_ne_ok_of_take {e : Exception} (h : (s.take e).resp = some a) : a.status ≠ .ok := by
  cases h
  cases e <;> exact nofun

/-- A command answered `OK` passed the first checks (60_exceptions R248). -/
theorem running_legal_of_ok (h : exec i s = .next u) (ha : u.resp = some a) (hok : a.status = .ok) :
    s.fatal = false ∧ s.legal i = true := by
  obtain ⟨body, hx⟩ := exec_eq_checked i s
  rcases checked_cases s (s.legal i) body with ⟨_, hc⟩ | ⟨_, _, hc⟩ | ⟨hf, hl, _⟩
  · obtain rfl := Host.Outcome.next.inj ((hx.trans hc).symm.trans h)
    exact absurd hok (status_ne_ok_of_take ha)
  · obtain rfl := Host.Outcome.next.inj ((hx.trans hc).symm.trans h)
    exact absurd hok (status_ne_ok_of_take ha)
  · exact ⟨hf, hl⟩

/-- A read answered `OK` is a legal read of bits that remain. -/
theorem read_of_ok {n : Nat} (asked : bitsAsked i = some (r, n)) (hi : Inv s) (ho : (s.reader r).st = .opened)
    (h : exec i s = .next u) (ha : u.resp = some a) (hok : a.status = .ok) :
    s.legal i = true ∧ (s.reader r).hasBits n = true ∧ u = { s.afterRead i with resp := some a } ∧
      a = (s.reader r).readResponse i := by
  obtain ⟨hf, hl⟩ := running_legal_of_ok h ha hok
  cases enough : (s.reader r).hasBits n with
  | false =>
    obtain rfl := Host.Outcome.next.inj ((exec_read_of_short asked hf hl ho enough).symm.trans h)
    exact absurd hok (status_ne_ok_of_take ha)
  | true =>
    obtain rfl := Host.Outcome.next.inj ((exec_read_of_enough asked hi hf hl ho enough).symm.trans h)
    cases ha
    exact ⟨hl, rfl, rfl, rfl⟩

/-- `R_BITS` or `R_ARRAY` of reader `r`: a read that advances the cursor. -/
def Advances (r : Ctx) (i : Instr) : Prop := (∃ width, i = .rBits r width) ∨ ∃ width n, i = .rArray r width n

/-- One advancing read answered `OK` delivers the bits at the cursor and moves the cursor behind them. -/
theorem Advances.delivers (hr : Advances r i) (hi : Inv s) (ho : (s.reader r).st = .opened) (h : exec i s = .next u)
    (ha : u.resp = some a) (hok : a.status = .ok) :
    ∃ n cur, bitsDelivered i a = streamBits (s.reader r).src (s.reader r).cur.toNat n ∧
      u.reader r = { s.reader r with cur := cur } ∧ cur.toNat = (s.reader r).cur.toNat + n := by
  rcases hr with ⟨width, rfl⟩ | ⟨width, n, rfl⟩
  · obtain ⟨hl, enough, rfl, rfl⟩ := read_of_ok rfl hi ho h ha hok
    exact ⟨_, _, lowBits_loadBits _ _ (width_le_of_legal_rBits hl), reader_setReader_same _ _ _, cursor_advance_toNat enough⟩
  · obtain ⟨hl, enough, rfl, rfl⟩ := read_of_ok rfl hi ho h ha hok
    exact ⟨_, _, flatMap_lowBits_loadElems _ _ (width_le_of_legal_rArray hl) _, reader_setReader_same _ _ _,
      cursor_advance_toNat enough⟩

end

theorem runAll_cons_eq_some {i : Instr} {is : List Instr} {s t : State} {rs : List Response}
    (h : runAll (i :: is) s = some (rs, t)) :
    ∃ u a rs', exec i s = .next u ∧ u.resp = some a ∧ rs = a :: rs' ∧ runAll is u = some (rs', t) := by
  obtain ⟨u, rs', hx, hrun⟩ := exists_exec_of_runAll_cons h
  cases ha : u.resp with
  | none => simp [runAll, hx, ha] at h
  | some a =>
    rw [runAll_cons hx ha, hrun] at h
    obtain ⟨rfl, _⟩ := Prod.mk.inj (Option.some.inj h)
    exact ⟨u, a, rs', hx, ha, rfl, hrun⟩

/-- Settles O55: each read begins where the one before ended, and keeps the source. -/
theorem sequentialReadsSeeTheBitSequence : Obligations.SequentialReadsSeeTheBitSequence := by
  intro s t r reads rs hi ho hreads hrun hok
  induction reads generalizing s rs with
  | nil =>
    obtain ⟨_, rfl⟩ := Prod.mk.inj (Option.some.inj hrun)
    exact ⟨0, rfl, rfl⟩
  | cons i reads ih =>
    obtain ⟨hread, hreads⟩ := List.forall_mem_cons.mp hreads
    obtain ⟨u, a, rs', hx, ha, rfl, hrun'⟩ := runAll_cons_eq_some hrun
    obtain ⟨haok, hok⟩ := List.forall_mem_cons.mp hok
    obtain ⟨n, cur, hbits, hreader, hcur⟩ := Advances.delivers hread hi ho hx ha haok
    obtain ⟨m, htail, hend⟩ := ih u rs' (hi.exec hx) (by rw [hreader]; exact ho) hreads hrun' hok
    simp only [hreader, hcur] at htail hend
    refine ⟨n + m, ?_, by omega⟩
    rw [List.zipWith_cons_cons, List.flatten_cons, hbits, htail]
    exact (streamBits_add _ _ n m).symm

/-! ### Fields written and read back (42_reader_ops R168) -/

theorem runAll_cons_of {i : Instr} {is : List Instr} {s t u : State} {a : Response} {as : List Response}
    (h : exec i s = .next t) (ha : t.resp = some a) (hrest : runAll is t = some (as, u)) :
    runAll (i :: is) s = some (a :: as, u) := by
  rw [runAll_cons h ha, hrest]
  rfl

theorem runAll_append_of {is js : List Instr} {s t u : State} {as bs : List Response}
    (hi : runAll is s = some (as, t)) (hj : runAll js t = some (bs, u)) : runAll (is ++ js) s = some (as ++ bs, u) := by
  induction is generalizing s as with
  | nil =>
    obtain ⟨rfl, rfl⟩ := Prod.mk.inj (Option.some.inj hi)
    exact hj
  | cons i is ih =>
    obtain ⟨v, a, as', hx, ha, rfl, hrun⟩ := runAll_cons_eq_some hi
    exact runAll_cons_of hx ha (ih hrun)

/-- The bits of a list of fields `(width, value)`, in order. -/
def fieldBits (fields : List (Width × Word)) : List Bool := fields.flatMap fun f => lowBits f.2 f.1.toNat

theorem fieldBits_cons (f : Width × Word) (fields : List (Width × Word)) :
    fieldBits (f :: fields) = lowBits f.2 f.1.toNat ++ fieldBits fields := List.flatMap_cons

theorem fieldBits_length (fields : List (Width × Word)) : (fieldBits fields).length = bitCount fields := by
  simp [fieldBits, bitCount, List.length_flatMap]

/-- A running good state of build `p` whose writer `w` is `OPEN` and holds the given bits. -/
structure Writing (p : Params) (w : Ctx) (bits : List Bool) (s : State) : Prop where
  good : Inv s
  running : s.fatal = false
  build : s.params = p
  opened : (s.writer w).st = .opened
  holds : (s.writer w).Holds bits

/-- A running good state of build `p` whose reader `r` is `OPEN` with the given bits unread. -/
structure Reading (p : Params) (r : Ctx) (bits : List Bool) (s : State) : Prop where
  good : Inv s
  running : s.fatal = false
  build : s.params = p
  opened : (s.reader r).st = .opened
  left : (s.reader r).cur.toNat + bits.length = (s.reader r).total.toNat
  unread : streamBits (s.reader r).src (s.reader r).cur.toNat bits.length = bits

section
variable {p : Params} {w r : Ctx} {bits : List Bool} {s : State}

theorem writing_of_wOpen (hi : Inv s) (hf : s.fatal = false) (hw : w.toNat < s.params.nw) :
    ∃ t, exec (.wOpen w) s = .next t ∧ t.resp = some (okResponse 0) ∧ Writing s.params w [] t := by
  have hx := exec_wOpen hf hw
  have opened := congrArg Writer.st (writer_setWriter_same s w { st := .opened, cur := 0, store := [], alloc := 0 })
  exact ⟨_, hx, rfl, hi.exec hx, hf, rfl, opened, holds_of_exec_wOpen hf hw hx⟩

theorem bitsAnswered_writeBits (s : State) (w : Ctx) (width : Width) (value : Word) :
    bitsAnswered w (.wBits w width value) s (s.writeBits w width.toNat value) = lowBits value width.toNat := by
  simp [bitsAnswered, bitsAppended, State.writeBits]

/-- `W_BITS` with room appends the bits of its field. -/
theorem Writing.wBits (h : Writing p w bits s) (hw : w.toNat < p.nw) {width : Width} (hn : width.toNat ≤ 64)
    (value : Word) (room : cdiv8 (bits.length + width.toNat) ≤ p.wcap) :
    ∃ t, exec (.wBits w width value) s = .next t ∧ t.resp = some (okResponse 0) ∧
      Writing p w (bits ++ lowBits value width.toNat) t := by
  obtain ⟨hi, hf, rfl, ho, hb⟩ := h
  obtain ⟨hcur, _⟩ := hb (by simp [ho])
  have room' : s.hasRoom w width.toNat = true := (hasRoom_iff _ _ _).mpr (by rwa [hcur])
  have hx := (exec_wBits_of_opened value hf hw hn ho).trans (needRoom_of_room room')
  have hholds := hb.exec (i := .wBits w width value) hi nofun hx
  rw [bitsAnswered_writeBits] at hholds
  exact ⟨_, hx, rfl, hi.exec hx, hf, rfl, (st_writeBits _ _).trans ho, hholds⟩

/-- A run of `W_BITS` with room appends the bits of its fields. -/
theorem Writing.fields (h : Writing p w bits s) (hw : w.toNat < p.nw) {fields : List (Width × Word)}
    (hn : ∀ f ∈ fields, f.1.toNat ≤ 64) (room : cdiv8 (bits.length + bitCount fields) ≤ p.wcap) :
    ∃ t, runAll (fields.map fun f => .wBits w f.1 f.2) s = some (fields.map fun _ => okResponse 0, t) ∧
      Writing p w (bits ++ fieldBits fields) t := by
  induction fields generalizing s bits with
  | nil => exact ⟨s, rfl, by rwa [fieldBits, List.flatMap_nil, List.append_nil]⟩
  | cons f fields ih =>
    obtain ⟨hnf, hn⟩ := List.forall_mem_cons.mp hn
    have hcount : bitCount (f :: fields) = f.1.toNat + bitCount fields := List.sum_cons
    rw [hcount, cdiv8] at room
    obtain ⟨t, hx, hresp, ht⟩ := h.wBits hw hnf f.2 (by rw [cdiv8]; omega)
    obtain ⟨u, hrun, hu⟩ := ih ht hn (by rw [List.length_append, lowBits_length, cdiv8]; omega)
    rw [List.append_assoc, ← fieldBits_cons] at hu
    exact ⟨u, runAll_cons_of hx hresp hrun, hu⟩

/-- `W_FINISH` answers the bit count and leaves the bits in the store. -/
theorem Writing.wFinish (h : Writing p w bits s) (hw : w.toNat < p.nw) :
    ∃ t, exec (.wFinish w) s = .next t ∧ t.resp = some (okResponse (BitVec.ofNat 64 bits.length)) ∧
      Inv t ∧ t.fatal = false ∧ t.params = p ∧ ∀ k, streamBit (t.writer w).store k = bits.getD k false := by
  obtain ⟨hi, hf, rfl, ho, hb⟩ := h
  obtain ⟨hcur, _⟩ := hb (by simp [ho])
  have hx := exec_wFinish_of_opened hf hw ho
  have hword : (s.writer w).cur = BitVec.ofNat 64 bits.length := by rw [← hcur, BitVec.ofNat_toNat, BitVec.setWidth_eq]
  refine ⟨_, hx, by rw [← hword]; rfl, hi.exec hx, hf, rfl, fun k => ?_⟩
  rw [respond_writer, writer_setWriter_same]
  exact hb.streamBit (by simp [ho]) k

theorem readByte_ofBytes_outputBytes (m : Memory) {n j : Nat} (hj : j < n) :
    readByte (Memory.ofBytes (outputBytes m n)) j = readByte m j := by
  simp [outputBytes, List.getElem?_range hj]

/-- The stream bits of the first `cdiv8(n)` bytes include the first `n` bits. -/
theorem streamBits_ofBytes_outputBytes {m : Memory} (hm : ∀ k, streamBit m k = bits.getD k false) :
    streamBits (Memory.ofBytes (outputBytes m (cdiv8 bits.length))) 0 bits.length = bits := by
  refine List.ext_getElem (streamBits_length _ _ _) fun k _ hk => ?_
  have hbyte : k / 8 < cdiv8 bits.length := by rw [cdiv8]; omega
  simp only [streamBits, List.getElem_map, List.getElem_range, Nat.zero_add]
  rw [streamBit, readByte_ofBytes_outputBytes m hbyte, ← streamBit, hm, List.getD_eq_getElem _ _ hk]

/-- `R_OPEN` over the bytes of a finished output leaves its bits unread. -/
theorem reading_of_rOpen (hi : Inv s) (hf : s.fatal = false) (hr : r.toNat < s.params.nr) {m : Memory}
    (hm : ∀ k, streamBit m k = bits.getD k false) (fits : cdiv8 bits.length ≤ s.params.rcap) :
    ∃ t, exec (.rOpen r (BitVec.ofNat 64 (cdiv8 bits.length)) (BitVec.ofNat 64 bits.length)
          (outputBytes m (cdiv8 bits.length))) s = .next t ∧
      t.resp = some (okResponse (BitVec.ofNat 64 bits.length)) ∧ Reading s.params r bits t := by
  obtain ⟨_, _, _, _, hcap⟩ := (Params.wf_iff _).mp hi.1
  have hbytes : cdiv8 bits.length = (bits.length + 7) / 8 := rfl
  have hnbytes : (BitVec.ofNat 64 (cdiv8 bits.length)).toNat = cdiv8 bits.length := by
    rw [BitVec.toNat_ofNat, Nat.mod_eq_of_lt (by omega)]
  have htotal : (BitVec.ofNat 64 bits.length).toNat = bits.length := by
    rw [BitVec.toNat_ofNat, Nat.mod_eq_of_lt (by omega)]
  have hsrc : (outputBytes m (cdiv8 bits.length)).length = cdiv8 bits.length := by
    rw [outputBytes, List.length_map, List.length_range]
  have hx := exec_rOpen (total := BitVec.ofNat 64 bits.length) hf hr (hnbytes.trans_le fits) (hsrc.trans hnbytes.symm)
    (by rw [hnbytes, htotal]; omega)
  refine ⟨_, hx, rfl, hi.exec hx, hf, rfl, ?_, ?_, ?_⟩ <;> rw [respond_reader, reader_bindReader, if_pos rfl]
  · exact (Nat.zero_add _).trans htotal.symm
  · exact streamBits_ofBytes_outputBytes hm

theorem eq_pack_of_lowBits_eq {v e : Word} {n : Nat} (he : ∀ i, n ≤ i → e.getLsbD i = false)
    (h : lowBits e n = lowBits v n) : e = pack v n := by
  refine BitVec.eq_of_getLsbD_eq fun i _ => ?_
  rw [getLsbD_pack]
  by_cases hi : i < n
  · have := List.map_inj_left.mp h i (List.mem_range.mpr hi)
    rw [this, decide_eq_true hi, Bool.true_and]
  · rw [he i (by omega), decide_eq_false hi, Bool.false_and]

/-- `R_BITS` takes the bits of a field off the unread ones. -/
theorem Reading.rBits {width : Width} {value : Word} (h : Reading p r (lowBits value width.toNat ++ bits) s)
    (hr : r.toNat < p.nr) (hn : width.toNat ≤ 64) :
    ∃ t, exec (.rBits r width) s = .next t ∧ t.resp = some (okResponse (pack value width.toNat)) ∧
      Reading p r bits t := by
  obtain ⟨hi, hf, rfl, ho, hleft, hunread⟩ := h
  rw [List.length_append, lowBits_length] at hleft hunread
  rw [streamBits_add] at hunread
  obtain ⟨hfield, hrest⟩ := List.append_inj hunread (by simp)
  have enough : (s.reader r).hasBits width.toNat = true := (hasBits_iff _ _).mpr (by omega)
  have hx := exec_read_of_enough rfl hi hf (legal_rBits hr hn) ho enough
  have hvalue : loadBits (s.reader r).src (s.reader r).cur.toNat width.toNat = pack value width.toNat := by
    refine eq_pack_of_lowBits_eq (fun i hi => ?_) ((lowBits_loadBits _ _ hn).trans hfield)
    rw [getLsbD_loadBits _ _ hn, decide_eq_false (by omega), Bool.false_and]
  have hcur := cursor_advance_toNat enough
  refine ⟨_, hx, congrArg (fun v => some (okResponse v)) hvalue, hi.exec hx, hf, rfl, ?_, ?_, ?_⟩ <;>
    rw [reader_afterRead_rBits]
  · exact ho
  · rw [hcur, Nat.add_assoc]
    exact hleft
  · rw [hcur]
    exact hrest

/-- A run of `R_BITS` with the widths of the fields gives the fields back. -/
theorem Reading.fields {fields : List (Width × Word)} (h : Reading p r (fieldBits fields ++ bits) s) (hr : r.toNat < p.nr)
    (hn : ∀ f ∈ fields, f.1.toNat ≤ 64) :
    ∃ t, runAll (fields.map fun f => .rBits r f.1) s = some (fields.map fun f => okResponse (pack f.2 f.1.toNat), t) ∧
      Reading p r bits t := by
  induction fields generalizing s with
  | nil => exact ⟨s, rfl, h⟩
  | cons f fields ih =>
    obtain ⟨hnf, hn⟩ := List.forall_mem_cons.mp hn
    rw [fieldBits_cons, List.append_assoc] at h
    obtain ⟨t, hx, hresp, ht⟩ := h.rBits hr hnf
    obtain ⟨u, hrun, hu⟩ := ih ht hn
    exact ⟨u, runAll_cons_of hx hresp hrun, hu⟩

/-- With no bit unread, `R_REMAIN` answers 0 and a read of at least one bit is answered `Truncated`. -/
theorem Reading.exhausted (h : Reading p r [] s) (hr : r.toNat < p.nr) {extra : Width} (hpos : 1 ≤ extra.toNat)
    (hn : extra.toNat ≤ 64) :
    ∃ u, runAll [.rRemain r, .rBits r extra] s = some ([okResponse 0, errorResponse .truncated], u) := by
  obtain ⟨_, hf, rfl, ho, hleft, _⟩ := h
  rw [List.length_nil, Nat.add_zero] at hleft
  have hzero : (s.reader r).remaining = 0 := BitVec.eq_of_toNat_eq (by rw [toNat_remaining, hleft, Nat.sub_self]; rfl)
  have hremain := exec_rRemain_of_opened hf hr ho
  rw [hzero] at hremain
  have short : (s.reader r).hasBits extra.toNat = false := hasBits_eq_false (by omega)
  have hread := exec_read_of_short (s := s.respond .ok 0 []) rfl hf (legal_rBits hr hn) ho short
  exact ⟨_, runAll_pair hremain rfl hread rfl⟩

end

/-- Settles O53: the bits the writer holds when it is finished are those the reader finds unread, field by field. -/
theorem fieldsReadBackAsWritten : Obligations.FieldsReadBackAsWritten := by
  intro s w r fields extra hi hf hw hr hn hpos hextra hwcap hrcap
  obtain ⟨s1, hopen, hopenResp, h1⟩ := writing_of_wOpen hi hf hw
  obtain ⟨s2, hwrites, h2⟩ := h1.fields hw hn (by rwa [List.length_nil, Nat.zero_add])
  rw [List.nil_append] at h2
  obtain ⟨t, hfinish, hfinishResp, hit, hft, hpt, hstore⟩ := h2.wFinish hw
  obtain ⟨t1, hbind, hbindResp, h3⟩ :=
    reading_of_rOpen hit hft (hpt ▸ hr) hstore (by rwa [fieldBits_length, hpt])
  rw [hpt, ← List.append_nil (fieldBits fields)] at h3
  obtain ⟨t2, hreads, h4⟩ := h3.fields hr hn
  obtain ⟨u, hend⟩ := h4.exhausted hr hpos hextra
  rw [fieldBits_length] at hfinishResp hbind hbindResp
  exact ⟨t, u, runAll_cons_of hopen hopenResp (runAll_append_of hwrites (runAll_cons_of hfinish hfinishResp rfl)),
    runAll_cons_of hbind hbindResp (runAll_append_of hreads hend)⟩

end Sys2Proof.Machine

namespace Sys2Proof.Machine

/-! ### The two datapaths of the array commands (43_fastpath_array R181 to R191) -/

/-- What the selector tests (R181). -/
theorem fastOk_iff (s : State) (cur width : Nat) :
    s.fastOk cur width = true ↔ s.fastEn = true ∧ 8 ∣ cur ∧ 8 ∣ width ∧ s.hostLe = true := by
  simp only [State.fastOk, Bool.and_eq_true, beq_iff_eq, Nat.dvd_iff_mod_eq_zero, and_assoc]

theorem writeBytes_append (m : Memory) (a : Nat) (bs bs' : List Byte) :
    writeBytes m a (bs ++ bs') = writeBytes (writeBytes m a bs) (a + bs.length) bs' := by
  induction bs generalizing m a with
  | nil => rfl
  | cons b bs ih =>
    rw [List.cons_append, writeBytes, writeBytes, ih, List.length_cons, Nat.add_right_comm, Nat.add_assoc]

/-- The first `m` bytes of an element, least significant first: its host image on a little-endian host (R182). -/
def elementBytes (m : Nat) (e : Word) : List Byte := (List.range m).map (elementByte e)

@[simp] theorem elementBytes_length (m : Nat) (e : Word) : (elementBytes m e).length = m := by simp [elementBytes]

theorem getD_elementBytes (e : Word) {m k : Nat} (hk : k < m) : (elementBytes m e).getD k 0 = elementByte e k := by
  simp [elementBytes, List.getElem?_range hk]

theorem hostImage_true_cons (m : Nat) (e : Word) (es : List Word) :
    hostImage true m (e :: es) = elementBytes m e ++ hostImage true m es := List.flatMap_cons

/-- One element of whole bytes at a byte boundary: with ZERO-ABOVE, or-ing it in is copying its bytes
(40_cursor_arithmetic R128). -/
theorem storeBits_aligned {store : Memory} (hs : store.wf = true) {b m : Nat} (hm : m ≤ 8) (e : Word)
    (hzero : ∀ k, 8 * b ≤ k → streamBit store k = false) :
    storeBits store (8 * b) (8 * m) e = writeBytes store b (elementBytes m e) := by
  refine eq_of_readByte (wf_storeBits hs _ _ _) (wf_writeBytes hs _ _) fun a => ?_
  rw [readByte_writeBytes hs, elementBytes_length]
  split
  case isTrue hin =>
    obtain ⟨placed, _⟩ := alignedFieldsAreLittleEndian
    have hbyte := placed store b m e hs hm hzero (a - b) (by omega)
    rw [Nat.add_sub_cancel' hin.1] at hbyte
    rw [hbyte, getD_elementBytes e (by omega), elementByte]
  case isFalse hout => exact readByte_storeBits_outside _ _ (by omega)

/-- A store keeps ZERO-ABOVE (10_state R22 item 2), the cursor moved behind the field. -/
theorem zero_above_storeBits {store : Memory} (hs : store.wf = true) {c n : Nat} (hn : n ≤ 64) (v : Word)
    (hzero : ∀ k, c ≤ k → streamBit store k = false) : ∀ k, c + n ≤ k → streamBit (storeBits store c n v) k = false := by
  intro k hk
  rw [streamBit_storeBits_outside hs hn v (.inr hk)]
  exact hzero k (by omega)

/-- The byte copy of the fast datapath is the loop of the slow one, element by element (R187). -/
theorem writeBytes_hostImage {store : Memory} (hs : store.wf = true) {b m : Nat} (hm : m ≤ 8) (es : List Word)
    (hzero : ∀ k, 8 * b ≤ k → streamBit store k = false) :
    writeBytes store b (hostImage true m es) = storeElems store (8 * b) (8 * m) es := by
  induction es generalizing store b with
  | nil => rfl
  | cons e es ih =>
    have habove := zero_above_storeBits hs (show 8 * m ≤ 64 by omega) e hzero
    rw [← Nat.mul_add] at habove
    rw [hostImage_true_cons, writeBytes_append, elementBytes_length, ← storeBits_aligned hs hm e hzero,
      ih (wf_storeBits hs _ _ _) habove, storeElems, Nat.mul_add]

theorem fastStoreElems_eq_storeElems {s : State} {store : Memory} (hs : store.wf = true) {c width : Nat}
    (hw : width ≤ 64) (hfast : s.fastOk c width = true) (es : List Word)
    (hzero : ∀ k, c ≤ k → streamBit store k = false) :
    fastStoreElems s.hostLe store c width es = storeElems store c width es := by
  obtain ⟨_, ⟨b, rfl⟩, ⟨m, rfl⟩, hle⟩ := (fastOk_iff _ _ _).mp hfast
  rw [fastStoreElems, hle, Nat.mul_div_cancel_left b (by decide), Nat.mul_div_cancel_left m (by decide)]
  exact writeBytes_hostImage hs (by omega) es hzero

theorem fastLoadElems_eq_loadElems {s : State} {c width : Nat} (hw : width ≤ 64) (hfast : s.fastOk c width = true)
    (src : Memory) (n : Nat) : fastLoadElems src c width n = loadElems src c width n := by
  obtain ⟨_, ⟨b, rfl⟩, ⟨m, rfl⟩, _⟩ := (fastOk_iff _ _ _).mp hfast
  refine List.map_congr_left fun i _ => ?_
  have hstart : 8 * b + i * (8 * m) = 8 * (b + i * m) := by ring
  rw [Nat.mul_div_cancel_left b (by decide), Nat.mul_div_cancel_left m (by decide), hstart,
    loadBits_aligned src _ (by omega)]

/-- Settles O45: ZERO-ABOVE holds of an `OPEN` writer, so the byte copy and the loop leave the same store. -/
theorem fastArrayWriteEqualsSlow : Obligations.FastArrayWriteEqualsSlow := by
  intro s w width elems hi ho _ hn
  have same (hfast : s.fastOk (s.writer w).cur.toNat width.toNat = true) :=
    fastStoreElems_eq_storeElems (hi.store_wf w) hn hfast elems (hi.zero_above (by simp [ho]))
  exact ⟨same, ite_eq_right_iff.mpr same⟩

/-- Settles O46: an aligned field of whole bytes is its bytes read as a little-endian number (R128), in any store. -/
theorem fastArrayReadEqualsSlow : Obligations.FastArrayReadEqualsSlow := by
  intro s r width n _ hn
  have same (hfast : s.fastOk (s.reader r).cur.toNat width.toNat = true) :=
    fastLoadElems_eq_loadElems hn hfast (s.reader r).src n
  exact ⟨same, ite_eq_right_iff.mpr same⟩

/-! ### What the array commands do (43_fastpath_array R183, R188) -/

/-- With ZERO-ABOVE, the slow datapath of `W_ARRAY` leaves the bits of each element in its field. -/
theorem streamBit_storeElems_inside {store : Memory} (hs : store.wf = true) {c width : Nat} (hw : width ≤ 64)
    (es : List Word) (hzero : ∀ k, c ≤ k → streamBit store k = false) {i j : Nat} (hi : i < es.length) (hj : j < width) :
    streamBit (storeElems store c width es) (c + i * width + j) = (es.getD i 0).getLsbD j := by
  induction es generalizing store c i with
  | nil => exact absurd hi (Nat.not_lt_zero i)
  | cons e es ih =>
    have hs' := wf_storeBits hs c width e
    rw [storeElems]
    cases i with
    | zero =>
      rw [Nat.zero_mul, Nat.add_zero, streamBit_storeElems_outside hs' hw es (.inl (by omega)),
        streamBit_storeBits_inside hs hw e hzero hj, List.getD_cons_zero]
    | succ i =>
      have hpos : c + (i + 1) * width + j = c + width + i * width + j := by ring
      rw [hpos, ih hs' (zero_above_storeBits hs hw e hzero) (Nat.lt_of_succ_lt_succ hi), List.getD_cons_succ]

section
variable {s : State} {w : Ctx}

/-- The state that `W_ARRAY` with room leaves (R183). -/
def State.writeElems (s : State) (w : Ctx) (width : Nat) (elems : List Word) : State :=
  ((s.extendWriter w (elems.length * width)
    (storeElems (s.writer w).store (s.writer w).cur.toNat width elems)).setFpTaken
      (s.fastOk (s.writer w).cur.toNat width)).respond .ok 0 []

theorem exec_wArray_of_room {width : Width} {elems : List Word} (hf : s.fatal = false) (hw : w.toNat < s.params.nw)
    (hpos : 1 ≤ width.toNat) (hn : width.toNat ≤ 64) (hlen : elems.length < 2 ^ 64) (ho : (s.writer w).st = .opened)
    (room : s.hasRoom w (elems.length * width.toNat) = true) :
    exec (.wArray w width elems) s = .next (s.writeElems w width.toNat elems) :=
  have legal : s.legal (.wArray w width elems) = true := by
    simpa [State.legal, elementWidthOk, hasWriter_of_lt hw, hpos, hn] using hlen
  (checked_of_legal hf legal).trans <| (needWriter_of_st ho).trans (needRoom_of_room room)

theorem st_writeElems (width : Nat) (elems : List Word) :
    ((s.writeElems w width elems).writer w).st = (s.writer w).st := st_extendWriter _ _

theorem cur_writeElems (hi : Inv s) {width : Nat} {elems : List Word}
    (room : s.hasRoom w (elems.length * width) = true) :
    ((s.writeElems w width elems).writer w).cur.toNat = (s.writer w).cur.toNat + elems.length * width :=
  cur_extendWriter hi room _

theorem store_writeElems (width : Nat) (elems : List Word) :
    ((s.writeElems w width elems).writer w).store =
      storeElems (s.writer w).store (s.writer w).cur.toNat width elems :=
  store_extendWriter _ _ _ _

end

/-- Settles O27: the bits are those the slow datapath leaves under ZERO-ABOVE. -/
theorem arrayWriteAppendsTheElements : Obligations.ArrayWriteAppendsTheElements := by
  intro s w width elems hi hf hw hpos hn hlen ho hroom
  have room := (hasRoom_iff s w _).mpr hroom
  refine ⟨_, exec_wArray_of_room hf hw hpos hn hlen ho room, rfl, ?_⟩
  rw [st_writeElems, cur_writeElems hi room, store_writeElems]
  exact ⟨ho, rfl,
    fun i j => streamBit_storeElems_inside (hi.store_wf w) hn elems (hi.zero_above (by simp [ho])),
    fun k => streamBit_storeElems_outside (hi.store_wf w) hn elems⟩

@[simp] theorem loadElems_length (m : Memory) (c width n : Nat) : (loadElems m c width n).length = n := by simp [loadElems]

theorem getD_loadElems (m : Memory) (c width : Nat) {n i : Nat} (hi : i < n) :
    (loadElems m c width n).getD i 0 = loadBits m (c + i * width) width := by
  simp [loadElems, List.getElem?_range hi]

theorem legal_rArray {s : State} {r : Ctx} {width : Width} (hr : r.toNat < s.params.nr) (hpos : 1 ≤ width.toNat)
    (hn : width.toNat ≤ 64) (n : Word) : s.legal (.rArray r width n) = true := by
  simp [State.legal, elementWidthOk, hasReader_of_lt hr, hpos, hn]

/-- The reader that `R_ARRAY` of a run that remains leaves. -/
theorem reader_afterRead_rArray (s : State) (r : Ctx) (width : Width) (n : Word) (a : Option Response) :
    ({ s.afterRead (.rArray r width n) with resp := a } : State).reader r =
      { s.reader r with cur := BitVec.ofNat 64 ((s.reader r).cur.toNat + n.toNat * width.toNat) } :=
  reader_setReader_same _ _ _

/-- Settles O32: element `i` is the field that `load_bits` delivers at `cur + i * width`. -/
theorem arrayReadReturnsTheElements : Obligations.ArrayReadReturnsTheElements := by
  intro s r width n hi hf hr hpos hn ho hle
  have enough := (hasBits_iff _ _).mpr hle
  refine ⟨_, _, exec_read_of_enough rfl hi hf (legal_rArray hr hpos hn n) ho enough, rfl, loadElems_length _ _ _ _, ?_⟩
  rw [reader_afterRead_rArray]
  refine ⟨ho, cursor_advance_toNat enough, fun i j hlt => ?_⟩
  rw [getD_loadElems _ _ _ hlt, getLsbD_loadBits _ _ hn]

/-! ### An array write and the run of single writes (43_fastpath_array R183) -/

theorem SameState.symm {s t : State} (h : SameState s t) : SameState t s := by
  obtain ⟨hp, hf, he, hl, hr, hw⟩ := h
  refine ⟨hp.symm, hf.symm, he.symm, hl.symm, hr.symm, fun w => ?_⟩
  obtain ⟨hst, hcur, hstore⟩ := hw w
  exact ⟨hst.symm, hcur.symm, hstore.symm⟩

theorem SameState.trans {s t u : State} (h : SameState s t) (h' : SameState t u) : SameState s u := by
  obtain ⟨hp, hf, he, hl, hr, hw⟩ := h
  obtain ⟨hp', hf', he', hl', hr', hw'⟩ := h'
  refine ⟨hp.trans hp', hf.trans hf', he.trans he', hl.trans hl', hr.trans hr', fun w => ?_⟩
  obtain ⟨hst, hcur, hstore⟩ := hw w
  obtain ⟨hst', hcur', hstore'⟩ := hw' w
  exact ⟨hst.trans hst', hcur.trans hcur', hstore.trans hstore'⟩

/-- An array of no element leaves the state as it is, but for the hidden state. -/
theorem sameState_writeElems_nil (s : State) (w : Ctx) (width : Nat) : SameState (s.writeElems w width []) s := by
  refine ⟨rfl, rfl, rfl, rfl, rfl, fun v => ?_⟩
  have hwriter := writer_extendWriter s w v (([] : List Word).length * width) (s.writer w).store
  refine (congrArg (Writer.SameButAlloc · (s.writer v)) hwriter).mpr ?_
  split
  case isTrue h => simp [h, Writer.SameButAlloc]
  case isFalse => exact ⟨rfl, rfl, rfl⟩

/-- An array write is the write of its first element, then the write of the others. -/
theorem sameState_writeElems_cons {s : State} (hi : Inv s) {w : Ctx} {width : Nat} (e : Word) (es : List Word)
    (room1 : s.hasRoom w width = true) :
    SameState (s.writeElems w width (e :: es)) ((s.writeBits w width e).writeElems w width es) := by
  have hstore : storeElems ((s.writeBits w width e).writer w).store ((s.writeBits w width e).writer w).cur.toNat width es =
      storeElems (s.writer w).store (s.writer w).cur.toNat width (e :: es) := by
    rw [store_writeBits, cur_writeBits hi room1, storeElems]
  have hcount : (e :: es).length * width = width + es.length * width := by rw [List.length_cons]; ring
  have joined := sameState_extendWriter_extendWriter hi room1 (es.length * width)
    (storeBits (s.writer w).store (s.writer w).cur.toNat width e) hstore
  rw [← hcount] at joined
  exact joined.symm

/-- A run of `W_BITS` with room completes and leaves the state of the array write. -/
theorem runAll_wBits_of_room {s : State} (hi : Inv s) (hf : s.fatal = false) {w : Ctx} (hw : w.toNat < s.params.nw)
    {width : Width} (hn : width.toNat ≤ 64) (ho : (s.writer w).st = .opened) (elems : List Word)
    (room : s.hasRoom w (elems.length * width.toNat) = true) :
    ∃ u, runAll (elems.map fun e => .wBits w width e) s = some (elems.map fun _ => okResponse 0, u) ∧
      SameState (s.writeElems w width.toNat elems) u := by
  induction elems generalizing s with
  | nil => exact ⟨s, rfl, sameState_writeElems_nil s w width.toNat⟩
  | cons e es ih =>
    rw [List.length_cons, Nat.succ_mul, Nat.add_comm] at room
    have room1 : s.hasRoom w width.toNat = true := hasRoom_of_le room (Nat.le_add_right _ _)
    have hx := (exec_wBits_of_opened e hf hw hn ho).trans (needRoom_of_room room1)
    obtain ⟨u, hrun, hsame⟩ := ih (hi.exec hx) hf hw ((st_writeBits _ _).trans ho)
      ((hasRoom_writeBits hi room1 e _).trans room)
    exact ⟨u, runAll_cons_of hx rfl hrun, (sameState_writeElems_cons hi e es room1).trans hsame⟩

/-- Settles O47: the run takes the elements one by one, as the slow datapath does. -/
theorem arrayWriteIsARunOfWrites : Obligations.ArrayWriteIsARunOfWrites := by
  intro s w width elems hi hf hw hpos hn hlen ho hroom
  have room := (hasRoom_iff s w _).mpr hroom
  obtain ⟨u, hrun, hsame⟩ := runAll_wBits_of_room hi hf hw hn ho elems room
  exact ⟨_, u, exec_wArray_of_room hf hw hpos hn hlen ho room, hrun, hsame⟩

end Sys2Proof.Machine

namespace Sys2Proof.Client

open Sys2Proof.Machine

/-! ### Widths of bounded types (44_client_codecs R217) -/

/-- What the search for the least width finds. -/
theorem leastWidth_spec {count : Nat} (h : count ≤ 2 ^ 64) :
    count ≤ 2 ^ leastWidth count ∧ leastWidth count ≤ 64 ∧ ∀ j, count ≤ 2 ^ j → leastWidth count ≤ j := by
  unfold leastWidth
  cases hfind : (List.range 65).find? fun k => count ≤ 2 ^ k with
  | none => exact absurd h (by simpa using List.find?_eq_none.mp hfind 64 (by simp))
  | some k =>
    obtain ⟨hk, hmem, hleast⟩ := List.find?_range_eq_some.mp hfind
    refine ⟨of_decide_eq_true hk, Nat.le_of_lt_succ (List.mem_range.mp hmem), fun j hj => ?_⟩
    by_contra hlt
    simpa [hj] using hleast j (Nat.lt_of_not_le hlt)

theorem le_two_pow_leastWidth {count : Nat} (h : count ≤ 2 ^ 64) : count ≤ 2 ^ leastWidth count := (leastWidth_spec h).1

theorem leastWidth_le {count : Nat} (h : count ≤ 2 ^ 64) : leastWidth count ≤ 64 := (leastWidth_spec h).2.1

theorem leastWidth_le_of_le {count j : Nat} (h : count ≤ 2 ^ 64) (hj : count ≤ 2 ^ j) : leastWidth count ≤ j :=
  (leastWidth_spec h).2.2 j hj

/-- Settles O56: the search goes through the widths from 0 on. -/
theorem bitWidthIsTheLeast : Obligations.BitWidthIsTheLeast := by
  refine fun count => ⟨fun hpos hle => ⟨leastWidth count, ?_, leastWidth_le hle, le_two_pow_leastWidth hle, ?_⟩, ?_⟩
  · simp only [bw, hpos, hle, decide_true, Bool.and_self, if_true]
  · exact fun j hj => leastWidth_le_of_le hle hj
  · intro hout
    have hnone : ¬(1 ≤ count ∧ count ≤ 2 ^ 64) := by omega
    rw [bw, ← Bool.decide_and, decide_eq_false hnone]
    rfl

/-! ### Unbounded signed integers (44_client_codecs R207) -/

theorem zigzag_of_nonneg {n : Int} (h : 0 ≤ n) : (zigzag n : Int) = 2 * n := by
  rw [zigzag, if_pos h]
  omega

theorem zigzag_of_neg {n : Int} (h : n < 0) : (zigzag n : Int) = -2 * n - 1 := by
  rw [zigzag, if_neg (by omega)]
  omega

theorem unzigzag_zigzag (n : Int) : unzigzag (zigzag n) = n := by
  rcases lt_or_ge n 0 with h | h
  · have := zigzag_of_neg h
    rw [unzigzag, if_neg (by omega)]
    omega
  · have := zigzag_of_nonneg h
    rw [unzigzag, if_pos (by omega)]
    omega

theorem zigzag_unzigzag (z : Nat) : zigzag (unzigzag z) = z := by
  rw [unzigzag]
  split
  · have := zigzag_of_nonneg (n := (z / 2 : Nat)) (by omega)
    omega
  · have := zigzag_of_neg (n := -(((z + 1) / 2 : Nat) : Int)) (by omega)
    omega

theorem zigzag_lt {n : Int} (hlo : -2 ^ 63 ≤ n) (hhi : n < 2 ^ 63) : zigzag n < 2 ^ 64 := by
  rw [zigzag]
  split <;> omega

theorem unzigzag_bounds {z : Nat} (h : z < 2 ^ 64) : -2 ^ 63 ≤ unzigzag z ∧ unzigzag z < 2 ^ 63 := by
  rw [unzigzag]
  split <;> omega

/-- Settles O57: by the sign of the number, and by the parity of its image. -/
theorem zigZagIsReversible : Obligations.ZigZagIsReversible :=
  ⟨fun n => ⟨zigzag_of_nonneg, zigzag_of_neg, unzigzag_zigzag n, zigzag_lt⟩, zigzag_unzigzag⟩

/-! ### Verdicts of the client (60_exceptions R242) -/

/-- Settles O60: each decoder tests the value that the block has delivered. -/
theorem clientRejectsImpossibleValues : Obligations.ClientRejectsImpossibleValues := by
  refine ⟨fun r lo hi s t p h => ?_, fun r n s t p h => ?_, fun R r s t p h => ?_, fun C r s t bs h => ?_,
    fun C r s t bs h => ?_, ?_, fun p => ?_⟩
  · rw [decBounded, andThen_of_value h]
    split <;> rfl
  · rw [decTag, andThen_of_value h]
    split <;> rfl
  · rw [decChar, andThen_of_value h]
    split <;> rfl
  · rw [decStr, andThen_of_value h, checkText]
    split <;> rfl
  · rw [decStrArray, andThen_of_value h, checkText]
    split <;> rfl
  · decide
  · simp only [specChars, codePointOk, Bool.and_eq_true, Bool.not_eq_true', ← Bool.decide_and, decide_eq_true_eq,
      decide_eq_false_iff_not]

end Sys2Proof.Client

namespace Sys2Proof.Client

open Sys2Proof.Machine

/-! ### Numbers and their bits -/

theorem natBits_natOfBits (bits : List Bool) : natBits (natOfBits bits) bits.length = bits := by
  induction bits with
  | nil => rfl
  | cons b bits ih =>
    have hlow : (b.toNat + 2 * natOfBits bits).testBit 0 = b := by cases b <;> simp [Nat.testBit_zero]
    have hhigh : (b.toNat + 2 * natOfBits bits) / 2 = natOfBits bits := by
      have := b.toNat_lt
      omega
    rw [List.length_cons, natBits_succ, natOfBits, hlow, hhigh, ih]

theorem natOfBits_lt (bits : List Bool) : natOfBits bits < 2 ^ bits.length := by
  have h := natOfBits_natBits (natOfBits bits) bits.length
  rw [natBits_natOfBits] at h
  exact h ▸ Nat.mod_lt _ (Nat.two_pow_pos _)

/-- A number of `len` one-bits in a field one bit wider. -/
theorem natBits_ones (len : Nat) : natBits (2 ^ len - 1) (len + 1) = List.replicate len true ++ [false] := by
  refine List.ext_getElem (by simp) fun i hi _ => ?_
  rw [natBits_length] at hi
  simp only [natBits, List.getElem_map, List.getElem_range, Nat.testBit_two_pow_sub_one, List.getElem_append,
    List.length_replicate]
  split <;> simp [*]

/-! ### The bit length of a number (44_client_codecs R206) -/

section
variable {n : Nat}

theorem lt_two_pow_bitLength (h : n < 2 ^ 64) : n < 2 ^ bitLength n := le_two_pow_leastWidth h

theorem bitLength_le (h : n < 2 ^ 64) : bitLength n ≤ 64 := leastWidth_le h

theorem bitLength_mono {m : Nat} (hmn : m ≤ n) (h : n < 2 ^ 64) : bitLength m ≤ bitLength n :=
  leastWidth_le_of_le (by omega) ((Nat.succ_le_succ hmn).trans (lt_two_pow_bitLength h))

theorem bitLength_zero : bitLength 0 = 0 := Nat.le_zero.mp (leastWidth_le_of_le (by decide) (by decide))

theorem bitLength_pos (h : n < 2 ^ 64) (hpos : 1 ≤ n) : 1 ≤ bitLength n := by
  by_contra hzero
  have := lt_two_pow_bitLength h
  rw [show bitLength n = 0 by omega] at this
  omega

/-- The leading bit of a number is a one. -/
theorem two_pow_bitLength_le (h : n < 2 ^ 64) (hpos : 1 ≤ n) : 2 ^ (bitLength n - 1) ≤ n := by
  by_contra hlt
  have hle : bitLength n ≤ bitLength n - 1 := leastWidth_le_of_le h (Nat.lt_of_not_le hlt)
  have := bitLength_pos h hpos
  omega

/-- The bits below the leading one fit in a field of their number. -/
theorem below_leading_lt (h : n < 2 ^ 64) (hlen : 1 ≤ bitLength n) :
    n - 2 ^ (bitLength n - 1) < 2 ^ (bitLength n - 1) := by
  have hlt := lt_two_pow_bitLength h
  rw [← Nat.succ_pred_eq_of_pos hlen, Nat.pow_succ] at hlt
  simp only [Nat.pred_eq_sub_one] at hlt
  have := Nat.two_pow_pos (bitLength n - 1)
  omega

end

/-! ### The scheme that spec/ documents (44_client_codecs R206) -/

/-- The bits below the leading one of `n`, where `n` has at least two bits. -/
def uvarRest (n : Nat) : List Bool :=
  if 2 ≤ bitLength n then natBits (n - 2 ^ (bitLength n - 1)) (bitLength n - 1) else []

/-- The code of a number: its bit length in one-bits, a zero bit, and its bits below the leading one. -/
theorem specVarLen_bits {n : Nat} (h : n < 2 ^ 64) :
    specVarLen.bits n = List.replicate (bitLength n) true ++ false :: uvarRest n := by
  have hones : ((if bitLength n ≤ 63 then [(bitLength n + 1, 2 ^ bitLength n - 1)] else [(64, 2 ^ 64 - 1), (1, 0)]).flatMap
      fun f => natBits f.2 f.1) = List.replicate (bitLength n) true ++ [false] := by
    split
    · rw [List.flatMap_singleton, natBits_ones]
    · have := bitLength_le h
      rw [show bitLength n = 64 by omega]
      decide
  have hrest : ((if 2 ≤ bitLength n then [(bitLength n - 1, n - 2 ^ (bitLength n - 1))] else []).flatMap
      fun f => natBits f.2 f.1) = uvarRest n := by
    rw [uvarRest]
    split
    · rw [List.flatMap_singleton]
    · rfl
  have hparts : specVarLen.bits n = _ ++ _ := List.flatMap_append
  rw [hparts, hones, hrest, List.append_assoc]
  rfl

/-- The loop of the decoder counts the one-bits (R206). -/
theorem uvarOnes_decode {allowed ones : Nat} (rest : List Bool) : ∀ {k : Nat}, k < allowed →
    (uvarOnes allowed ones).decode (List.replicate k true ++ false :: rest) = (uvarTail (ones + k)).decode rest := by
  induction allowed generalizing ones with
  | zero => exact fun h => absurd h (Nat.not_lt_zero _)
  | succ allowed ih =>
    intro k hk
    cases k with
    | zero => simp [uvarOnes, ReadPlan.decode, natOfBits]
    | succ k =>
      have := ih (ones := ones + 1) (Nat.lt_of_succ_lt_succ hk)
      simpa [uvarOnes, ReadPlan.decode, natOfBits, List.replicate_succ, Nat.add_assoc, Nat.add_comm 1 k] using this

/-- The rest of the decoder rebuilds the number from its bit length (R206). -/
theorem uvarTail_decode {n : Nat} (h : n < 2 ^ 64) (rest : List Bool) :
    (uvarTail (bitLength n)).decode (uvarRest n ++ rest) = some (n, rest) := by
  have hlt := lt_two_pow_bitLength h
  rcases Nat.eq_zero_or_pos n with rfl | hpos
  · rw [uvarRest, bitLength_zero]
    rfl
  have hlead := two_pow_bitLength_le h hpos
  have hlen := bitLength_pos h hpos
  have hbelow := below_leading_lt h hlen
  rw [uvarRest, uvarTail, if_neg (by omega)]
  by_cases hone : bitLength n = 1
  · rw [hone] at hlt hlead ⊢
    obtain rfl : n = 1 := by omega
    rfl
  · rw [if_neg hone, if_pos (by omega)]
    simp only [ReadPlan.decode, List.length_append, natBits_length, List.take_left' (natBits_length _ _),
      List.drop_left' (natBits_length _ _), natOfBits_natBits, Nat.mod_eq_of_lt hbelow, Nat.add_sub_cancel' hlead]
    rw [if_neg (by omega)]

theorem specVarLen_decodes {n : Nat} (h : n < 2 ^ 64) (rest : List Bool) :
    specVarLen.dec.decode (specVarLen.bits n ++ rest) = some (n, rest) := by
  have hle := bitLength_le h
  rw [specVarLen_bits h, List.append_assoc, List.cons_append]
  refine (uvarOnes_decode _ (show bitLength n < 65 by omega)).trans ?_
  rw [Nat.zero_add, uvarTail_decode h]

theorem uvarFields_fit {n : Nat} (h : n < 2 ^ 64) : ∀ f ∈ uvarFields n, 1 ≤ f.1 ∧ f.1 ≤ 64 ∧ f.2 < 2 ^ f.1 := by
  have hle := bitLength_le h
  have hones : 2 ^ bitLength n - 1 < 2 ^ (bitLength n + 1) := by
    have := Nat.two_pow_pos (bitLength n)
    rw [Nat.pow_succ]
    omega
  intro f hf
  rcases List.mem_append.mp hf with hf | hf
  · split at hf
    · obtain rfl := List.mem_singleton.mp hf
      exact ⟨by omega, by omega, hones⟩
    · rcases List.mem_pair.mp hf with rfl | rfl <;> decide
  · split at hf
    · obtain rfl := List.mem_singleton.mp hf
      exact ⟨by omega, by omega, below_leading_lt h (by omega)⟩
    · exact nomatch hf

theorem cost_eq_length_bits (V : VarLen) (n : Nat) : V.cost n = (V.bits n).length := by
  simp [VarLen.cost, VarLen.bits, List.length_flatMap]

theorem specVarLen_cost {n : Nat} (h : n < 2 ^ 64) : specVarLen.cost n = if n = 0 then 1 else 2 * bitLength n := by
  rw [cost_eq_length_bits, specVarLen_bits h, uvarRest]
  by_cases hzero : n = 0
  · subst hzero
    rw [bitLength_zero]
    rfl
  · have := bitLength_pos h (by omega)
    rw [if_neg hzero, List.length_append, List.length_replicate, List.length_cons]
    split
    · rw [natBits_length]
      omega
    · rw [List.length_nil]
      omega

/-- The cost follows the bit length, which does not decrease. -/
theorem specVarLen_cost_mono {m n : Nat} (hmn : m ≤ n) (h : n < 2 ^ 64) : specVarLen.cost m ≤ specVarLen.cost n := by
  rw [specVarLen_cost (hmn.trans_lt h), specVarLen_cost h]
  have hlen := bitLength_mono hmn h
  split <;> split
  · exact le_rfl
  · have := bitLength_pos h (by omega)
    omega
  · omega
  · omega

/-- A scheme that reads back what it writes has no code that begins another. -/
theorem eq_of_bits_prefix {V : VarLen} {m n : Nat} (hm : ∀ rest, V.dec.decode (V.bits m ++ rest) = some (m, rest))
    (hn : ∀ rest, V.dec.decode (V.bits n ++ rest) = some (n, rest)) (h : V.bits m <+: V.bits n) : m = n := by
  obtain ⟨rest, hrest⟩ := h
  have both := hn []
  rw [List.append_nil, ← hrest, hm] at both
  exact congrArg Prod.fst (Option.some.inj both)

theorem uvarTail_bounded {len : Nat} (h : len ≤ 64) : (uvarTail len).Bounded := by
  rw [uvarTail]
  split
  · exact Nat.two_pow_pos 64
  split
  · exact Nat.one_lt_two_pow (by decide)
  · refine ⟨by omega, fun p hp => ?_⟩
    have hle : 2 ^ (len - 1) ≤ 2 ^ 63 := Nat.pow_le_pow_right (by decide) (by omega)
    exact show 2 ^ (len - 1) + p < 2 ^ 64 by omega

/-- With no more than 64 one-bits counted, the number read is of 64 bits. -/
theorem uvarOnes_bounded {allowed ones : Nat} (h : ones + allowed ≤ 65) : (uvarOnes allowed ones).Bounded := by
  induction allowed generalizing ones with
  | zero => exact trivial
  | succ allowed ih =>
    refine ⟨by decide, fun p _ => ?_⟩
    dsimp only
    split
    · exact uvarTail_bounded (by omega)
    · exact ih (by omega)

theorem specVarLen_lawful : specVarLen.Lawful where
  fields n hn f hf := (uvarFields_fit hn f hf).2
  decodes n hn := specVarLen_decodes hn
  prefixFree m n hm hn := eq_of_bits_prefix (specVarLen_decodes hm) (specVarLen_decodes hn)
  monotone _ _ := specVarLen_cost_mono
  bounded := uvarOnes_bounded (by decide)

theorem specContract_lawful : specContract.Lawful where
  varLen := specVarLen_lawful
  someChar := by decide
  charField := by decide
  charRange p h := by
    obtain ⟨hle, _⟩ := Bool.and_eq_true_iff.mp h
    exact Nat.lt_succ_of_le (of_decide_eq_true hle)

/-- Settles O58: the cost is that of the one-bits, the zero bit and the bits below the leading one. -/
theorem variableLengthScheme : Obligations.VariableLengthScheme :=
  ⟨fun _ hn => ⟨specVarLen_cost hn, uvarFields_fit hn, lt_two_pow_bitLength hn, two_pow_bitLength_le hn, bitLength_le hn⟩,
    specContract_lawful⟩

end Sys2Proof.Client

namespace Sys2Proof.Client

open Sys2Proof.Machine

/-! ### Commands issued by a client (44_client_codecs R200, R218) -/

theorem issue_of_ok {i : Instr} {s t : State} {a : Response} (h : exec i s = .next t) (ha : t.resp = some a)
    (hok : a.status = .ok) : issue i s = .value a t := by
  simp only [issue, h, ha, hok, if_true]

theorem issue_of_raised {i : Instr} {s : State} {e : Exception} (h : exec i s = .next (s.take e)) :
    issue i s = .error e.status (s.take e) := by
  cases e <;> simp [issue, h, State.take, Exception.status]

/-- A field width survives its seven bits. -/
theorem toNat_width {width : Nat} (h : width ≤ 64) : (BitVec.ofNat 7 width).toNat = width := by
  rw [BitVec.toNat_ofNat, Nat.mod_eq_of_lt (by omega)]

/-- A running good state whose reader `r` is `OPEN`. -/
structure Ready (r : Ctx) (s : State) : Prop where
  good : Inv s
  running : s.fatal = false
  opened : (s.reader r).st = .opened

/-- What no command of reader `r` changes (42_reader_ops R170). -/
structure Frame (r : Ctx) (s t : State) : Prop where
  writers : t.writers = s.writers
  readers : ∀ q, q ≠ r → t.reader q = s.reader q
  fatal : t.fatal = s.fatal
  params : t.params = s.params
  fastEn : t.fastEn = s.fastEn
  hostLe : t.hostLe = s.hostLe
  input : t.input = s.input

/-- What no command of reader `r` but an open changes: `r` keeps its total length. -/
structure Kept (r : Ctx) (s t : State) : Prop extends Frame r s t where
  total : (t.reader r).total = (s.reader r).total

section
variable {r : Ctx} {s t u : State} {i : Instr} {n : Nat}

theorem Frame.trans (h : Frame r s t) (h' : Frame r t u) : Frame r s u where
  writers := h'.writers.trans h.writers
  readers q hq := (h'.readers q hq).trans (h.readers q hq)
  fatal := h'.fatal.trans h.fatal
  params := h'.params.trans h.params
  fastEn := h'.fastEn.trans h.fastEn
  hostLe := h'.hostLe.trans h.hostLe
  input := h'.input.trans h.input

theorem Kept.refl (r : Ctx) (s : State) : Kept r s s := ⟨⟨rfl, fun _ _ => rfl, rfl, rfl, rfl, rfl, rfl⟩, rfl⟩

theorem Kept.trans (h : Kept r s t) (h' : Kept r t u) : Kept r s u :=
  ⟨h.toFrame.trans h'.toFrame, h'.total.trans h.total⟩

theorem frame_of_exec (named : Instr.readersNamed i = [r]) (h : exec i s = .next t) : Frame r s t := by
  obtain ⟨hwriters, hreaders, hfatal, hparams, hfast, hlittle, hinput, _⟩ := readerCommandsFrame s t i r named h
  exact ⟨hwriters, hreaders, hfatal, hparams, hfast, hlittle, hinput⟩

theorem kept_of_exec (named : Instr.readersNamed i = [r]) (hopen : ∀ nbytes total src, i ≠ .rOpen r nbytes total src)
    (hopenB : ∀ nbytes src, i ≠ .rOpenB r nbytes src) (h : exec i s = .next t) : Kept r s t :=
  ⟨frame_of_exec named h, (exec_binding_eq hopen hopenB h).1⟩

theorem Advances.kept (hr : Advances r i) (h : exec i s = .next t) : Kept r s t := by
  rcases hr with ⟨width, rfl⟩ | ⟨width, n, rfl⟩
  · exact kept_of_exec rfl (by simp) (by simp) h
  · exact kept_of_exec rfl (by simp) (by simp) h

/-- A reader in use is one the build has (30_encoding R97 item 5). -/
theorem lt_nr_of_inUse (hi : Inv s) (hst : (s.reader r).st ≠ .idle) : r.toNat < s.params.nr := by
  obtain ⟨_, _, _, _, present⟩ := hi
  exact of_decide_eq_true ((present r).resolve_right hst)

theorem Ready.inUse (h : Ready r s) : (s.reader r).st ≠ .idle := by simp [h.opened]

theorem Ready.lt_nr (h : Ready r s) : r.toNat < s.params.nr := lt_nr_of_inUse h.good h.inUse

/-- The response is not among what makes a reader ready. -/
theorem Ready.withResp (h : Ready r s) (a : Option Response) : Ready r { s with resp := a } := ⟨h.good, h.running, h.opened⟩

/-- The cursor that an advancing read of bits that remain leaves. -/
theorem reader_afterRead (hr : Advances r i) (asked : bitsAsked i = some (r, n)) (enough : (s.reader r).hasBits n = true)
    (a : Option Response) :
    ∃ cur, ({ s.afterRead i with resp := a } : State).reader r = { s.reader r with cur := cur } ∧
      cur.toNat = (s.reader r).cur.toNat + n := by
  rcases hr with ⟨width, rfl⟩ | ⟨width, k, rfl⟩
  · cases asked
    exact ⟨_, reader_afterRead_rBits s r width a, cursor_advance_toNat enough⟩
  · cases asked
    exact ⟨_, reader_afterRead_rArray s r width k a, cursor_advance_toNat enough⟩

/-- A legal read of bits that remain: its answer, and the reader ready behind them. -/
theorem Ready.issue_of_enough (h : Ready r s) (hr : Advances r i) (asked : bitsAsked i = some (r, n))
    (hl : s.legal i = true) (enough : (s.reader r).hasBits n = true) :
    ∃ t cur, issue i s = .value ((s.reader r).readResponse i) t ∧ Ready r t ∧ Kept r s t ∧
      t.reader r = { s.reader r with cur := cur } ∧ cur.toNat = (s.reader r).cur.toNat + n := by
  have hx := exec_read_of_enough asked h.good h.running hl h.opened enough
  have hkept := Advances.kept hr hx
  obtain ⟨cur, hreader, hcur⟩ := reader_afterRead hr asked enough (some ((s.reader r).readResponse i))
  have hready : Ready r _ :=
    ⟨h.good.exec hx, hkept.fatal.trans h.running, (congrArg Reader.st hreader).trans h.opened⟩
  exact ⟨_, cur, issue_of_ok hx rfl (status_readResponse _ _), hready, hkept, hreader, hcur⟩

/-- A legal read of more bits than remain: `Truncated`, and the reader poisoned. -/
theorem Ready.issue_of_short (h : Ready r s) (hr : Advances r i) (asked : bitsAsked i = some (r, n))
    (hl : s.legal i = true) (short : (s.reader r).hasBits n = false) :
    ∃ t, issue i s = .error .truncated t ∧ (t.reader r).st = .poisoned ∧ Inv t ∧ Kept r s t := by
  have hx := exec_read_of_short asked h.running hl h.opened short
  refine ⟨_, issue_of_raised hx, ?_, h.good.exec hx, Advances.kept hr hx⟩
  exact congrArg Reader.st ((reader_poison s r r).trans (if_pos rfl))

theorem Ready.legal_rBits (h : Ready r s) {width : Nat} (hw : width ≤ 64) :
    s.legal (.rBits r (BitVec.ofNat 7 width)) = true :=
  Machine.legal_rBits h.lt_nr (toNat_width hw |>.trans_le hw)

theorem bitsAsked_rBits (r : Ctx) {width : Nat} (hw : width ≤ 64) :
    bitsAsked (.rBits r (BitVec.ofNat 7 width)) = some (r, width) := by
  rw [bitsAsked, toNat_width hw]

theorem Ready.legal_rArray (h : Ready r s) {width : Nat} (hpos : 1 ≤ width) (hw : width ≤ 64) (n : Word) :
    s.legal (.rArray r (BitVec.ofNat 7 width) n) = true :=
  Machine.legal_rArray h.lt_nr (hpos.trans_eq (toNat_width hw).symm) (toNat_width hw |>.trans_le hw) n

theorem bitsAsked_rArray (r : Ctx) {width : Nat} (hw : width ≤ 64) (n : Word) :
    bitsAsked (.rArray r (BitVec.ofNat 7 width) n) = some (r, n.toNat * width) := by
  rw [bitsAsked, toNat_width hw]

/-- A field of bits that remain. -/
theorem Ready.readField_of_enough (h : Ready r s) {width : Nat} (hw : width ≤ 64)
    (enough : (s.reader r).hasBits width = true) :
    ∃ v t, readField r width s = .value v t ∧ Ready r t ∧ Kept r s t ∧
      (t.reader r).cur.toNat = (s.reader r).cur.toNat + width := by
  obtain ⟨t, cur, hx, ht, hkept, hreader, hcur⟩ :=
    h.issue_of_enough (.inl ⟨_, rfl⟩) (bitsAsked_rBits r hw) (h.legal_rBits hw) enough
  exact ⟨_, t, andThen_of_value hx _, ht, hkept, (congrArg (fun y => y.cur.toNat) hreader).trans hcur⟩

/-- A field of more bits than remain. -/
theorem Ready.readField_of_short (h : Ready r s) {width : Nat} (hw : width ≤ 64)
    (short : (s.reader r).hasBits width = false) :
    ∃ t, readField r width s = .error .truncated t ∧ (t.reader r).st = .poisoned ∧ Inv t ∧ Kept r s t := by
  obtain ⟨t, hx, ht⟩ := h.issue_of_short (.inl ⟨_, rfl⟩) (bitsAsked_rBits r hw) (h.legal_rBits hw) short
  exact ⟨t, andThen_of_error hx _, ht⟩

theorem Ready.issue_rRemain (h : Ready r s) :
    issue (.rRemain r) s =
      .value (okResponse (s.reader r).remaining) { s with resp := some (okResponse (s.reader r).remaining) } :=
  issue_of_ok (exec_rRemain_of_opened h.running h.lt_nr h.opened) rfl rfl

end

/-! ### Lengths that the data cannot back (44_client_codecs R208, R214) -/

section
variable {α : Type} {P : Primitive α} {C : Contract} {r : Ctx} {s t : State} {len n : Nat}

/-- The element loop ends at the first element that does not remain (R214). -/
theorem Ready.repeated_of_short (h : Ready r s) (hw : P.width ≤ 64)
    (short : (s.reader r).total.toNat < (s.reader r).cur.toNat + n * P.width) :
    ∃ u, repeated (decPrimitive P r) n s = .error .truncated u ∧ (u.reader r).st = .poisoned := by
  induction n generalizing s with
  | zero =>
    have := h.good.cur_le_total h.inUse
    omega
  | succ n ih =>
    cases enough : (s.reader r).hasBits P.width with
    | false =>
      obtain ⟨u, hread, hpoisoned, _⟩ := h.readField_of_short hw enough
      exact ⟨u, andThen_of_error (andThen_of_error hread _) _, hpoisoned⟩
    | true =>
      obtain ⟨_, v, hread, hv, hkept, hcur⟩ := h.readField_of_enough hw enough
      rw [Nat.succ_mul, Nat.add_comm (n * P.width), ← Nat.add_assoc, ← hcur, ← hkept.total] at short
      obtain ⟨u, hrest, hpoisoned⟩ := ih hv short
      have hfirst : decPrimitive P r s = .value _ v := andThen_of_value hread _
      exact ⟨u, (andThen_of_value hfirst _).trans (andThen_of_error hrest _), hpoisoned⟩

theorem decCount_of_decLen (hlen : decLen C.varLen r s = .value len t) (h : Ready r t) {m : Nat} (hm : 1 ≤ m) :
    decCount C r m s =
      .value (len, reservation len (t.reader r).remaining.toNat m)
        { t with resp := some (okResponse (t.reader r).remaining) } := by
  rw [decCount, andThen_of_value hlen, if_neg (by omega), andThen_of_value h.issue_rRemain]
  rfl

/-- A sequence of primitives whose elements do not all remain ends in `Truncated`, read by the element loop. -/
theorem decSeq_of_short (hlen : decLen C.varLen r s = .value len t) (h : Ready r t) (hpos : 1 ≤ P.width)
    (hw : P.width ≤ 64) (short : (t.reader r).total.toNat < (t.reader r).cur.toNat + len * P.width) :
    ∃ u, decSeq C r P.width (decPrimitive P r) s = .error .truncated u ∧ (u.reader r).st = .poisoned := by
  obtain ⟨u, hloop, hpoisoned⟩ :=
    (h.withResp (some (okResponse (t.reader r).remaining))).repeated_of_short hw short
  have hcount := decCount_of_decLen hlen h hpos
  exact ⟨u, andThen_of_error ((andThen_of_value hcount _).trans (andThen_of_error hloop _)) _, hpoisoned⟩

/-- The same, read by one array command. -/
theorem decSeqArray_of_short (hlen : decLen C.varLen r s = .value len t) (h : Ready r t) (hpos : 1 ≤ P.width)
    (hw : P.width ≤ 64) (hlt : len < 2 ^ 64)
    (short : (t.reader r).total.toNat < (t.reader r).cur.toNat + len * P.width) :
    ∃ u, decSeqArray C r P s = .error .truncated u ∧ (u.reader r).st = .poisoned := by
  have hword : (BitVec.ofNat 64 len).toNat = len := by rw [BitVec.toNat_ofNat, Nat.mod_eq_of_lt hlt]
  have ready := h.withResp (some (okResponse (t.reader r).remaining))
  obtain ⟨u, harray, hpoisoned, _⟩ := ready.issue_of_short (.inr ⟨_, _, rfl⟩) (bitsAsked_rArray r hw (BitVec.ofNat 64 len))
    (ready.legal_rArray hpos hw _) (hasBits_eq_false (by rwa [hword]))
  have hcount := decCount_of_decLen hlen h hpos
  exact ⟨u, andThen_of_error ((andThen_of_value hcount _).trans (andThen_of_error harray _)) _, hpoisoned⟩

end

/-- Settles O7: the reservation is what `R_REMAIN` answers, and the first read of missing bits poisons the reader. -/
theorem hostileLengthReservesWhatIsBacked : Obligations.HostileLengthReservesWhatIsBacked := by
  intro C r s t len hlen hi hf _ ho
  have ready : Ready r t := ⟨hi, hf, ho⟩
  refine ⟨fun m hm => ?_, ?_, fun α P hpos hw hlt short => ⟨?_, ?_⟩⟩
  · have hcount := decCount_of_decLen hlen ready hm
    rw [reservation, toNat_remaining] at hcount
    exact ⟨_, hcount, rfl⟩
  · rw [decCount, andThen_of_value hlen, if_pos rfl]
    split <;> rfl
  · exact decSeq_of_short hlen ready hpos hw short
  · exact decSeqArray_of_short hlen ready hpos hw hlt short

end Sys2Proof.Client

namespace Sys2Proof.Client

open Sys2Proof.Machine

/-! ### Primitives (44_client_codecs R201, R202, R205, R210) -/

/-- A field of the block that gives back each value of its type, and gives nothing but values of the type. -/
structure Primitive.Faithful {α : Type} (P : Primitive α) : Prop where
  pos : 1 ≤ P.width
  le : P.width ≤ 64
  fits : ∀ v, P.valid v = true → P.pattern v < 2 ^ P.width
  inverse : ∀ v, P.valid v = true → P.value (BitVec.ofNat 64 (P.pattern v)) = v
  onto : ∀ x : Word, x.toNat < 2 ^ P.width → P.valid (P.value x) = true

theorem faithful_bool : boolPrimitive.Faithful where
  pos := by decide
  le := by decide
  fits v _ := by cases v <;> decide
  inverse v _ := by cases v <;> decide
  onto _ _ := rfl

theorem container_bounds {n : Nat} (h : n ∈ [8, 16, 32, 64]) : 1 ≤ n ∧ n ≤ 64 := by
  simp only [List.mem_cons, List.not_mem_nil, or_false] at h
  omega

theorem faithful_unsigned {n : Nat} (h : n ∈ [8, 16, 32, 64]) : (unsignedPrimitive n).Faithful where
  pos := (container_bounds h).1
  le := (container_bounds h).2
  fits _ hv := of_decide_eq_true hv
  inverse v hv := by
    have hlt : v < 2 ^ 64 := (of_decide_eq_true hv).trans_le (Nat.pow_le_pow_right (by decide) (container_bounds h).2)
    exact (BitVec.toNat_ofNat v 64).trans (Nat.mod_eq_of_lt hlt)
  onto _ hx := decide_eq_true hx

/-- The pattern of a signed number, read back (R202). -/
theorem signedValue_emod {n : Nat} (hpos : 1 ≤ n) {v : Int} (hlo : -2 ^ (n - 1) ≤ v) (hhi : v < 2 ^ (n - 1)) :
    signedValue n (v % 2 ^ n).toNat = v := by
  obtain ⟨k, rfl⟩ := Nat.exists_eq_add_of_le' hpos
  simp only [Nat.add_sub_cancel] at hlo hhi
  have hpow : (2 : Int) ^ (k + 1) = 2 * 2 ^ k := by rw [Int.pow_succ, Int.mul_comm]
  have hcast : ((2 ^ k : Nat) : Int) = 2 ^ k := by norm_cast
  rw [signedValue, Nat.add_sub_cancel, hpow]
  generalize (2 : Int) ^ k = m at *
  rcases lt_or_ge v 0 with hneg | hnonneg
  · have hmod : v % (2 * m) = v + 2 * m := by
      rw [← Int.add_emod_right, Int.emod_eq_of_lt (by omega) (by omega)]
    rw [hmod, if_neg (by omega)]
    omega
  · rw [Int.emod_eq_of_lt hnonneg (by omega), if_pos (by omega)]
    omega

theorem signedValue_bounds {n p : Nat} (hpos : 1 ≤ n) (hp : p < 2 ^ n) :
    -2 ^ (n - 1) ≤ signedValue n p ∧ signedValue n p < 2 ^ (n - 1) := by
  obtain ⟨k, rfl⟩ := Nat.exists_eq_add_of_le' hpos
  have hpow : (2 : Int) ^ (k + 1) = 2 * 2 ^ k := by rw [Int.pow_succ, Int.mul_comm]
  have hcast : ((2 ^ k : Nat) : Int) = 2 ^ k := by norm_cast
  rw [Nat.pow_succ] at hp
  rw [signedValue, Nat.add_sub_cancel, hpow]
  generalize (2 : Int) ^ k = m at *
  split <;> omega

theorem pattern_lt (n : Nat) (v : Int) : (v % 2 ^ n).toNat < 2 ^ n := by
  have hpos : (0 : Int) < 2 ^ n := by positivity
  rw [Int.toNat_lt (Int.emod_nonneg v hpos.ne')]
  exact_mod_cast Int.emod_lt_of_pos v hpos

theorem faithful_signed {n : Nat} (h : n ∈ [8, 16, 32, 64]) : (signedPrimitive n).Faithful where
  pos := (container_bounds h).1
  le := (container_bounds h).2
  fits v _ := pattern_lt n v
  inverse v hv := by
    obtain ⟨hlo, hhi⟩ := Bool.and_eq_true_iff.mp hv
    have hlt : (v % 2 ^ n).toNat < 2 ^ 64 :=
      (pattern_lt n v).trans_le (Nat.pow_le_pow_right (by decide) (container_bounds h).2)
    have hread : (BitVec.ofNat 64 (v % 2 ^ n).toNat).toNat = (v % 2 ^ n).toNat := by
      rw [BitVec.toNat_ofNat, Nat.mod_eq_of_lt hlt]
    exact (congrArg (signedValue n) hread).trans
      (signedValue_emod (container_bounds h).1 (of_decide_eq_true hlo) (of_decide_eq_true hhi))
  onto x hx := by
    obtain ⟨hlo, hhi⟩ := signedValue_bounds (container_bounds h).1 hx
    exact Bool.and_eq_true_iff.mpr ⟨decide_eq_true hlo, decide_eq_true hhi⟩

/-- A bit pattern of at most 64 bits survives the result word. -/
theorem setWidth_ofNat_toNat {n : Nat} (h : n ≤ 64) (x : BitVec n) : (BitVec.ofNat 64 x.toNat).setWidth n = x := by
  refine BitVec.eq_of_toNat_eq ?_
  have hlt : x.toNat < 2 ^ 64 := x.isLt.trans_le (Nat.pow_le_pow_right (by decide) h)
  rw [BitVec.toNat_setWidth, BitVec.toNat_ofNat, Nat.mod_eq_of_lt hlt, Nat.mod_eq_of_lt x.isLt]

theorem faithful_f32 : f32Primitive.Faithful where
  pos := by decide
  le := by decide
  fits v _ := v.isLt
  inverse v _ := setWidth_ofNat_toNat (by decide) v
  onto _ _ := rfl

theorem faithful_f64 : f64Primitive.Faithful where
  pos := by decide
  le := by decide
  fits v _ := v.isLt
  inverse v _ := BitVec.ofNat_toNat 64 v |>.trans (BitVec.setWidth_eq v)
  onto _ _ := rfl

theorem faithful_byte : bytePrimitive.Faithful where
  pos := by decide
  le := by decide
  fits v _ := v.isLt
  inverse v _ := setWidth_ofNat_toNat (by decide) v
  onto _ _ := rfl

theorem FixedWidth.faithful {α : Type} {P : Primitive α} (h : FixedWidth P) : P.Faithful := by
  cases h with
  | bool => exact faithful_bool
  | unsigned n container => exact faithful_unsigned container
  | signed n container => exact faithful_signed container
  | f32 => exact faithful_f32
  | f64 => exact faithful_f64

/-! ### Shapes that are other shapes (44_client_codecs R210, R215) -/

/-- A map is the sequence of its pairs. -/
theorem mapFormat_eq {κ ν : Type} (C : Contract) (K : Format κ) (N : Format ν) :
    mapFormat C K N = seqFormat C (fieldFormat K N) := by
  simp only [mapFormat, seqFormat, fieldFormat, encStruct, List.flatten_cons, List.flatten_nil, List.append_nil]
  rfl

/-- A byte payload is the sequence of its bytes. -/
theorem bytesFormat_eq (C : Contract) (a d : Bool) : bytesFormat C a d = seqArrayFormat C bytePrimitive a d := by
  have hvalid : (fun bs : List Byte => decide (bs.length < 2 ^ 64)) =
      fun bs => countOk C bytePrimitive.width bs.length && bs.all bytePrimitive.valid := by
    funext bs
    simp [countOk, bytePrimitive]
  rw [bytesFormat, hvalid]
  cases a <;> cases d <;> rfl

/-! ### Everything a decoder can do from any source (44_client_codecs R218) -/

/-- The errors a decode of a client may end in: those of R241 and R242, and the client's own for a count of zero-size elements
above its bound (U9, log 26). -/
def ListedError (C : Contract) (e : Status) : Prop :=
  e = .truncated ∨ e = .invalidData ∨
    (e = C.zlenError ∧ ∃ most len, C.zlenMax = some most ∧ most < len ∧ len < 2 ^ 64)

/-- From a ready reader the sequence ends in a value with the property, the reader ready for more, or in a listed error, the
reader still in use; nothing else changes. -/
def Safe {α : Type} (C : Contract) (r : Ctx) (d : Codec α) (post : α → Prop) : Prop :=
  ∀ s, Ready r s →
    (∃ a t, d s = .value a t ∧ post a ∧ Ready r t ∧ Kept r s t) ∨
      ∃ e t, d s = .error e t ∧ ListedError C e ∧ (t.reader r).st ≠ .idle ∧ Inv t ∧ Kept r s t

section
variable {α β : Type} {C : Contract} {r : Ctx} {x d : Codec α} {f : α → Codec β} {p post : α → Prop} {q : β → Prop}

theorem Safe.done {a : α} (h : post a) : Safe C r (done a) post := fun s hs => .inl ⟨a, s, rfl, h, hs, .refl r s⟩

theorem Safe.reject {e : Status} (h : ListedError C e) : Safe C r (reject e) post := fun s hs =>
  .inr ⟨e, s, rfl, h, hs.inUse, hs.good, .refl r s⟩

theorem Safe.andThen (hx : Safe C r x p) (hf : ∀ a, p a → Safe C r (f a) q) : Safe C r (andThen x f) q := by
  intro s hs
  rcases hx s hs with ⟨a, t, hval, hp, ht, hkept⟩ | ⟨e, t, herr, hrest, hst, hi, hkept⟩
  · rw [andThen_of_value hval]
    rcases hf a hp t ht with ⟨b, u, hval, hq, hu, hkept'⟩ | ⟨e, u, herr, hrest, hst, hi, hkept'⟩
    · exact .inl ⟨b, u, hval, hq, hu, hkept.trans hkept'⟩
    · exact .inr ⟨e, u, herr, hrest, hst, hi, hkept.trans hkept'⟩
  · exact .inr ⟨e, t, andThen_of_error herr f, hrest, hst, hi, hkept⟩

theorem Safe.mono (h : Safe C r d p) (hp : ∀ a, p a → post a) : Safe C r d post := fun s hs =>
  (h s hs).imp_left fun ⟨a, t, hval, ha, ht⟩ => ⟨a, t, hval, hp a ha, ht⟩

/-- A client's verdict on what it has read. -/
theorem Safe.verdict {b : Prop} [Decidable b] {a : α} (h : b → post a) :
    Safe C r (if b then Client.done a else Client.reject .invalidData) post := by
  split
  case isTrue hb => exact .done (h hb)
  case isFalse => exact .reject (.inr (.inl rfl))

/-- A read that advances answers what the reader delivers, or `Truncated`. -/
theorem safe_read {i : Instr} {n : Nat} (hr : Advances r i) (asked : bitsAsked i = some (r, n))
    (hl : ∀ s, Ready r s → s.legal i = true) : Safe C r (issue i) fun a => ∃ y : Reader, a = y.readResponse i := by
  intro s hs
  cases enough : (s.reader r).hasBits n with
  | true =>
    obtain ⟨t, _, hval, ht, hkept, _⟩ := hs.issue_of_enough hr asked (hl s hs) enough
    exact .inl ⟨_, t, hval, ⟨_, rfl⟩, ht, hkept⟩
  | false =>
    obtain ⟨t, herr, hst, hi, hkept⟩ := hs.issue_of_short hr asked (hl s hs) enough
    exact .inr ⟨_, t, herr, .inl rfl, by simp [hst], hi, hkept⟩

theorem loadBits_lt (m : Memory) (c n : Nat) : (loadBits m c n).toNat < 2 ^ n := by
  rw [loadBits, unpack, BitVec.toNat_ofNat]
  exact (Nat.mod_le _ _).trans_lt (Nat.mod_lt _ (Nat.two_pow_pos n))

theorem safe_readField {width : Nat} (hw : width ≤ 64) : Safe C r (readField r width) fun v => v.toNat < 2 ^ width :=
  (safe_read (.inl ⟨_, rfl⟩) (bitsAsked_rBits r hw) fun _ hs => hs.legal_rBits hw).andThen fun a ⟨y, ha⟩ => .done (by
    have := loadBits_lt y.src y.cur.toNat width
    rw [ha, Reader.readResponse, toNat_width hw]
    exact this)

theorem safe_rArray {width : Nat} (hpos : 1 ≤ width) (hw : width ≤ 64) (n : Word) :
    Safe C r (issue (.rArray r (BitVec.ofNat 7 width) n)) fun a =>
      a.elems.length = n.toNat ∧ ∀ e ∈ a.elems, e.toNat < 2 ^ width := by
  refine (safe_read (.inr ⟨_, _, rfl⟩) (bitsAsked_rArray r hw n) fun _ hs => hs.legal_rArray hpos hw n).mono ?_
  rintro _ ⟨y, rfl⟩
  rw [Reader.readResponse, toNat_width hw]
  refine ⟨loadElems_length _ _ _ _, fun e he => ?_⟩
  obtain ⟨_, _, rfl⟩ := List.mem_map.mp he
  exact loadBits_lt _ _ _

theorem safe_rRemain : Safe C r (issue (.rRemain r)) fun _ => True := fun _ hs =>
  .inl ⟨_, _, hs.issue_rRemain, trivial, hs.withResp _, ⟨⟨rfl, fun _ _ => rfl, rfl, rfl, rfl, rfl, rfl⟩, rfl⟩⟩

theorem Safe.repeated (h : Safe C r d post) (n : Nat) :
    Safe C r (repeated d n) fun xs => xs.length = n ∧ ∀ x ∈ xs, post x := by
  induction n with
  | zero => exact .done ⟨rfl, nofun⟩
  | succ n ih =>
    exact h.andThen fun a ha => ih.andThen fun as ⟨hlen, has⟩ =>
      .done ⟨congrArg Nat.succ hlen, List.forall_mem_cons.mpr ⟨ha, has⟩⟩

/-! ### The decoders of the shapes -/

theorem safe_decPrimitive {P : Primitive α} (hP : P.Faithful) :
    Safe C r (decPrimitive P r) fun v => P.valid v = true :=
  (safe_readField hP.le).andThen fun v hv => .done (hP.onto v hv)

theorem safe_runPlan {plan : ReadPlan} (h : plan.Bounded) : Safe C r (runPlan r plan) fun n => n < 2 ^ 64 := by
  induction plan with
  | value n => exact .done h
  | malformed => exact .reject (.inr (.inl rfl))
  | read width next ih =>
    obtain ⟨hw, hnext⟩ := h
    exact (safe_readField hw).andThen fun v hv => ih _ (hnext _ hv)

theorem countOk_iff (C : Contract) (m len : Nat) :
    countOk C m len = true ↔ len < 2 ^ 64 ∧ (m ≠ 0 ∨ C.acceptsZeroSize len = true) := by
  simp only [countOk, Bool.and_eq_true, Bool.or_eq_true, decide_eq_true_eq, bne_iff_ne]

/-- A count that the client accepts (R208, U9). -/
theorem safe_decCount (hV : C.varLen.Lawful) (m : Nat) :
    Safe C r (decCount C r m) fun c => countOk C m c.1 = true := by
  refine (safe_runPlan hV.bounded).andThen fun len hlen => ?_
  by_cases hm : m = 0
  · rw [if_pos hm]
    cases haccept : C.acceptsZeroSize len with
    | true => exact .done ((countOk_iff _ _ _).mpr ⟨hlen, .inr haccept⟩)
    | false =>
      refine .reject (.inr (.inr ⟨rfl, ?_⟩))
      rw [Contract.acceptsZeroSize] at haccept
      cases hmax : C.zlenMax with
      | none => simp [hmax] at haccept
      | some most => exact ⟨most, len, rfl, by simpa [hmax] using haccept, hlen⟩
  · rw [if_neg hm]
    exact safe_rRemain.andThen fun _ _ => .done ((countOk_iff _ _ _).mpr ⟨hlen, .inl hm⟩)

theorem safe_decSeq (hV : C.varLen.Lawful) (m : Nat) {valid : α → Bool} (hd : Safe C r d fun v => valid v = true) :
    Safe C r (decSeq C r m d) fun xs => (countOk C m xs.length && xs.all valid) = true := by
  have hitems : Safe C r (decCollection C r m d) fun c => (countOk C m c.items.length && c.items.all valid) = true :=
    (safe_decCount hV m).andThen fun c hc => (hd.repeated c.1).andThen fun xs ⟨hlen, hall⟩ =>
      .done (Bool.and_eq_true_iff.mpr ⟨(congrArg (countOk C m) hlen).trans hc, List.all_eq_true.mpr hall⟩)
  exact hitems.andThen fun c hc => .done hc

theorem safe_decSeqArray (hV : C.varLen.Lawful) {P : Primitive α} (hP : P.Faithful) :
    Safe C r (decSeqArray C r P) fun xs => (countOk C P.width xs.length && xs.all P.valid) = true := by
  have hitems : Safe C r (decCollectionArray C r P) fun c =>
      (countOk C P.width c.items.length && c.items.all P.valid) = true := by
    refine (safe_decCount hV P.width).andThen fun c hc => (safe_rArray hP.pos hP.le _).andThen fun a ⟨hlen, hall⟩ => .done ?_
    rw [BitVec.toNat_ofNat, Nat.mod_eq_of_lt ((countOk_iff _ _ _).mp hc).1] at hlen
    refine Bool.and_eq_true_iff.mpr ⟨?_, List.all_eq_true.mpr ?_⟩
    · exact (congrArg (countOk C P.width) ((List.length_map _).trans hlen)).trans hc
    · rintro v hv
      obtain ⟨e, he, rfl⟩ := List.mem_map.mp hv
      exact hP.onto e (hall e he)
  exact hitems.andThen fun c hc => .done hc

theorem safe_seqArrayFormat (hV : C.varLen.Lawful) {P : Primitive α} (hP : P.Faithful) (a d : Bool) :
    Safe C r ((seqArrayFormat C P a d).dec r) fun v => (seqArrayFormat C P a d).valid v = true := by
  cases d with
  | true => exact safe_decSeqArray hV hP
  | false => exact safe_decSeq hV P.width (safe_decPrimitive hP)

theorem safe_decBounded {lo hi : Int} (hle : lo ≤ hi) (hrange : hi - lo < 2 ^ 64) :
    Safe C r (decBounded r lo hi) fun v => (boundedFormat lo hi).valid v = true := by
  have hcount : rangeCount lo hi ≤ 2 ^ 64 := by rw [rangeCount]; omega
  refine (safe_readField (leastWidth_le hcount)).andThen fun v _ => .verdict fun hv => ?_
  rw [rangeCount] at hv
  exact Bool.and_eq_true_iff.mpr ⟨decide_eq_true (by omega), decide_eq_true (by omega)⟩

theorem safe_decChar (hC : C.Lawful) : Safe C r (decChar C.chars r) fun v => C.chars.ok v = true :=
  (safe_readField (leastWidth_le hC.charField)).andThen fun _ _ => .verdict id

theorem safe_decTag {n : Nat} (hn : n ≤ 2 ^ 64) : Safe C r (decTag r n) fun _ => True := by
  refine (safe_readField (leastWidth_le hn)).andThen fun k _ => ?_
  split
  · exact .done trivial
  · exact .reject (.inr (.inl rfl))

theorem safe_decOption {valid : α → Bool} (hd : Safe C r d fun v => valid v = true) :
    Safe C r (decOption r d) fun v => v.all valid = true := by
  refine (safe_readField (by decide)).andThen fun p _ => ?_
  split
  · exact .done rfl
  · exact hd.andThen fun x hx => .done hx

theorem safe_decStruct {x : Codec α} {y : Codec β} {validX : α → Bool} {validY : β → Bool}
    (hx : Safe C r x fun a => validX a = true) (hy : Safe C r y fun b => validY b = true) :
    Safe C r (decStruct x y) fun v => (validX v.1 && validY v.2) = true :=
  hx.andThen fun _ ha => hy.andThen fun _ hb => .done (Bool.and_eq_true_iff.mpr ⟨ha, hb⟩)

/-- From any source, the decoder of a supported shape gives a value of the shape or a listed error. -/
theorem Supported.safe {F : Format α} (hC : C.Lawful) (h : Supported C F) (r : Ctx) :
    Safe C r (F.dec r) fun v => F.valid v = true := by
  induction h with
  | primitive fixed => exact safe_decPrimitive fixed.faithful
  | bounded lo hi some_value in_range => exact safe_decBounded some_value in_range
  | uvar => exact (safe_runPlan hC.varLen.bounded).mono fun n hn => decide_eq_true hn
  | ivar =>
    refine (safe_runPlan hC.varLen.bounded).andThen fun z hz => .done ?_
    obtain ⟨hlo, hhi⟩ := unzigzag_bounds hz
    exact Bool.and_eq_true_iff.mpr ⟨decide_eq_true hlo, decide_eq_true hhi⟩
  | char => exact safe_decChar hC
  | bytes a d =>
    rw [bytesFormat_eq]
    exact safe_seqArrayFormat hC.varLen faithful_byte a d
  | text a d =>
    have hbytes := safe_seqArrayFormat (r := r) hC.varLen faithful_byte a d
    rw [← bytesFormat_eq] at hbytes
    cases d with
    | true | false =>
      exact hbytes.andThen fun bs hbs => .verdict fun hok => Bool.and_eq_true_iff.mpr ⟨hbs, hok⟩
  | option _ ih => exact safe_decOption ih
  | enum _ in_range _ ih =>
    exact (safe_decTag in_range).andThen fun k _ => (ih k).andThen fun x hx => .done hx
  | seq _ ih => exact safe_decSeq hC.varLen _ ih
  | seqArray fixed a d => exact safe_seqArrayFormat hC.varLen fixed.faithful a d
  | map _ _ ihK ihN =>
    rw [mapFormat_eq]
    exact safe_decSeq hC.varLen _ (safe_decStruct ihK ihN)
  | unit => exact .done rfl
  | field _ _ ihF ihG => exact safe_decStruct ihF ihG
  | joined _ _ _ _ _ _ ihF ihG => exact safe_decStruct ihF ihG

/-! ### A top-level decode of any source (44_client_codecs R218, R219) -/

/-- `R_CLOSE` of a reader in use: it is `IDLE`, and an `OPEN` one answers no more than its length. -/
theorem exec_rClose_closes {s : State} (hi : Inv s) (hf : s.fatal = false) (hst : (s.reader r).st ≠ .idle) :
    ∃ t v, exec (.rClose r) s = .next t ∧ issue (.rClose r) s = .value (okResponse v) t ∧ Inv t ∧
      (t.reader r).st = .idle ∧ Frame r s t ∧ ((s.reader r).st = .opened → v = (s.reader r).remaining) := by
  have hx := exec_rClose_of_not_idle hf (lt_nr_of_inUse hi hst) hst
  refine ⟨_, _, hx, issue_of_ok hx rfl rfl, hi.exec hx, ?_, frame_of_exec rfl hx, fun ho => if_pos ho⟩
  rw [respond_reader, reader_setReader_same]

/-- On a ready reader a decode ends in a value or in a listed error, the reader closed (R218, R219). -/
theorem Safe.decodeOpened (hd : Safe C r d post) {s : State} (hs : Ready r s) :
    ∃ t, Inv t ∧ (t.reader r).st = .idle ∧ Frame r s t ∧
      ((∃ v left, decodeOpened r d s = .value (v, left) t ∧ post v ∧ left ≤ (s.reader r).total.toNat) ∨
        ∃ e, decodeOpened r d s = .error e t ∧ ListedError C e) := by
  rcases hd s hs with ⟨v, t, hval, hpost, ht, hkept⟩ | ⟨e, t, herr, hlisted, hst, hi, hkept⟩
  · obtain ⟨u, left, _, hclose, hu, hidle, hframe, hleft⟩ := exec_rClose_closes ht.good ht.running ht.inUse
    refine ⟨u, hu, hidle, hkept.toFrame.trans hframe, .inl ⟨v, left.toNat, ?_, hpost, ?_⟩⟩
    · rw [Client.decodeOpened, andThen_of_value (closing_of_value hval), andThen_of_value hclose]
      rfl
    · rw [hleft ht.opened, toNat_remaining, hkept.total]
      exact Nat.sub_le _ _
  · obtain ⟨u, _, hx, _, hu, hidle, hframe, _⟩ := exec_rClose_closes hi (hkept.fatal.trans hs.running) hst
    exact ⟨u, hu, hidle, hkept.toFrame.trans hframe, .inr ⟨e, andThen_of_error (closing_of_error herr hx) _, hlisted⟩⟩

/-- `R_OPEN` with a legal binding leaves a ready reader of the given length. -/
theorem issue_rOpen {s : State} (hi : Inv s) (hf : s.fatal = false) (hr : r.toNat < s.params.nr) {src : List Byte}
    {total : Nat} (fits : src.length ≤ s.params.rcap) (bits : total ≤ 8 * src.length) :
    ∃ a t, issue (.rOpen r (BitVec.ofNat 64 src.length) (BitVec.ofNat 64 total) src) s = .value a t ∧ Ready r t ∧
      Frame r s t ∧ (t.reader r).total.toNat = total := by
  obtain ⟨_, _, _, _, hcap⟩ := (Params.wf_iff _).mp hi.1
  have hbytes : (BitVec.ofNat 64 src.length).toNat = src.length := by rw [BitVec.toNat_ofNat, Nat.mod_eq_of_lt (by omega)]
  have htotal : (BitVec.ofNat 64 total).toNat = total := by rw [BitVec.toNat_ofNat, Nat.mod_eq_of_lt (by omega)]
  have hx := exec_rOpen (total := BitVec.ofNat 64 total) hf hr (hbytes.trans_le fits) hbytes.symm
    (by rw [hbytes, htotal]; exact bits)
  have hframe := frame_of_exec rfl hx
  have hreader := (reader_bindReader s r r (BitVec.ofNat 64 src.length) (BitVec.ofNat 64 total) src).trans (if_pos rfl)
  exact ⟨_, _, issue_of_ok hx rfl rfl, ⟨hi.exec hx, hf, congrArg Reader.st hreader⟩, hframe,
    (congrArg (fun y => y.total.toNat) hreader).trans htotal⟩

end

/-- Settles O10: by induction on the shape, each decoder reads on, or ends in a listed error with the reader in use. -/
theorem hostileDataDecodesSafely : Obligations.HostileDataDecodesSafely := by
  intro C α F hC hF s r src total hi hf hr fits bits
  obtain ⟨a, s1, hopen, hs1, hframe1, htotal⟩ := issue_rOpen hi hf hr fits bits
  obtain ⟨t, ht, hidle, hframe2, hend⟩ := (hF.safe hC r).decodeOpened hs1
  have hframe := hframe1.trans hframe2
  have hdecode : decodeTop r src total (F.dec r) s = decodeOpened r (F.dec r) s1 := andThen_of_value hopen _
  rw [htotal] at hend
  rw [hdecode]
  exact ⟨t, ht, hframe.fatal.trans hf, hidle, hframe.writers, hframe.readers, hframe.params, hframe.fastEn, hframe.hostLe,
    hframe.input, hend⟩

end Sys2Proof.Client

namespace Sys2Proof.Client

open Sys2Proof.Machine

/-! ### What an encoder writes (44_client_codecs R200, R221) -/

/-- A running good state of build `p`. -/
structure Running (p : Params) (s : State) : Prop where
  good : Inv s
  running : s.fatal = false
  build : s.params = p

/-- The commands write the given bits to writer `w`, whatever it holds, where there is room; besides `w` they touch the scratch
writers only. -/
structure Writes (w : Ctx) (scratch : List Ctx) (body : List Instr) (bits : List Bool) : Prop where
  size : bits.length = sizeOfEncoding body
  runs : ∀ {p : Params} {before : List Bool} {s : State}, Writing p w before s → (∀ u ∈ scratch, u.toNat < p.nw) →
    cdiv8 (before.length + bits.length) ≤ p.wcap →
    ∃ as t, issueAll body s = .value as t ∧ Writing p w (before ++ bits) t ∧
      ∀ u, u ∉ w :: scratch → t.writer u = s.writer u

theorem cdiv8_mono {a b : Nat} (h : a ≤ b) : cdiv8 a ≤ cdiv8 b := Nat.div_le_div_right (Nat.add_le_add_right h 7)

section
variable {p : Params} {w v : Ctx} {scratch : List Ctx} {bits new : List Bool} {s t u : State}

theorem running_of_writing (h : Writing p w bits s) : Running p s := ⟨h.good, h.running, h.build⟩

/-- A writer that has not changed is as it was. -/
theorem writing_of_same (h : Writing p w bits s) (ht : Running p t) (same : t.writer w = s.writer w) :
    Writing p w bits t :=
  ⟨ht.good, ht.running, ht.build, same ▸ h.opened, same ▸ h.holds⟩

/-- A writer in use is one the build has (30_encoding R97 item 5). -/
theorem lt_nw_of_writing (h : Writing p w bits s) : w.toNat < p.nw := by
  obtain ⟨_, _, _, present, _⟩ := h.good
  exact h.build ▸ of_decide_eq_true ((present w).resolve_right (by simp [h.opened]))

/-- The bits of `W_BITS` (20_memory R61). -/
theorem lowBits_ofNat (v : Nat) {width : Nat} (hw : width ≤ 64) : lowBits (BitVec.ofNat 64 v) width = natBits v width := by
  refine List.map_congr_left fun j hj => ?_
  have : j < 64 := (List.mem_range.mp hj).trans_le hw
  rw [BitVec.getLsbD_ofNat, decide_eq_true this, Bool.true_and]

/-- `W_ARRAY` with room appends the bits of its elements (43_fastpath_array R183). -/
theorem writing_wArray (h : Writing p w bits s) {width : Nat} (hpos : 1 ≤ width) (hn : width ≤ 64) {es : List Word}
    (hlen : es.length < 2 ^ 64) (room : cdiv8 (bits.length + es.length * width) ≤ p.wcap) :
    ∃ t, exec (.wArray w (BitVec.ofNat 7 width) es) s = .next t ∧ t.resp = some (okResponse 0) ∧
      Writing p w (bits ++ es.flatMap fun e => lowBits e width) t := by
  have hw := lt_nw_of_writing h
  obtain ⟨hi, hf, rfl, ho, hb⟩ := h
  obtain ⟨hcur, _⟩ := hb (by simp [ho])
  have hwidth := toNat_width hn
  have room' : s.hasRoom w (es.length * (BitVec.ofNat 7 width).toNat) = true :=
    (hasRoom_iff _ _ _).mpr (by rwa [hcur, hwidth])
  have hx := exec_wArray_of_room hf hw (hpos.trans_eq hwidth.symm) (hwidth.trans_le hn) hlen ho room'
  have hholds := hb.exec (i := .wArray w (BitVec.ofNat 7 width) es) hi nofun hx
  have hnew : bitsAnswered w (.wArray w (BitVec.ofNat 7 width) es) s (s.writeElems w (BitVec.ofNat 7 width).toNat es) =
      es.flatMap fun e => lowBits e width := by
    simp [bitsAnswered, bitsAppended, State.writeElems, Nat.mod_eq_of_lt (show width < 128 by omega)]
  rw [hnew] at hholds
  exact ⟨_, hx, rfl, hi.exec hx, hf, rfl, (st_writeElems _ _).trans ho, hholds⟩

/-- `W_APPEND` with room appends the bits of its source (41_writer_ops R143). -/
theorem writing_wAppend (h : Writing p w bits s) (hv : Writing p v new s) (hne : w ≠ v)
    (room : cdiv8 (bits.length + new.length) ≤ p.wcap) :
    ∃ t, exec (.wAppend w v) s = .next t ∧ t.resp = some (okResponse 0) ∧ Writing p w (bits ++ new) t := by
  have hw := lt_nw_of_writing h
  have hvw := lt_nw_of_writing hv
  obtain ⟨hi, hf, rfl, ho, hb⟩ := h
  obtain ⟨_, _, _, hov, hbv⟩ := hv
  obtain ⟨hcur, _⟩ := hb (by simp [ho])
  obtain ⟨hcurv, _⟩ := hbv (by simp [hov])
  obtain ⟨t, hx, hresp, hst, _⟩ := appendConcatenatesTheSource s w v hi hf hw hvw hne ho hov (by rwa [hcur, hcurv])
  have hholds := hb.exec (i := .wAppend w v) hi nofun hx
  have hnew : bitsAnswered w (.wAppend w v) s t = new := by
    simp only [bitsAnswered, hresp, Option.map_some, okResponse, if_true, bitsAppended, hcurv]
    refine List.ext_getElem (by simp) fun k _ hk => ?_
    rw [List.getElem_map, List.getElem_range, hbv.streamBit (by simp [hov]), List.getD_eq_getElem _ _ hk]
  rw [hnew] at hholds
  have hparams := (exec_config_eq hx).1
  have hfatal := exec_fatal_eq hx fun a ha => by rw [hresp] at ha; cases ha; exact nofun
  exact ⟨t, hx, hresp, hi.exec hx, hfatal.trans hf, hparams, hst, hholds⟩

theorem issueAll_append {is js : List Instr} {as bs : List Response} (h : issueAll is s = .value as t)
    (h' : issueAll js t = .value bs u) : issueAll (is ++ js) s = .value (as ++ bs) u := by
  induction is generalizing s as with
  | nil =>
    cases h
    exact h'
  | cons i is ih =>
    obtain ⟨a, v, hfirst, hrest⟩ := andThen_eq_value.mp h
    obtain ⟨as', v', htail, hdone⟩ := andThen_eq_value.mp hrest
    cases hdone
    exact (andThen_of_value hfirst _).trans (andThen_of_value (ih htail) _)

theorem issueAll_single {i : Instr} {a : Response} (h : exec i s = .next t) (ha : t.resp = some a) (hok : a.status = .ok) :
    issueAll [i] s = .value [a] t :=
  (andThen_of_value (issue_of_ok h ha hok) _).trans (andThen_of_value (a := []) rfl _)

@[simp] theorem sizeOfEncoding_nil : sizeOfEncoding [] = 0 := rfl

theorem sizeOfEncoding_append (is js : List Instr) :
    sizeOfEncoding (is ++ js) = sizeOfEncoding is + sizeOfEncoding js := by
  simp [sizeOfEncoding]

theorem sizeOfEncoding_cons (i : Instr) (is : List Instr) : sizeOfEncoding (i :: is) = bitsWritten i + sizeOfEncoding is :=
  List.sum_cons

theorem writes_nil (w : Ctx) (scratch : List Ctx) : Writes w scratch [] [] where
  size := rfl
  runs {_ _ s} h _ _ := ⟨[], s, rfl, (List.append_nil _).symm ▸ h, fun _ _ => rfl⟩

theorem Writes.append {is js : List Instr} {xs ys : List Bool} (h : Writes w scratch is xs) (h' : Writes w scratch js ys) :
    Writes w scratch (is ++ js) (xs ++ ys) where
  size := by rw [List.length_append, sizeOfEncoding_append, h.size, h'.size]
  runs {p before s} hs present room := by
    rw [List.length_append, ← Nat.add_assoc] at room
    obtain ⟨as, t, hrun, ht, hframe⟩ := h.runs hs present ((cdiv8_mono (Nat.le_add_right _ _)).trans room)
    obtain ⟨bs, u, hrun', hu, hframe'⟩ := h'.runs ht present (by rwa [List.length_append])
    exact ⟨_, u, issueAll_append hrun hrun', List.append_assoc _ _ _ ▸ hu, fun v hv => (hframe' v hv).trans (hframe v hv)⟩

theorem Writes.mono {more : List Ctx} {body : List Instr} (h : Writes w scratch body bits) (hsub : scratch ⊆ more) :
    Writes w more body bits where
  size := h.size
  runs hs present room := by
    obtain ⟨as, t, hrun, ht, hframe⟩ := h.runs hs (fun u hu => present u (hsub hu)) room
    exact ⟨as, t, hrun, ht, fun u hu => hframe u fun hmem => hu (List.cons_subset_cons w hsub hmem)⟩

theorem writes_flatMap {α : Type} {xs : List α} {enc : α → List Instr} {f : α → List Bool}
    (h : ∀ x ∈ xs, Writes w scratch (enc x) (f x)) : Writes w scratch (xs.flatMap enc) (xs.flatMap f) := by
  induction xs with
  | nil => exact writes_nil w scratch
  | cons x xs ih =>
    obtain ⟨hx, hxs⟩ := List.forall_mem_cons.mp h
    exact hx.append (ih hxs)

/-- One command on `w` alone that appends the bits. -/
theorem writes_single {i : Instr} (named : Instr.writersNamed i = [w]) (hsize : bits.length = bitsWritten i)
    (hruns : ∀ {p : Params} {before : List Bool} {s : State}, Writing p w before s →
      cdiv8 (before.length + bits.length) ≤ p.wcap →
      ∃ t, exec i s = .next t ∧ t.resp = some (okResponse 0) ∧ Writing p w (before ++ bits) t) :
    Writes w scratch [i] bits where
  size := hsize
  runs hs _ room := by
    obtain ⟨t, hx, hresp, ht⟩ := hruns hs room
    refine ⟨_, t, issueAll_single hx hresp rfl, ht, fun u hu => exec_writer_unnamed ?_ hx⟩
    rw [named]
    exact fun hmem => hu (List.mem_cons.mpr (.inl (List.mem_singleton.mp hmem)))

/-- `writeField` writes the bits of its value (41_writer_ops R142). -/
theorem writes_field {width : Nat} (hw : width ≤ 64) (value : Nat) :
    Writes w scratch [writeField w width value] (natBits value width) := by
  refine writes_single rfl ?_ fun hs room => ?_
  · rw [natBits_length, writeField, bitsWritten, toNat_width hw]
  · rw [natBits_length, ← toNat_width hw] at room
    have hx := hs.wBits (lt_nw_of_writing hs) ((toNat_width hw).trans_le hw) (BitVec.ofNat 64 value) room
    rwa [toNat_width hw, lowBits_ofNat value hw] at hx

/-- An array command writes what the element loop writes (43_fastpath_array R183). -/
theorem writes_array {α : Type} {P : Primitive α} (hP : P.Faithful) {xs : List α} (hlen : xs.length < 2 ^ 64) :
    Writes w scratch [.wArray w (BitVec.ofNat 7 P.width) (xs.map fun x => BitVec.ofNat 64 (P.pattern x))]
      (xs.flatMap fun x => natBits (P.pattern x) P.width) := by
  have hbits : (xs.map fun x => BitVec.ofNat 64 (P.pattern x)).flatMap (fun e => lowBits e P.width) =
      xs.flatMap fun x => natBits (P.pattern x) P.width := by
    rw [List.flatMap_map]
    exact List.flatMap_congr fun x _ => lowBits_ofNat _ hP.le
  have hsize : (xs.flatMap fun x => natBits (P.pattern x) P.width).length = xs.length * P.width := by
    simp [List.length_flatMap]
  refine writes_single rfl ?_ fun hs room => ?_
  · rw [hsize, bitsWritten, toNat_width hP.le, List.length_map]
  · rw [hsize] at room
    have hx := writing_wArray hs hP.pos hP.le (es := xs.map fun x => BitVec.ofNat 64 (P.pattern x))
      (by rwa [List.length_map]) (by rwa [List.length_map])
    rwa [hbits] at hx

/-- A number in a lawful scheme (44_client_codecs R206). -/
theorem writes_encUvar {V : VarLen} (hV : V.Lawful) {n : Nat} (hn : n < 2 ^ 64) :
    Writes w scratch (encUvar V w n) (V.bits n) := by
  rw [encUvar, List.map_eq_flatMap]
  exact writes_flatMap fun f hf => writes_field (hV.fields n hn f hf).1 f.2

/-! ### Structs joined from separate writers (44_client_codecs R216) -/

/-- On any writer that its encoder does not use otherwise, a field writes the given bits. -/
def FieldCode.Writes (f : FieldCode) (bits : List Bool) : Prop :=
  ∀ w, w ∉ f.scratch → Client.Writes w f.scratch (f.enc w) bits

/-- The writers a field uses beside that of the struct. -/
def FieldCode.uses (f : FieldCode) : List Ctx := f.apart.toList ++ f.scratch

/-- The bits of a field stand ready in its own writer, if it has one. -/
def Parked (p : Params) (f : FieldCode) (bits : List Bool) (s : State) : Prop :=
  ∀ v, f.apart = some v → Writing p v bits s

end

section
variable {p : Params} {w v : Ctx} {f : FieldCode} {fields : List FieldCode} {bits before : List Bool} {s t : State}
  {present : Ctx → Bool}

theorem WritersApart.tail (h : WritersApart present w (f :: fields)) : WritersApart present w fields := by
  obtain ⟨hdiffer, hkept, hpresent⟩ := h
  have hsub : (w :: fields.filterMap FieldCode.apart).Sublist (w :: (f :: fields).filterMap FieldCode.apart) :=
    ((List.sublist_cons_self f fields).filterMap _).cons_cons w
  exact ⟨hdiffer.sublist hsub, fun g hg u hu => hkept g (List.mem_cons_of_mem f hg) u (hsub.subset hu),
    fun g hg => hpresent g (List.mem_cons_of_mem f hg)⟩

theorem WritersApart.target_not_mem (h : WritersApart present w fields) (hf : f ∈ fields) : w ∉ f.scratch :=
  h.kept f hf w List.mem_cons_self

theorem mem_apart (hf : f ∈ fields) (hv : f.apart = some v) : v ∈ fields.filterMap FieldCode.apart :=
  List.mem_filterMap.mpr ⟨f, hf, hv⟩

theorem WritersApart.own_not_mem (h : WritersApart present w fields) (hf : f ∈ fields) (hv : f.apart = some v) :
    ∀ g ∈ fields, v ∉ g.scratch :=
  fun g hg => h.kept g hg v (List.mem_cons_of_mem w (mem_apart hf hv))

theorem WritersApart.own_ne (h : WritersApart present w fields) (hf : f ∈ fields) (hv : f.apart = some v) : w ≠ v := by
  rintro rfl
  exact (List.nodup_cons.mp h.differ).1 (mem_apart hf hv)

/-- No later field uses the own writer of the first. -/
theorem WritersApart.own_not_used (h : WritersApart present w (f :: fields)) (hv : f.apart = some v) :
    ∀ g ∈ fields, v ∉ g.uses := by
  intro g hg hmem
  rcases List.mem_append.mp hmem with hown | hscratch
  · have hnodup := (List.nodup_cons.mp h.differ).2
    rw [List.filterMap_cons_some hv] at hnodup
    exact (List.nodup_cons.mp hnodup).1 (mem_apart hg (Option.mem_toList.mp hown))
  · exact h.own_not_mem List.mem_cons_self hv g (List.mem_cons_of_mem f hg) hscratch

/-- The first field does not use the own writer of a later one. -/
theorem WritersApart.later_not_used (h : WritersApart present w (f :: fields)) {g : FieldCode} (hg : g ∈ fields)
    (hv : g.apart = some v) : v ∉ w :: f.uses := by
  intro hmem
  rcases List.mem_cons.mp hmem with rfl | hmem
  · exact h.own_ne (List.mem_cons_of_mem f hg) hv rfl
  rcases List.mem_append.mp hmem with hown | hscratch
  · exact h.own_not_used (Option.mem_toList.mp hown) g hg (List.mem_append_left _ (Option.mem_toList.mpr hv))
  · exact h.own_not_mem (List.mem_cons_of_mem f hg) hv f List.mem_cons_self hscratch

/-- Building one field leaves its bits in its own writer. -/
theorem build_parks (hf : f.Writes bits) (hown : ∀ v, f.apart = some v → v ∉ f.scratch) (hs : Running p s)
    (hpresent : ∀ u ∈ f.uses, u.toNat < p.nw) (room : cdiv8 bits.length ≤ p.wcap) :
    ∃ as t, issueAll f.build s = .value as t ∧ Running p t ∧ Parked p f bits t ∧
      ∀ u, u ∉ f.uses → t.writer u = s.writer u := by
  unfold FieldCode.build FieldCode.uses at *
  cases hv : f.apart with
  | none =>
    refine ⟨[], s, rfl, hs, fun v hown => ?_, fun _ _ => rfl⟩
    rw [hv] at hown
    exact nomatch hown
  | some v =>
    rw [hv] at hpresent
    obtain ⟨hi, hfatal, rfl⟩ := hs
    obtain ⟨t, hx, hresp, ht⟩ := writing_of_wOpen hi hfatal (hpresent v List.mem_cons_self)
    obtain ⟨as, u, hrun, hu, hframe⟩ := (hf v (hown v hv)).runs ht (fun c hc => hpresent c (List.mem_cons_of_mem v hc))
      (by rwa [List.length_nil, Nat.zero_add])
    refine ⟨_, u, issueAll_append (is := [.wOpen v]) (issueAll_single hx hresp rfl) hrun, running_of_writing hu, ?_, ?_⟩
    · intro c hc
      obtain rfl := Option.some.inj (hv.symm.trans hc)
      exact hu
    · intro c hc
      refine (hframe c hc).trans (exec_writer_unnamed ?_ hx)
      exact fun hmem => hc (List.mem_cons.mpr (.inl (List.mem_singleton.mp hmem)))

/-- Joining one field appends its bits, from its own writer or by its own commands. -/
theorem join_appends (hf : f.Writes bits) (hw : w ∉ f.scratch) (hne : ∀ v, f.apart = some v → w ≠ v)
    (hs : Writing p w before s) (hparked : Parked p f bits s) (hpresent : ∀ u ∈ f.uses, u.toNat < p.nw)
    (room : cdiv8 (before.length + bits.length) ≤ p.wcap) :
    ∃ as t, issueAll (f.join w) s = .value as t ∧ Writing p w (before ++ bits) t ∧
      ∀ u, u ∉ w :: f.uses → t.writer u = s.writer u := by
  unfold FieldCode.join FieldCode.uses at *
  cases hv : f.apart with
  | none =>
    rw [hv] at hpresent
    exact (hf w hw).runs hs hpresent room
  | some v =>
    obtain ⟨t, hx, hresp, ht⟩ := writing_wAppend hs (hparked v hv) (hne v hv) room
    refine ⟨_, t, issueAll_single hx hresp rfl, ht, fun u hu => exec_writer_unnamed ?_ hx⟩
    simp only [List.mem_cons, Option.toList_some, List.cons_append, List.nil_append, not_or] at hu
    simp [Instr.writersNamed, hu]

end

/-- Fields with the bits that encode them: on any writer, each field writes its bits. -/
def FieldsWrite (parts : List (FieldCode × List Bool)) : Prop := ∀ x ∈ parts, x.1.Writes x.2

section
variable {p : Params} {w : Ctx} {parts : List (FieldCode × List Bool)} {before : List Bool} {s : State} {present : Ctx → Bool}

/-- A writer that no field uses. -/
theorem not_mem_uses {u : Ctx} {x : FieldCode × List Bool} (hu : u ∉ (x :: parts).flatMap fun y => y.1.uses) :
    u ∉ x.1.uses ∧ u ∉ parts.flatMap fun y => y.1.uses := by
  rw [List.flatMap_cons, List.mem_append, not_or] at hu
  exact hu

/-- Building all fields leaves the bits of each in its own writer. -/
theorem builds_park (hparts : FieldsWrite parts) (hapart : WritersApart present w (parts.map Prod.fst)) (hs : Running p s)
    (hpresent : ∀ x ∈ parts, ∀ u ∈ x.1.uses, u.toNat < p.nw) (room : ∀ x ∈ parts, cdiv8 x.2.length ≤ p.wcap) :
    ∃ as t, issueAll ((parts.map Prod.fst).flatMap FieldCode.build) s = .value as t ∧ Running p t ∧
      (∀ x ∈ parts, Parked p x.1 x.2 t) ∧ ∀ u, u ∉ (parts.flatMap fun y => y.1.uses) → t.writer u = s.writer u := by
  induction parts generalizing s with
  | nil => exact ⟨[], s, rfl, hs, nofun, fun _ _ => rfl⟩
  | cons x parts ih =>
    obtain ⟨hx, hparts⟩ := List.forall_mem_cons.mp hparts
    obtain ⟨hpx, hpresent⟩ := List.forall_mem_cons.mp hpresent
    obtain ⟨hrx, room⟩ := List.forall_mem_cons.mp room
    obtain ⟨as, t, hrun, ht, hparked, hframe⟩ :=
      build_parks hx (fun v hv => hapart.own_not_mem List.mem_cons_self hv _ List.mem_cons_self) hs hpx hrx
    obtain ⟨bs, u, hrun', hu, hrest, hframe'⟩ := ih hparts (WritersApart.tail hapart) ht hpresent room
    refine ⟨_, u, issueAll_append hrun hrun', hu, List.forall_mem_cons.mpr ⟨fun v hv => ?_, hrest⟩, fun c hc => ?_⟩
    · refine writing_of_same (hparked v hv) hu (hframe' v fun hmem => ?_)
      obtain ⟨y, hy, hvy⟩ := List.mem_flatMap.mp hmem
      exact WritersApart.own_not_used hapart hv y.1 (List.mem_map_of_mem hy) hvy
    · obtain ⟨hcx, hcs⟩ := not_mem_uses hc
      exact (hframe' c hcs).trans (hframe c hcx)

/-- Joining all fields appends the bits of each, in field order. -/
theorem joins_append (hparts : FieldsWrite parts) (hapart : WritersApart present w (parts.map Prod.fst))
    (hs : Writing p w before s) (hparked : ∀ x ∈ parts, Parked p x.1 x.2 s)
    (hpresent : ∀ x ∈ parts, ∀ u ∈ x.1.uses, u.toNat < p.nw)
    (room : cdiv8 (before.length + (parts.flatMap Prod.snd).length) ≤ p.wcap) :
    ∃ as t, issueAll ((parts.map Prod.fst).flatMap (FieldCode.join w)) s = .value as t ∧
      Writing p w (before ++ parts.flatMap Prod.snd) t ∧
      ∀ u, u ∉ (w :: parts.flatMap fun y => y.1.uses) → t.writer u = s.writer u := by
  induction parts generalizing s before with
  | nil => exact ⟨[], s, rfl, (List.append_nil before).symm ▸ hs, fun _ _ => rfl⟩
  | cons x parts ih =>
    obtain ⟨hx, hparts⟩ := List.forall_mem_cons.mp hparts
    obtain ⟨hpx, hpresent⟩ := List.forall_mem_cons.mp hpresent
    obtain ⟨hparkedx, hparked⟩ := List.forall_mem_cons.mp hparked
    rw [List.flatMap_cons, List.length_append, ← Nat.add_assoc] at room
    obtain ⟨as, t, hrun, ht, hframe⟩ := join_appends hx (hapart.target_not_mem List.mem_cons_self)
      (fun v hv => hapart.own_ne List.mem_cons_self hv) hs hparkedx hpx ((cdiv8_mono (Nat.le_add_right _ _)).trans room)
    have hstill : ∀ y ∈ parts, Parked p y.1 y.2 t := fun y hy v hv =>
      writing_of_same (hparked y hy v hv) (running_of_writing ht)
        (hframe v (WritersApart.later_not_used hapart (List.mem_map_of_mem hy) hv))
    obtain ⟨bs, u, hrun', hu, hframe'⟩ :=
      ih hparts (WritersApart.tail hapart) ht hstill hpresent (by rwa [List.length_append])
    refine ⟨_, u, issueAll_append hrun hrun', ?_, fun c hc => ?_⟩
    · rw [List.flatMap_cons, ← List.append_assoc]
      exact hu
    · have hcw := List.ne_of_not_mem_cons hc
      obtain ⟨hcx, hcs⟩ := not_mem_uses (List.not_mem_of_not_mem_cons hc)
      exact (hframe' c (by simp [hcw, hcs])).trans (hframe c (by simp [hcw, hcx]))

/-- The bits of a struct are counted once, where its fields are written. -/
theorem sizeOfEncoding_joined (hparts : FieldsWrite parts) (hapart : WritersApart present w (parts.map Prod.fst)) :
    (parts.flatMap Prod.snd).length = sizeOfEncoding (encStructJoined w (parts.map Prod.fst)) := by
  rw [encStructJoined, sizeOfEncoding_append]
  induction parts with
  | nil => rfl
  | cons x parts ih =>
    obtain ⟨hx, hparts⟩ := List.forall_mem_cons.mp hparts
    have hone : x.2.length = sizeOfEncoding x.1.build + sizeOfEncoding (x.1.join w) := by
      unfold FieldCode.build FieldCode.join
      cases hv : x.1.apart with
      | none => simpa using (hx w (hapart.target_not_mem List.mem_cons_self)).size
      | some v =>
        simpa [sizeOfEncoding_cons, bitsWritten] using
          (hx v (hapart.own_not_mem List.mem_cons_self hv _ List.mem_cons_self)).size
    have hrest := ih hparts (WritersApart.tail hapart)
    simp only [List.map_cons, List.flatMap_cons, List.length_append, sizeOfEncoding_append] at hrest ⊢
    omega

/-- Fields joined from separate writers write the bits of the fields in order (R216). -/
theorem writes_encStructJoined (hparts : FieldsWrite parts) (hapart : WritersApart present w (parts.map Prod.fst)) :
    Writes w (parts.flatMap fun y => y.1.uses) (encStructJoined w (parts.map Prod.fst)) (parts.flatMap Prod.snd) where
  size := sizeOfEncoding_joined hparts hapart
  runs {p before s} hs hpresent room := by
    have hpres : ∀ x ∈ parts, ∀ u ∈ x.1.uses, u.toNat < p.nw := fun x hx u hu =>
      hpresent u (List.mem_flatMap.mpr ⟨x, hx, hu⟩)
    have hroom : ∀ x ∈ parts, cdiv8 x.2.length ≤ p.wcap := fun x hx => by
      have hle := ((List.singleton_sublist.mpr hx).flatMap Prod.snd).length_le
      rw [List.flatMap_singleton] at hle
      exact (cdiv8_mono (hle.trans (Nat.le_add_left _ _))).trans room
    obtain ⟨as, t, hbuild, ht, hparked, hframe⟩ := builds_park hparts hapart (running_of_writing hs) hpres hroom
    have hw : w ∉ parts.flatMap fun y => y.1.uses := by
      intro hmem
      obtain ⟨y, hy, hwy⟩ := List.mem_flatMap.mp hmem
      rcases List.mem_append.mp hwy with hown | hscratch
      · exact hapart.own_ne (List.mem_map_of_mem hy) (Option.mem_toList.mp hown) rfl
      · exact hapart.target_not_mem (List.mem_map_of_mem hy) hscratch
    obtain ⟨bs, u, hjoin, hu, hframe'⟩ := joins_append hparts hapart (writing_of_same hs ht (hframe w hw)) hparked hpres room
    exact ⟨_, u, issueAll_append hbuild hjoin, hu, fun c hc =>
      (hframe' c hc).trans (hframe c (List.not_mem_of_not_mem_cons hc))⟩

/-- Fields written to one writer write the same bits (R216). -/
theorem writes_encStruct (hparts : FieldsWrite parts) (hw : ∀ x ∈ parts, w ∉ x.1.scratch) :
    Writes w (parts.flatMap fun y => y.1.uses) (encStruct ((parts.map Prod.fst).map fun f => f.enc w))
      (parts.flatMap Prod.snd) := by
  rw [encStruct, List.map_map, ← List.flatMap_def]
  exact writes_flatMap fun x hx => (hparts x hx w (hw x hx)).mono fun u hu =>
    List.mem_flatMap.mpr ⟨x, hx, List.mem_append_right _ hu⟩

end

end Sys2Proof.Client

namespace Sys2Proof.Client

open Sys2Proof.Machine

/-! ### What a decoder reads (44_client_codecs R200) -/

/-- From the given bits, whatever follows them, the sequence reads the value and leaves what follows. -/
def Reads {α : Type} (r : Ctx) (d : Codec α) (v : α) (bits : List Bool) : Prop :=
  ∀ (p : Params) (rest : List Bool) (s : State), Reading p r (bits ++ rest) s →
    ∃ t, d s = .value v t ∧ Reading p r rest t

section
variable {α β : Type} {p : Params} {r : Ctx} {xs rest : List Bool} {s : State}

theorem ready_of_reading (h : Reading p r xs s) : Ready r s := ⟨h.good, h.running, h.opened⟩

/-- The next unread bits. -/
theorem streamBits_of_reading (h : Reading p r (xs ++ rest) s) :
    streamBits (s.reader r).src (s.reader r).cur.toNat xs.length = xs ∧
      streamBits (s.reader r).src ((s.reader r).cur.toNat + xs.length) rest.length = rest := by
  have hunread := h.unread
  rw [List.length_append, streamBits_add] at hunread
  exact List.append_inj hunread (streamBits_length _ _ _)

/-- An advancing read of the next bits answers them and leaves the rest unread. -/
theorem reading_advance (h : Reading p r (xs ++ rest) s) {i : Instr} (hr : Advances r i)
    (asked : bitsAsked i = some (r, xs.length)) (hl : s.legal i = true) :
    ∃ t, issue i s = .value ((s.reader r).readResponse i) t ∧ Reading p r rest t := by
  have hleft := h.left
  rw [List.length_append] at hleft
  have enough : (s.reader r).hasBits xs.length = true := (hasBits_iff _ _).mpr (by omega)
  obtain ⟨t, cur, hval, ht, hkept, hreader, hcur⟩ := (ready_of_reading h).issue_of_enough hr asked hl enough
  refine ⟨t, hval, ht.good, ht.running, hkept.params.trans h.build, ht.opened, ?_, ?_⟩ <;>
    simp only [hreader, hcur]
  · omega
  · exact (streamBits_of_reading h).2

/-- A word is the number of its low bits when it has no others. -/
theorem eq_ofNat_of_lowBits {e : Word} {n : Nat} (hlt : e.toNat < 2 ^ n) (h : lowBits e n = xs) :
    e = BitVec.ofNat 64 (natOfBits xs) := by
  have hbits : lowBits e n = natBits e.toNat n := rfl
  rw [← h, hbits, natOfBits_natBits, Nat.mod_eq_of_lt hlt, BitVec.ofNat_toNat, BitVec.setWidth_eq]

theorem Reads.done (v : α) : Reads r (done v) v [] := fun _ _ _ h => ⟨_, rfl, h⟩

theorem Reads.andThen {x : Codec α} {f : α → Codec β} {a : α} {b : β} {ys : List Bool} (hx : Reads r x a xs)
    (hf : Reads r (f a) b ys) : Reads r (andThen x f) b (xs ++ ys) := by
  intro p rest s h
  rw [List.append_assoc] at h
  obtain ⟨t, hval, ht⟩ := hx _ _ _ h
  obtain ⟨u, hval', hu⟩ := hf _ _ _ ht
  exact ⟨u, (andThen_of_value hval f).trans hval', hu⟩

/-- After the last read the client makes its value of what it has read. -/
theorem Reads.finish {x : Codec α} {f : α → Codec β} {a : α} {b : β} (hx : Reads r x a xs)
    (hf : f a = Client.done b) : Reads r (Client.andThen x f) b xs := by
  intro p rest s h
  obtain ⟨t, hval, ht⟩ := hx _ _ _ h
  exact ⟨t, (andThen_of_value hval f).trans (congrFun hf t), ht⟩

/-- `R_BITS` reads the next bits as a number (42_reader_ops R163). -/
theorem reads_bits (r : Ctx) (hw : xs.length ≤ 64) :
    Reads r (readField r xs.length) (BitVec.ofNat 64 (natOfBits xs)) xs := by
  intro p rest s h
  have ready := ready_of_reading h
  obtain ⟨t, hval, ht⟩ := reading_advance h (.inl ⟨_, rfl⟩) (bitsAsked_rBits r hw) (ready.legal_rBits hw)
  refine ⟨t, (andThen_of_value hval _).trans ?_, ht⟩
  rw [Reader.readResponse, toNat_width hw, done_eq]
  refine congrArg (Outcome.value · t) (eq_ofNat_of_lowBits (loadBits_lt _ _ _) ?_)
  exact (lowBits_loadBits _ _ hw).trans (streamBits_of_reading h).1

/-- `R_BITS` reads back a value that fits its field. -/
theorem reads_field (r : Ctx) {width v : Nat} (hw : width ≤ 64) (hv : v < 2 ^ width) :
    Reads r (readField r width) (BitVec.ofNat 64 v) (natBits v width) := by
  have h := reads_bits r (xs := natBits v width) (by rwa [natBits_length])
  rwa [natBits_length, natOfBits_natBits, Nat.mod_eq_of_lt hv] at h

theorem toNat_ofNat_of_lt {v width : Nat} (hw : width ≤ 64) (hv : v < 2 ^ width) : (BitVec.ofNat 64 v).toNat = v := by
  rw [BitVec.toNat_ofNat, Nat.mod_eq_of_lt (hv.trans_le (Nat.pow_le_pow_right (by decide) hw))]

/-- The elements that the slow datapath of `R_ARRAY` delivers are the fields it reads (43_fastpath_array R188). -/
theorem loadElems_of_streamBits {m : Memory} {width : Nat} (hw : width ≤ 64) {pattern : α → Nat} {vs : List α}
    (hv : ∀ v ∈ vs, pattern v < 2 ^ width) {c : Nat}
    (h : streamBits m c (vs.length * width) = vs.flatMap fun v => natBits (pattern v) width) :
    loadElems m c width vs.length = vs.map fun v => BitVec.ofNat 64 (pattern v) := by
  induction vs generalizing c with
  | nil => rfl
  | cons v vs ih =>
    obtain ⟨hfits, hv⟩ := List.forall_mem_cons.mp hv
    have hfirst : loadElems m c width (v :: vs).length = loadBits m c width :: loadElems m (c + width) width vs.length := by
      simp [loadElems, List.range_succ_eq_map, Nat.succ_mul, Nat.add_comm width, Nat.add_assoc]
    rw [List.length_cons, Nat.succ_mul, Nat.add_comm, streamBits_add, List.flatMap_cons] at h
    obtain ⟨hhead, htail⟩ := List.append_inj h (by simp)
    have hword := eq_ofNat_of_lowBits (loadBits_lt m c width) ((lowBits_loadBits m c hw).trans hhead)
    rw [natOfBits_natBits, Nat.mod_eq_of_lt hfits] at hword
    rw [hfirst, hword, ih hv htail, List.map_cons]

/-- One `R_ARRAY` reads the fields of the elements. -/
theorem reads_array (r : Ctx) {P : Primitive α} (hP : P.Faithful) {vs : List α} (hlen : vs.length < 2 ^ 64)
    (hv : ∀ v ∈ vs, P.valid v = true) {f : Response → Codec β} {b : β}
    (hf : ∀ a : Response, a.elems.map P.value = vs → f a = Client.done b) :
    Reads r (andThen (issue (.rArray r (BitVec.ofNat 7 P.width) (BitVec.ofNat 64 vs.length))) f) b
      (vs.flatMap fun v => natBits (P.pattern v) P.width) := by
  intro p rest s h
  have hcount : (BitVec.ofNat 64 vs.length).toNat = vs.length := toNat_ofNat_of_lt le_rfl hlen
  have hbits : (vs.flatMap fun v => natBits (P.pattern v) P.width).length = vs.length * P.width := by
    simp [List.length_flatMap]
  have asked := bitsAsked_rArray r hP.le (BitVec.ofNat 64 vs.length)
  rw [hcount, ← hbits] at asked
  obtain ⟨t, hval, ht⟩ :=
    reading_advance h (.inr ⟨_, _, rfl⟩) asked ((ready_of_reading h).legal_rArray hP.pos hP.le _)
  refine ⟨t, (andThen_of_value hval f).trans (congrFun (hf _ ?_) t), ht⟩
  have hunread := (streamBits_of_reading h).1
  rw [hbits] at hunread
  have helems := loadElems_of_streamBits hP.le (fun v hmem => hP.fits v (hv v hmem)) hunread
  rw [Reader.readResponse, toNat_width hP.le, hcount, helems, List.map_map]
  exact (List.map_congr_left fun v hmem => hP.inverse v (hv v hmem)).trans (List.map_id vs)

theorem reads_repeated {d : Codec α} {vs : List α} {f : α → List Bool} (h : ∀ v ∈ vs, Reads r d v (f v)) :
    Reads r (repeated d vs.length) vs (vs.flatMap f) := by
  induction vs with
  | nil => exact .done []
  | cons v vs ih =>
    obtain ⟨hv, hvs⟩ := List.forall_mem_cons.mp h
    exact hv.andThen ((ih hvs).finish rfl)

/-- A plan reads on the block what it decodes from the unread bits (44_client_codecs R206). -/
theorem runPlan_of_decode {plan : ReadPlan} (hbounded : plan.Bounded) {bits : List Bool} {n : Nat}
    (hdecode : plan.decode bits = some (n, rest)) (h : Reading p r bits s) :
    ∃ t, runPlan r plan s = .value n t ∧ Reading p r rest t := by
  induction plan generalizing bits s with
  | value m =>
    obtain ⟨rfl, rfl⟩ := Prod.mk.inj (Option.some.inj hdecode)
    exact ⟨s, rfl, h⟩
  | malformed => exact nomatch hdecode
  | read width next ih =>
    obtain ⟨hw, hnext⟩ := hbounded
    rw [ReadPlan.decode] at hdecode
    split at hdecode
    · exact nomatch hdecode
    next hlong =>
      have htake : (bits.take width).length = width := List.length_take_of_le (Nat.le_of_not_lt hlong)
      have hlt := natOfBits_lt (bits.take width)
      rw [htake] at hlt
      rw [← List.take_append_drop width bits] at h
      obtain ⟨t, hval, ht⟩ := reads_bits r (htake.trans_le hw) _ _ _ h
      rw [htake] at hval
      obtain ⟨u, hrun, hu⟩ := ih _ (hnext _ hlt) hdecode ht
      refine ⟨u, (andThen_of_value hval _).trans ?_, hu⟩
      rwa [toNat_ofNat_of_lt hw hlt]

theorem reads_decUvar (r : Ctx) {V : VarLen} (hV : V.Lawful) {n : Nat} (hn : n < 2 ^ 64) :
    Reads r (decUvar V r) n (V.bits n) := fun _ _ _ h => runPlan_of_decode hV.bounded (hV.decodes n hn _) h

/-- After a count that the client accepts it goes on, whatever it has reserved (R208). -/
theorem reads_count {C : Contract} (hV : C.varLen.Lawful) {m len : Nat} (hok : countOk C m len = true)
    {f : Nat × Nat → Codec β} {b : β} (hf : ∀ room, Reads r (f (len, room)) b xs) :
    Reads r (andThen (decCount C r m) f) b (C.varLen.bits len ++ xs) := by
  obtain ⟨hlen, hzero⟩ := (countOk_iff C m len).mp hok
  rw [decCount, andThen_assoc]
  refine (reads_decUvar r hV hlen).andThen ?_
  by_cases hm : m = 0
  · rw [if_pos hm, if_pos (hzero.resolve_left (not_not_intro hm))]
    exact hf 0
  · rw [if_neg hm]
    intro p rest s h
    have hremain := (ready_of_reading h).issue_rRemain
    have h' : Reading p r (xs ++ rest) { s with resp := some (okResponse (s.reader r).remaining) } :=
      ⟨h.good, h.running, h.build, h.opened, h.left, h.unread⟩
    obtain ⟨t, hval, ht⟩ := hf _ _ _ _ h'
    refine ⟨t, ?_, ht⟩
    rw [andThen_assoc, andThen_of_value hremain]
    exact hval

/-- A sequence read by the element loop (R214). -/
theorem reads_decSeq {C : Contract} (hV : C.varLen.Lawful) {m : Nat} {d : Codec α} {vs : List α}
    (hok : countOk C m vs.length = true) {f : α → List Bool} (h : ∀ v ∈ vs, Reads r d v (f v)) :
    Reads r (decSeq C r m d) vs (C.varLen.bits vs.length ++ vs.flatMap f) := by
  rw [decSeq, decCollection, andThen_assoc]
  refine reads_count hV hok fun room => ?_
  have hitems : Reads r (andThen (repeated d vs.length) fun xs => Client.done (Collection.filled room xs))
      (Collection.filled room vs) (vs.flatMap f) := (reads_repeated h).finish rfl
  exact hitems.finish rfl

/-- A sequence of primitives read by one array command (R214). -/
theorem reads_decSeqArray (r : Ctx) {C : Contract} (hV : C.varLen.Lawful) {P : Primitive α} (hP : P.Faithful) {vs : List α}
    (hok : countOk C P.width vs.length = true) (hv : ∀ v ∈ vs, P.valid v = true) :
    Reads r (decSeqArray C r P) vs
      (C.varLen.bits vs.length ++ vs.flatMap fun v => natBits (P.pattern v) P.width) := by
  rw [decSeqArray, decCollectionArray, andThen_assoc]
  refine reads_count hV hok fun room => ?_
  rw [andThen_assoc]
  refine reads_array r hP ((countOk_iff _ _ _).mp hok).1 hv fun a ha => ?_
  rw [ha]
  rfl

end

/-! ### Top-level encodes and decodes (44_client_codecs R219) -/

section
variable {α : Type} {p : Params} {w r : Ctx} {scratch : List Ctx} {bits rest : List Bool} {s : State}

@[simp] theorem outputBytes_length (m : Memory) (n : Nat) : (outputBytes m n).length = n := by simp [outputBytes]

theorem outputBytes_congr {m m' : Memory} (h : ∀ k, streamBit m k = streamBit m' k) (n : Nat) :
    outputBytes m n = outputBytes m' n :=
  List.map_congr_left fun _ _ => readByte_eq_of_streamBit fun _ _ => h _

/-- `W_FINISH` on a writer that holds the bits answers their number and makes it `DONE`. -/
theorem issue_wFinish (h : Writing p w bits s) :
    ∃ t, issue (.wFinish w) s = .value (okResponse (BitVec.ofNat 64 bits.length)) t ∧ Running p t ∧
      (t.writer w).st = .done ∧ (t.writer w).cur.toNat = bits.length ∧
      ∀ k, streamBit (t.writer w).store k = bits.getD k false := by
  have hw := lt_nw_of_writing h
  obtain ⟨t, hx, hresp, hi, hf, hp, hbits⟩ := h.wFinish hw
  obtain ⟨hcur, _⟩ := h.holds (by simp [h.opened])
  obtain rfl := Host.Outcome.next.inj ((exec_wFinish_of_opened h.running (h.build ▸ hw) h.opened).symm.trans hx)
  refine ⟨_, issue_of_ok hx hresp rfl, ⟨hi, hf, hp⟩, ?_, ?_, hbits⟩ <;> rw [respond_writer, writer_setWriter_same]
  exact hcur

/-- Every byte of a finished output can be read (41_writer_ops R145). -/
theorem issueAll_wByte (hs : Running p s) (hw : w.toNat < p.nw) (hdone : (s.writer w).st = .done) {js : List Nat}
    (hjs : ∀ j ∈ js, j < cdiv8 (s.writer w).cur.toNat) :
    ∃ as a, issueAll (js.map fun j => .wByte w (BitVec.ofNat 64 j)) s = .value as { s with resp := a } ∧
      as.map (fun b => b.r0.setWidth 8) = js.map fun j => readByte (s.writer w).store j := by
  induction js generalizing s with
  | nil => exact ⟨[], s.resp, rfl, rfl⟩
  | cons j js ih =>
    obtain ⟨hj, hjs⟩ := List.forall_mem_cons.mp hjs
    have hlt : j < s.params.wcap := index_lt_wcap hs.good (by simp [hdone]) hj
    have hindex : (BitVec.ofNat 64 j).toNat = j := by
      have hcap := wcap_lt_of_wf hs.good.1
      rw [BitVec.toNat_ofNat, Nat.mod_eq_of_lt (by omega)]
    have hx := exec_wByte_of_done (BitVec.ofNat 64 j) hs.running (hs.build ▸ hw) hdone
    rw [hindex, if_pos hj, if_pos hlt] at hx
    obtain ⟨as, a, hrun, hbytes⟩ := ih (s := s.respond .ok ((readByte (s.writer w).store j).setWidth 64) [])
      ⟨hs.good, hs.running, hs.build⟩ hdone hjs
    refine ⟨_, a, issueAll_append (is := [.wByte w (BitVec.ofNat 64 j)]) (issueAll_single hx rfl rfl) hrun, ?_⟩
    rw [List.map_append, hbytes, List.map_cons]
    exact congrArg (· :: _) (BitVec.setWidth_setWidth_of_le _ (by decide))

/-- A top-level encode of commands that write the bits gives their bytes and their number. -/
theorem encodeTop_of_writes {body : List Instr} (hbody : Writes w scratch body bits) (hi : Inv s) (hf : s.fatal = false)
    (hw : w.toNat < s.params.nw) (present : ∀ u ∈ scratch, s.hasWriter u = true)
    (room : cdiv8 bits.length ≤ s.params.wcap) :
    ∃ m t, encodeTop w body s = .value (outputBytes m (cdiv8 bits.length), bits.length) t ∧ Running s.params t ∧
      ∀ k, streamBit m k = bits.getD k false := by
  obtain ⟨s1, hopen, hresp, h1⟩ := writing_of_wOpen hi hf hw
  obtain ⟨as, s2, hrun, h2, _⟩ := hbody.runs h1 (fun u hu => of_decide_eq_true (present u hu))
    (by rwa [List.length_nil, Nat.zero_add])
  rw [List.nil_append] at h2
  obtain ⟨s3, hfinish, h3, hdone, hcur, hbits⟩ := issue_wFinish h2
  have hall : issueAll (.wOpen w :: body) s = .value _ s2 :=
    issueAll_append (is := [.wOpen w]) (issueAll_single hopen hresp rfl) hrun
  have hlen : (BitVec.ofNat 64 bits.length).toNat = bits.length := by
    have hword := (s3.writer w).cur.isLt
    rw [hcur] at hword
    rw [BitVec.toNat_ofNat, Nat.mod_eq_of_lt hword]
  obtain ⟨bytes, a, hread, hbytes⟩ := issueAll_wByte h3 hw hdone (js := List.range (cdiv8 bits.length))
    fun j hj => hcur.symm ▸ List.mem_range.mp hj
  refine ⟨(s3.writer w).store, { s3 with resp := a }, ?_, ⟨h3.good, h3.running, h3.build⟩, hbits⟩
  rw [encodeTop, andThen_of_value hall, andThen_of_value hfinish, okResponse, hlen,
    andThen_of_value hread, hbytes]
  rfl

/-- A decode on an opened reader gives the value and the number of bits after it. -/
theorem decodeOpened_of_reads {d : Codec α} {v : α} (hd : Reads r d v bits) (h : Reading p r (bits ++ rest) s) :
    ∃ u, decodeOpened r d s = .value (v, rest.length) u := by
  obtain ⟨t, hval, ht⟩ := hd _ _ _ h
  have ready := ready_of_reading ht
  obtain ⟨u, left, _, hclose, _, _, _, hleft⟩ := exec_rClose_closes ready.good ready.running ready.inUse
  have hcount : left.toNat = rest.length := by
    have := ht.left
    rw [hleft ready.opened, toNat_remaining]
    omega
  refine ⟨u, ?_⟩
  rw [decodeOpened, andThen_of_value (closing_of_value hval), andThen_of_value hclose, ← hcount]
  rfl

/-- A top-level decode of the bytes that hold the bits of a value and more. -/
theorem decodeTop_of_reads {d : Codec α} {v : α} (hd : Reads r d v bits) (hs : Running p s) (hr : r.toNat < p.nr)
    {m : Memory} (hm : ∀ k, streamBit m k = (bits ++ rest).getD k false) (fits : cdiv8 (bits ++ rest).length ≤ p.rcap) :
    ∃ u, decodeTop r (outputBytes m (cdiv8 (bits ++ rest).length)) (bits ++ rest).length d s =
      .value (v, rest.length) u := by
  obtain ⟨hi, hf, rfl⟩ := hs
  obtain ⟨t, hx, hresp, ht⟩ := reading_of_rOpen hi hf hr hm fits
  rw [decodeTop, outputBytes_length, andThen_of_value (issue_of_ok hx hresp rfl)]
  exact decodeOpened_of_reads hd ht

/-- A top-level decode of whole bytes is one with eight bits for each byte (42_reader_ops R162). -/
theorem decodeTopB_eq (hs : Running p s) {src : List Byte} (fits : src.length ≤ p.rcap) (r : Ctx) (d : Codec α) :
    decodeTopB r src d s = decodeTop r src (8 * src.length) d s := by
  obtain ⟨hi, _, rfl⟩ := hs
  obtain ⟨_, _, _, _, hcap⟩ := (Params.wf_iff _).mp hi.1
  obtain ⟨same, _⟩ := openWholeBytesIsOpen s r (BitVec.ofNat 64 src.length) src hi
  rw [BitVec.toNat_ofNat, Nat.mod_eq_of_lt (show src.length < 2 ^ 64 by omega)] at same
  simp only [decodeTopB, decodeTop, andThen, issue, same]

/-- The bits of an output and the zero bits that pad it to whole bytes. -/
theorem getD_padded (bits : List Bool) (n k : Nat) :
    (bits ++ List.replicate n false).getD k false = bits.getD k false := by
  by_cases hk : k < bits.length
  · rw [List.getD_append _ _ _ _ hk]
  · rw [List.getD_append_right _ _ _ _ (Nat.le_of_not_lt hk), List.getD_eq_default bits _ (Nat.le_of_not_lt hk)]
    exact (List.getD_eq_getElem?_getD ..).trans (List.getElem?_getD_replicate_default_eq _ _ _)

/-- The bytes of an output, opened as whole bytes, give the value and the padding. -/
theorem decodeTopB_of_reads {d : Codec α} {v : α} (hd : Reads r d v bits) (hs : Running p s) (hr : r.toNat < p.nr)
    {m : Memory} (hm : ∀ k, streamBit m k = bits.getD k false) (fits : cdiv8 bits.length ≤ p.rcap) :
    ∃ u, decodeTopB r (outputBytes m (cdiv8 bits.length)) d s =
      .value (v, 8 * cdiv8 bits.length - bits.length) u := by
  have hpadded : (bits ++ List.replicate (8 * cdiv8 bits.length - bits.length) false).length = 8 * cdiv8 bits.length := by
    rw [List.length_append, List.length_replicate, cdiv8]
    omega
  have hbytes : cdiv8 (8 * cdiv8 bits.length) = cdiv8 bits.length := by
    rw [cdiv8]
    omega
  obtain ⟨u, hu⟩ := decodeTop_of_reads hd hs hr (rest := List.replicate (8 * cdiv8 bits.length - bits.length) false)
    (fun k => (hm k).trans (getD_padded _ _ _).symm) (by rwa [hpadded, hbytes])
  rw [hpadded, hbytes, List.length_replicate] at hu
  exact ⟨u, by rwa [decodeTopB_eq hs (by rwa [outputBytes_length]), outputBytes_length]⟩

end

end Sys2Proof.Client

namespace Sys2Proof.Client

open Sys2Proof.Machine

/-! ### Every shape carries its values (44_client_codecs R220) -/

/-- The bits are those that the format's encoder writes for the value and its decoder reads back, and no fewer than the least
number the shape can occupy. -/
structure Carries {α : Type} (F : Format α) (v : α) (bits : List Bool) : Prop where
  writes : ∀ w, w ∉ F.scratch → Writes w F.scratch (F.enc w v) bits
  reads : ∀ r, Reads r (F.dec r) v bits
  least : F.minBits ≤ bits.length

section
variable {α β : Type} {C : Contract} {F : Format α} {G : Format β} {bits xs ys : List Bool}

theorem carries_primitive {P : Primitive α} (hP : P.Faithful) {v : α} (hv : P.valid v = true) :
    Carries P.format v (natBits (P.pattern v) P.width) where
  writes _ _ := writes_field hP.le _
  reads r := (reads_field r hP.le (hP.fits v hv)).finish (congrArg done (hP.inverse v hv))
  least := (natBits_length _ _).ge

theorem cost_zero_le {V : VarLen} (hV : V.Lawful) {n : Nat} (hn : n < 2 ^ 64) : V.cost 0 ≤ (V.bits n).length :=
  cost_eq_length_bits V n ▸ hV.monotone 0 n (Nat.zero_le n) hn

theorem carries_uvar (hV : C.varLen.Lawful) {n : Nat} (hn : n < 2 ^ 64) :
    Carries (uvarFormat C) n (C.varLen.bits n) where
  writes _ _ := writes_encUvar hV hn
  reads r := reads_decUvar r hV hn
  least := cost_zero_le hV hn

theorem carries_ivar (hV : C.varLen.Lawful) {n : Int} (hn : zigzag n < 2 ^ 64) :
    Carries (ivarFormat C) n (C.varLen.bits (zigzag n)) where
  writes _ _ := writes_encUvar hV hn
  reads r := (reads_decUvar r hV hn).finish (congrArg done (unzigzag_zigzag n))
  least := cost_zero_le hV hn

theorem carries_bounded {lo hi v : Int} (hlo : lo ≤ v) (hhi : v ≤ hi) (hrange : hi - lo < 2 ^ 64) :
    Carries (boundedFormat lo hi) v (natBits (v - lo).toNat (leastWidth (rangeCount lo hi))) := by
  have hcount : rangeCount lo hi ≤ 2 ^ 64 := by rw [rangeCount]; omega
  have hlt : (v - lo).toNat < rangeCount lo hi := by rw [rangeCount]; omega
  have hfits : (v - lo).toNat < 2 ^ leastWidth (rangeCount lo hi) := hlt.trans_le (le_two_pow_leastWidth hcount)
  refine ⟨fun _ _ => writes_field (leastWidth_le hcount) _, fun r => ?_, (natBits_length _ _).ge⟩
  refine (reads_field r (leastWidth_le hcount) hfits).finish ?_
  rw [toNat_ofNat_of_lt (leastWidth_le hcount) hfits, if_pos hlt]
  exact congrArg done (by omega)

theorem carries_char (hC : C.Lawful) {c : Nat} (hc : C.chars.ok c = true) :
    Carries (charFormat C) c (natBits c C.chars.width) := by
  have hw := leastWidth_le hC.charField
  have hfits : c < 2 ^ C.chars.width := (hC.charRange c hc).trans_le (le_two_pow_leastWidth hC.charField)
  refine ⟨fun _ _ => writes_field hw _, fun r => (reads_field r hw hfits).finish ?_, (natBits_length _ _).ge⟩
  rw [toNat_ofNat_of_lt hw hfits, if_pos hc]

/-- A sequence carries its count and its elements (R214). -/
theorem carries_seq (hV : C.varLen.Lawful) {vs : List α} (hok : countOk C F.minBits vs.length = true)
    {f : α → List Bool} (h : ∀ v ∈ vs, Carries F v (f v)) :
    Carries (seqFormat C F) vs (C.varLen.bits vs.length ++ vs.flatMap f) := by
  have hlen := ((countOk_iff _ _ _).mp hok).1
  refine ⟨fun w hw => ?_, fun r => reads_decSeq hV hok fun v hv => (h v hv).reads r, ?_⟩
  · exact (writes_encUvar hV hlen).append (writes_flatMap fun v hv => (h v hv).writes w hw)
  · exact (cost_zero_le hV hlen).trans ((List.prefix_append _ _).length_le)

/-- An array of primitives carries what the sequence carries, either side with or without an array command (R214). -/
theorem carries_seqArray (hV : C.varLen.Lawful) {P : Primitive α} (hP : P.Faithful) {vs : List α}
    (hok : countOk C P.width vs.length = true) (hvs : ∀ v ∈ vs, P.valid v = true) (a d : Bool) :
    Carries (seqArrayFormat C P a d) vs
      (C.varLen.bits vs.length ++ vs.flatMap fun v => natBits (P.pattern v) P.width) := by
  have hlen := ((countOk_iff _ _ _).mp hok).1
  have loop := carries_seq (F := P.format) hV hok fun v hv => carries_primitive hP (hvs v hv)
  refine ⟨fun w hw => ?_, fun r => ?_, loop.least⟩
  · cases a with
    | true => exact (writes_encUvar hV hlen).append (writes_array hP hlen)
    | false => exact loop.writes w hw
  · cases d with
    | true => exact reads_decSeqArray r hV hP hok hvs
    | false => exact loop.reads r

/-- Text is its bytes, checked when they have been read (R211). -/
theorem carries_text {a d : Bool} {text : List Byte} (h : Carries (bytesFormat C a d) text bits)
    (hok : C.textOk text = true) : Carries (textFormat C a d) text bits := by
  have hcheck : checkText C text = done text := if_pos hok
  refine ⟨fun w hw => ?_, fun r => ?_, h.least⟩
  · cases a with
    | true | false => exact h.writes w hw
  · cases d with
    | true | false => exact (h.reads r).finish hcheck

theorem carries_none (F : Format α) : Carries (optionFormat F) none (natBits 0 1) where
  writes _ _ := writes_field (by decide) 0
  reads r := (reads_field r (by decide) (by decide)).finish (if_pos rfl)
  least := (natBits_length 0 1).ge

theorem carries_some {v : α} (h : Carries F v bits) : Carries (optionFormat F) (some v) (natBits 1 1 ++ bits) where
  writes w hw := (writes_field (by decide) 1).append (h.writes w hw)
  reads r := by
    refine (reads_field r (by decide) (by decide)).andThen ?_
    rw [if_neg (by decide)]
    exact (h.reads r).finish rfl
  least := by simp [optionFormat]

theorem leastPayload_le {n : Nat} (f : Fin n → Nat) (k : Fin n) : leastPayload f ≤ f k := by
  rw [leastPayload]
  cases hmin : ((List.finRange n).map f).min? with
  | none => exact Nat.zero_le _
  | some a => exact (List.min?_eq_some_iff.mp hmin).2 _ (List.mem_map_of_mem (List.mem_finRange k))

/-- An enum value carries its tag and its payload (R213). -/
theorem carries_enum {n : Nat} {π : Fin n → Type} {F : (k : Fin n) → Format (π k)} (hn : n ≤ 2 ^ 64) {k : Fin n} {x : π k}
    (h : Carries (F k) x bits) : Carries (enumFormat F) ⟨k, x⟩ (natBits k.val (leastWidth n) ++ bits) := by
  have hw := leastWidth_le hn
  have hfits : k.val < 2 ^ leastWidth n := k.isLt.trans_le (le_two_pow_leastWidth hn)
  have hsub : (F k).scratch ⊆ (enumFormat F).scratch := fun u hu =>
    List.mem_flatMap.mpr ⟨k, List.mem_finRange k, hu⟩
  have htag (r : Ctx) : Reads r (decTag r n) k (natBits k.val (leastWidth n)) := by
    refine (reads_field r hw hfits).finish ?_
    have hread := toNat_ofNat_of_lt hw hfits
    rw [dif_pos (hread.trans_lt k.isLt)]
    exact congrArg done (Fin.ext hread)
  refine ⟨fun w hout => ?_, fun r => (htag r).andThen ((h.reads r).finish rfl), ?_⟩
  · exact (writes_field hw _).append ((h.writes w fun hin => hout (hsub hin)).mono hsub)
  · rw [List.length_append, natBits_length]
    exact Nat.add_le_add_left ((leastPayload_le _ k).trans h.least) _

/-- A struct carries its fields in order (R216). -/
theorem carries_field {a : α} {b : β} (ha : Carries F a xs) (hb : Carries G b ys) :
    Carries (fieldFormat F G) (a, b) (xs ++ ys) where
  writes w hw := by
    obtain ⟨hF, hG⟩ := not_or.mp (mt List.mem_append.mpr hw)
    have hfields := ((ha.writes w hF).mono (List.subset_append_left _ G.scratch)).append
      ((hb.writes w hG).mono (List.subset_append_right F.scratch _))
    rwa [← List.append_nil (G.enc w b)] at hfields
  reads r := (ha.reads r).andThen ((hb.reads r).finish rfl)
  least := (Nat.add_le_add ha.least hb.least).trans_eq (List.length_append).symm

/-- A field of a struct writes the bits of its value. -/
theorem Carries.field {v : α} (h : Carries F v bits) (p : Option Ctx) : (F.field p v).Writes bits := h.writes

/-- The writers of a struct with two fields (R216). -/
theorem writersApart_pair {p q : Option Ctx} {w : Ctx} {a : α} {b : β} (apart : (p.toList ++ q.toList).Nodup)
    (kept : ∀ u ∈ p.toList ++ q.toList, u ∉ F.scratch ++ G.scratch) (hw : w ∉ (joinedFormat p q F G).scratch) :
    WritersApart (fun _ => true) w [F.field p a, G.field q b] := by
  have hown : [F.field p a, G.field q b].filterMap FieldCode.apart = p.toList ++ q.toList := by
    cases p <;> cases q <;> rfl
  have hscratch : (joinedFormat p q F G).scratch = (p.toList ++ q.toList) ++ (F.scratch ++ G.scratch) :=
    List.append_assoc _ _ _
  rw [hscratch, List.mem_append, not_or] at hw
  obtain ⟨hwown, hwscratch⟩ := hw
  have hkept : ∀ u ∈ w :: (p.toList ++ q.toList), u ∉ F.scratch ++ G.scratch := List.forall_mem_cons.mpr ⟨hwscratch, kept⟩
  refine ⟨?_, fun f hf u hu => ?_, fun _ _ _ _ => rfl⟩
  · rw [hown]
    exact List.nodup_cons.mpr ⟨hwown, apart⟩
  · rw [hown] at hu
    have hout := hkept u hu
    rw [List.mem_append, not_or] at hout
    rcases List.mem_pair.mp hf with rfl | rfl
    · exact hout.1
    · exact hout.2

/-- A struct joined from separate writers carries the bits of the struct it is (R216). -/
theorem carries_joined {p q : Option Ctx} (apart : (p.toList ++ q.toList).Nodup)
    (kept : ∀ u ∈ p.toList ++ q.toList, u ∉ F.scratch ++ G.scratch) {a : α} {b : β} (ha : Carries F a xs)
    (hb : Carries G b ys) : Carries (joinedFormat p q F G) (a, b) (xs ++ ys) := by
  have plain := carries_field ha hb
  refine ⟨fun w hw => ?_, plain.reads, plain.least⟩
  have hparts : FieldsWrite [(F.field p a, xs), (G.field q b, ys)] :=
    List.forall_mem_cons.mpr ⟨ha.field p, List.forall_mem_cons.mpr ⟨hb.field q, nofun⟩⟩
  have hjoined := writes_encStructJoined hparts (writersApart_pair apart kept hw)
  have hbits : [(F.field p a, xs), (G.field q b, ys)].flatMap Prod.snd = xs ++ ys := by simp
  rw [hbits] at hjoined
  refine hjoined.mono fun u hu => ?_
  simp only [List.flatMap_cons, List.flatMap_nil, List.append_nil, FieldCode.uses, Format.field, joinedFormat,
    List.mem_append] at hu ⊢
  tauto

/-- Every supported shape carries every value of its type. -/
theorem Supported.carries (hC : C.Lawful) (h : Supported C F) : ∀ v, F.valid v = true → ∃ bits, Carries F v bits := by
  have hV := hC.varLen
  induction h with
  | primitive fixed => exact fun v hv => ⟨_, carries_primitive fixed.faithful hv⟩
  | bounded lo hi some_value in_range =>
    intro v hv
    obtain ⟨hlo, hhi⟩ := Bool.and_eq_true_iff.mp hv
    exact ⟨_, carries_bounded (of_decide_eq_true hlo) (of_decide_eq_true hhi) in_range⟩
  | uvar => exact fun n hn => ⟨_, carries_uvar hV (of_decide_eq_true hn)⟩
  | ivar =>
    intro n hn
    obtain ⟨hlo, hhi⟩ := Bool.and_eq_true_iff.mp hn
    exact ⟨_, carries_ivar hV (zigzag_lt (of_decide_eq_true hlo) (of_decide_eq_true hhi))⟩
  | char => exact fun c hc => ⟨_, carries_char hC hc⟩
  | bytes a d =>
    intro bs hbs
    rw [bytesFormat_eq] at hbs ⊢
    obtain ⟨hok, hall⟩ := Bool.and_eq_true_iff.mp hbs
    exact ⟨_, carries_seqArray hV faithful_byte hok (List.all_eq_true.mp hall) a d⟩
  | text a d =>
    intro bs hbs
    obtain ⟨hlen, htext⟩ := Bool.and_eq_true_iff.mp hbs
    have hok : countOk C bytePrimitive.width bs.length = true :=
      (countOk_iff _ _ _).mpr ⟨of_decide_eq_true hlen, .inl (by decide)⟩
    have hbytes := carries_seqArray hV faithful_byte hok (fun _ _ => rfl) a d
    rw [← bytesFormat_eq] at hbytes
    exact ⟨_, carries_text hbytes htext⟩
  | @option _ F _ ih =>
    intro v hv
    cases v with
    | none => exact ⟨_, carries_none F⟩
    | some x =>
      obtain ⟨bits, hx⟩ := ih x hv
      exact ⟨_, carries_some hx⟩
  | enum _ in_range _ ih =>
    rintro ⟨k, x⟩ hx
    obtain ⟨bits, hbits⟩ := ih k x hx
    exact ⟨_, carries_enum in_range hbits⟩
  | seq _ ih =>
    intro vs hvs
    obtain ⟨hok, hall⟩ := Bool.and_eq_true_iff.mp hvs
    choose! f hf using ih
    exact ⟨_, carries_seq hV hok fun v hv => hf v (List.all_eq_true.mp hall v hv)⟩
  | seqArray fixed a d =>
    intro vs hvs
    obtain ⟨hok, hall⟩ := Bool.and_eq_true_iff.mp hvs
    exact ⟨_, carries_seqArray hV fixed.faithful hok (List.all_eq_true.mp hall) a d⟩
  | map _ _ ihK ihN =>
    intro pairs hpairs
    rw [mapFormat_eq] at hpairs ⊢
    obtain ⟨hok, hall⟩ := Bool.and_eq_true_iff.mp hpairs
    choose! f hf using ihK
    choose! g hg using ihN
    refine ⟨_, carries_seq (f := fun x => f x.1 ++ g x.2) hV hok fun x hx => ?_⟩
    obtain ⟨hkey, hvalue⟩ := Bool.and_eq_true_iff.mp (List.all_eq_true.mp hall x hx)
    exact carries_field (hf x.1 hkey) (hg x.2 hvalue)
  | unit => exact fun _ _ => ⟨[], fun w _ => writes_nil w [], fun r => .done (), le_rfl⟩
  | field _ _ ihF ihG =>
    rintro ⟨a, b⟩ hab
    obtain ⟨hva, hvb⟩ := Bool.and_eq_true_iff.mp hab
    obtain ⟨xs, ha⟩ := ihF a hva
    obtain ⟨ys, hb⟩ := ihG b hvb
    exact ⟨_, carries_field ha hb⟩
  | joined p q _ _ apart kept ihF ihG =>
    rintro ⟨a, b⟩ hab
    obtain ⟨hva, hvb⟩ := Bool.and_eq_true_iff.mp hab
    obtain ⟨xs, ha⟩ := ihF a hva
    obtain ⟨ys, hb⟩ := ihG b hvb
    exact ⟨_, carries_joined apart kept ha hb⟩

/-- A value that the format carries round trips at top level (R219, R220). -/
theorem Carries.roundTrips {v : α} (h : Carries F v bits) {s : State} {w r : Ctx} (hi : Inv s) (hf : s.fatal = false)
    (hw : w.toNat < s.params.nw) (hr : r.toNat < s.params.nr) (hout : w ∉ F.scratch)
    (present : ∀ u ∈ F.scratch, s.hasWriter u = true) (hwcap : cdiv8 bits.length ≤ s.params.wcap)
    (hrcap : cdiv8 bits.length ≤ s.params.rcap) :
    ∃ bytes t u u', encodeTop w (F.enc w v) s = .value (bytes, bits.length) t ∧ bytes.length = cdiv8 bits.length ∧
      decodeTop r bytes bits.length (F.dec r) t = .value (v, 0) u ∧
      decodeTopB r bytes (F.dec r) t = .value (v, 8 * bytes.length - bits.length) u' := by
  obtain ⟨m, t, hencode, ht, hm⟩ := encodeTop_of_writes (h.writes w hout) hi hf hw present hwcap
  obtain ⟨u, hu⟩ := decodeTop_of_reads (rest := []) (h.reads r) ht hr (by rwa [List.append_nil]) (by rwa [List.append_nil])
  obtain ⟨u', hu'⟩ := decodeTopB_of_reads (h.reads r) ht hr hm hrcap
  rw [List.append_nil] at hu
  refine ⟨_, t, u, u', hencode, outputBytes_length _ _, hu, ?_⟩
  rwa [outputBytes_length]

end

/-- A supported field writes some bits, the same on any writer. -/
theorem FieldCode.Supported.writes {C : Contract} (hC : C.Lawful) {f : FieldCode} (h : f.Supported C) :
    ∃ bits, f.Writes bits := by
  obtain ⟨α, F, v, hF, hv, hfield⟩ := h
  obtain ⟨bits, hbits⟩ := hF.carries hC v hv
  exact ⟨bits, hfield ▸ hbits.field f.apart⟩

/-- Fields joined from separate writers give the output of one writer (R216). -/
theorem encodeTop_joined_eq {C : Contract} (hC : C.Lawful) {fields : List FieldCode} (hfields : ∀ f ∈ fields, f.Supported C)
    {s : State} {w : Ctx} (hi : Inv s) (hf : s.fatal = false) (hw : s.hasWriter w = true)
    (hapart : WritersApart s.hasWriter w fields)
    (room : cdiv8 (sizeOfEncoding (encStruct (fields.map fun f => f.enc w))) ≤ s.params.wcap) :
    ∃ bytes len t t', encodeTop w (encStructJoined w fields) s = .value (bytes, len) t ∧
      encodeTop w (encStruct (fields.map fun f => f.enc w)) s = .value (bytes, len) t' := by
  choose! bitsOf hbitsOf using fun f hf => (hfields f hf).writes hC
  have hmap : (fields.map fun f => (f, bitsOf f)).map Prod.fst = fields := by simp [Function.comp_def]
  have hparts : FieldsWrite (fields.map fun f => (f, bitsOf f)) := List.forall_mem_map.mpr hbitsOf
  have hpresent : ∀ u ∈ (fields.map fun f => (f, bitsOf f)).flatMap (fun y => y.1.uses), s.hasWriter u = true :=
    List.forall_mem_flatMap.mpr (List.forall_mem_map.mpr hapart.present)
  have joined := writes_encStructJoined hparts (hmap.symm ▸ hapart)
  have plain := writes_encStruct (w := w) hparts (List.forall_mem_map.mpr fun f hf => hapart.target_not_mem hf)
  rw [hmap] at joined plain
  rw [← plain.size] at room
  have hlt := of_decide_eq_true hw
  obtain ⟨m, t, hjoin, _, hm⟩ := encodeTop_of_writes joined hi hf hlt hpresent room
  obtain ⟨m', t', hplain, _, hm'⟩ := encodeTop_of_writes plain hi hf hlt hpresent room
  rw [outputBytes_congr fun k => (hm' k).trans (hm k).symm] at hplain
  exact ⟨_, _, t, t', hjoin, hplain⟩

/-- Settles O37: by induction on the shape, its encoder writes bits that its decoder reads back. -/
theorem everyShapeRoundTrips : Obligations.EveryShapeRoundTrips := by
  refine ⟨fun C α F hC hF s w r v hv hi hf hw hr hout present hwcap hrcap => ?_,
    fun C fields hC hfields s w hi hf hw hapart room => encodeTop_joined_eq hC hfields hi hf hw hapart room⟩
  obtain ⟨bits, hbits⟩ := hF.carries hC v hv
  have hsize := (hbits.writes w hout).size
  rw [← hsize] at hwcap hrcap ⊢
  obtain ⟨bytes, t, u, u', hencode, hlen, hdecode, hdecodeB⟩ := hbits.roundTrips hi hf hw hr hout present hwcap hrcap
  exact ⟨bytes, bits.length, t, u, u', hencode, rfl, hlen, hbits.least, hdecode, hdecodeB⟩

/-- Settles O59: the code of a 64-bit number has at most 128 bits. -/
theorem variableLengthRoundTrip : Obligations.VariableLengthRoundTrip := by
  intro s w r n hi hf hw hr hn hwcap hrcap
  have hbits : Carries (uvarFormat specContract) n (specVarLen.bits n) := carries_uvar specVarLen_lawful hn
  have hsize : cdiv8 (specVarLen.bits n).length ≤ 16 := by
    have hlen := bitLength_le hn
    rw [← cost_eq_length_bits, specVarLen_cost hn, cdiv8]
    split <;> omega
  obtain ⟨bytes, t, u, _, hencode, _, hdecode, _⟩ :=
    hbits.roundTrips hi hf hw hr nofun nofun (hsize.trans hwcap) (hsize.trans hrcap)
  exact ⟨bytes, _, t, u, hencode, hdecode⟩

end Sys2Proof.Client

namespace Sys2Proof.Machine

/-! ### Every exception a command can raise, and every answer (60_exceptions R240, R249) -/

/-- The exceptions that command `i` can raise: `InvalidData` is the client's own (60_exceptions R242), and `Truncated` poisons
the one reader that the command names. -/
def Exception.ofCommand (i : Instr) : Exception → Prop
  | .truncated r => Instr.readersNamed i = [r]
  | .invalidData => False
  | .illegalCommand | .illegalState | .poisoned | .fatal => True

/-- What the outcome of command `i` in state `s` can be; `verdict_exec` ties the relation to `exec`. -/
inductive Verdict (s : State) (i : Instr) : Result → Prop where
  | raised {e : Exception} (cause : e.ofCommand i) : Verdict s i (.next (s.take e))
  | answered {u : State} {r0 : Word} {es : List Word} : Verdict s i (.next (u.respond .ok r0 es))
  | fault {f : Fault} : Verdict s i (.fault f)

section
variable {s t : State} {i : Instr} {body : Result}

theorem Verdict.checked (h : Verdict s i body) {legal : Bool} : Verdict s i (checked s legal body) := by
  rcases checked_cases s legal body with ⟨_, hx⟩ | ⟨_, _, hx⟩ | ⟨_, _, hx⟩ <;> rw [hx]
  · exact .raised trivial
  · exact .raised trivial
  · exact h

theorem Verdict.needWriter (h : Verdict s i body) {w : Ctx} {st : WriterState} :
    Verdict s i (needWriter s w st body) := by
  rcases needWriter_cases s w st body with ⟨_, hx⟩ | ⟨_, hx⟩ <;> rw [hx]
  · exact .raised trivial
  · exact h

theorem Verdict.needRoom (h : Verdict s i body) {w : Ctx} {n : Nat} : Verdict s i (needRoom s w n body) := by
  rcases needRoom_cases s w n body with ⟨_, hx⟩ | ⟨_, hx⟩ <;> rw [hx]
  · exact .raised trivial
  · exact h

theorem Verdict.needReader (h : Verdict s i body) {r : Ctx} : Verdict s i (needReader s r body) := by
  rcases needReader_cases s r body with ⟨_, hx⟩ | ⟨_, hx⟩ | ⟨_, hx⟩ <;> rw [hx]
  · exact .raised trivial
  · exact .raised trivial
  · exact h

theorem Verdict.needBits {r : Ctx} (h : Verdict s i body) (named : Instr.readersNamed i = [r]) {n : Nat} :
    Verdict s i (needBits s r n body) := by
  rcases needBits_cases s r n body with ⟨_, hx⟩ | ⟨_, _, hx⟩ | ⟨_, _, hx⟩ <;> rw [hx]
  · exact .raised named
  · exact .fault
  · exact h

theorem verdict_exec (i : Instr) (s : State) : Verdict s i (exec i s) := by
  cases i with
  | wOpen | rOpen | rOpenB => exact Verdict.checked .answered
  | wBits | wArray => exact Verdict.checked (.needWriter (.needRoom .answered))
  | wAppend => exact Verdict.checked (.needWriter (.needWriter (.needRoom .answered)))
  | wFinish => exact Verdict.checked (.needWriter .answered)
  | wByte w index =>
    refine Verdict.checked (.needWriter ?_)
    split
    · split
      · exact .answered
      · exact .fault
    · exact .raised trivial
  | rBits | rPeek | rArray => exact Verdict.checked (.needReader (.needBits .answered rfl))
  | rRemain => exact Verdict.checked (.needReader .answered)
  | rClose r =>
    refine Verdict.checked ?_
    cases (s.reader r).st with
    | idle => exact .raised trivial
    | opened | poisoned => exact .answered

/-- A command that is not answered `OK` has raised one of its exceptions. -/
theorem raised_of_exec {a : Response} (h : exec i s = .next t) (ha : t.resp = some a) (hne : a.status ≠ .ok) :
    ∃ e, e.ofCommand i ∧ t = s.take e := by
  have hv := verdict_exec i s
  rw [h] at hv
  cases hv with
  | raised cause => exact ⟨_, cause, rfl⟩
  | answered => exact absurd (congrArg Response.status (Option.some.inj ha)).symm hne

end

/-- Settles O21: the table of R249, exception by exception. -/
theorem exceptionsChangeOnlyWhatTheTableSays : Obligations.ExceptionsChangeOnlyWhatTheTableSays := by
  intro s t i a h ha hne
  obtain ⟨e, cause, rfl⟩ := raised_of_exec h ha hne
  obtain rfl := Option.some.inj ha
  refine ⟨rfl, rfl, ?_⟩
  cases e with
  | truncated r => exact .inr (.inr ⟨rfl, r, _, _, cause, rfl⟩)
  | invalidData => exact cause.elim
  | illegalCommand => exact .inl ⟨.inl rfl, rfl⟩
  | illegalState => exact .inl ⟨.inr (.inl rfl), rfl⟩
  | poisoned => exact .inl ⟨.inr (.inr rfl), rfl⟩
  | fatal => exact .inr (.inl ⟨rfl, rfl⟩)

/-! ### Every packet is answered (60_exceptions R259) -/

section
variable {s t : State}

/-- A response the block may give (60_exceptions R240, R242, R249). -/
def Response.OfBlock (a : Response) : Prop := a.status ≠ .invalidData ∧ (a.status ≠ .ok → a.r0 = 0 ∧ a.elems = [])

theorem errorResponse_ofBlock {st : Status} (h : st ≠ .invalidData) : (errorResponse st).OfBlock :=
  ⟨h, fun _ => ⟨rfl, rfl⟩⟩

theorem SameVisible.refl (s : State) : SameVisible s s :=
  ⟨rfl, rfl, fun _ => ⟨rfl, fun _ => ⟨rfl, rfl⟩⟩, fun _ => ⟨rfl, fun _ => ⟨rfl, rfl, fun _ _ => rfl⟩⟩⟩

/-- In a good state every command is answered: no access misses its store, as `alike_exec` says of the state and itself. -/
theorem exec_answers (hi : Inv s) (i : Instr) : ∃ t a, exec i s = .next t ∧ t.resp = some a ∧ a.OfBlock := by
  obtain ⟨t, _, hx, _⟩ := alike_exec i hi hi (.refl s)
  have hv := verdict_exec i s
  rw [hx] at hv
  cases hv with
  | @raised e cause =>
    refine ⟨_, errorResponse e.status, hx, rfl, errorResponse_ofBlock ?_⟩
    cases e with
    | invalidData => exact cause.elim
    | truncated | illegalCommand | illegalState | poisoned | fatal => exact nofun
  | answered => exact ⟨_, _, hx, rfl, nofun, fun hne => absurd rfl hne⟩

theorem step_progress (hi : Inv s) : ∃ t, step s = .next t := by
  rcases step_cases s with ⟨_, hx⟩ | ⟨_, _, _, _, hx⟩ | ⟨_, _, _, _, _, hx⟩ | ⟨_, _, i, _, _, hx⟩
  · exact ⟨_, hx⟩
  · exact ⟨_, hx⟩
  · exact ⟨_, hx⟩
  · obtain ⟨t, _, ht, _⟩ := exec_answers hi.dropEvent i
    exact ⟨t, hx.trans ht⟩

theorem step_answers (hi : Inv s) {p : Packet} {rest : List HostEvent} (hin : s.input = .command p :: rest) :
    ∃ t a, step s = .next t ∧ t.resp = some a ∧ a.OfBlock := by
  cases hdec : decode p with
  | error e =>
    refine ⟨_, _, step_of_undecodable hin hdec, rfl, errorResponse_ofBlock ?_⟩
    cases s.dropEvent.fatal <;> exact nofun
  | ok i =>
    obtain ⟨t, a, hx, ha⟩ := exec_answers hi.dropEvent i
    exact ⟨t, a, (step_of_decoded hin hdec).trans hx, ha⟩

theorem take_input (s : State) (e : Exception) : (s.take e).input = s.input := by cases e <;> rfl

/-- A step takes the host's next event, if there is one, and no other. -/
theorem step_input_eq (h : step s = .next t) : t.input = s.input.tail := by
  rcases step_cases s with ⟨hin, hx⟩ | ⟨_, _, _, _, hx⟩ | ⟨_, _, _, _, _, hx⟩ | ⟨_, _, _, _, _, hx⟩ <;> rw [hx] at h
  · rw [← Host.Outcome.next.inj h, hin, List.tail_nil]
  · exact Host.Outcome.next.inj h ▸ rfl
  · exact Host.Outcome.next.inj h ▸ take_input _ _
  · exact exec_input_eq h

end

/-- Settles O13: a command raises an exception of its own or answers `OK`, and the invariant shuts out the faults. -/
theorem everyPacketIsAnswered : Obligations.EveryPacketIsAnswered := by
  refine fun s hi => ⟨step_progress hi, fun p rest hin => ?_⟩
  obtain ⟨t, a, hx, ha, hvalid, herror⟩ := step_answers hi hin
  exact ⟨t, a, hx, ha, hvalid, herror, by rw [step_input_eq hx, hin, List.tail_cons]⟩

/-! ### Commands in the wrong lifecycle state (60_exceptions R244) -/

section
variable {s t : State} {body : Result}

theorem needWriter_of_st_ne {w : Ctx} {st : WriterState} (h : (s.writer w).st ≠ st) :
    needWriter s w st body = raise .illegalState s := if_neg h

theorem needReader_of_idle {r : Ctx} (h : (s.reader r).st = .idle) : needReader s r body = raise .illegalState s := by
  simp [needReader, h]

theorem needReader_of_poisoned {r : Ctx} (h : (s.reader r).st = .poisoned) :
    needReader s r body = raise .poisoned s := by
  simp [needReader, h]

/-- An append needs both its writers `OPEN`, whichever it looks at first. -/
theorem exec_wAppend_of_not_opened {w v : Ctx} (hf : s.fatal = false) (hl : s.legal (.wAppend w v) = true)
    (h : (s.writer w).st ≠ .opened ∨ (s.writer v).st ≠ .opened) : exec (.wAppend w v) s = raise .illegalState s := by
  refine (checked_of_legal hf hl).trans ?_
  by_cases ho : (s.writer w).st = .opened
  · exact (needWriter_of_st ho).trans (needWriter_of_st_ne (h.resolve_left (not_not_intro ho)))
  · exact needWriter_of_st_ne ho

/-- A command whose own rule only answers finds no lifecycle state wrong. -/
theorem status_ne_illegalState_of_checked {legal : Bool} {u : State} {r0 : Word} {es : List Word} {a : Response}
    (h : checked s legal (answer u r0 es) = .next t) (ha : t.resp = some a) : a.status ≠ .illegalState := by
  rcases checked_cases s legal (answer u r0 es) with ⟨_, hx⟩ | ⟨_, _, hx⟩ | ⟨_, _, hx⟩ <;>
    cases hx.symm.trans h <;> cases ha <;> exact nofun

end

/-- Settles O17, by the row of the table. -/
theorem wrongLifecycleStateIsRefused : Obligations.WrongLifecycleStateIsRefused := by
  refine ⟨fun s i w hf hl hst hi => ?_, fun s w index hf hl hst => ?_, fun s i r hf hl hst hi => ?_,
    fun s t i a hi h ha => ?_⟩
  · rcases hi with ⟨width, value, rfl⟩ | ⟨width, elems, rfl⟩ | rfl | ⟨v, rfl⟩ | ⟨u, rfl⟩
    · exact (checked_of_legal hf hl).trans (needWriter_of_st_ne hst)
    · exact (checked_of_legal hf hl).trans (needWriter_of_st_ne hst)
    · exact (checked_of_legal hf hl).trans (needWriter_of_st_ne hst)
    · exact exec_wAppend_of_not_opened hf hl (.inl hst)
    · exact exec_wAppend_of_not_opened hf hl (.inr hst)
  · exact (checked_of_legal hf hl).trans (needWriter_of_st_ne hst)
  · rcases hi with ⟨width, rfl⟩ | ⟨width, rfl⟩ | ⟨width, n, rfl⟩ | rfl | rfl
    · exact (checked_of_legal hf hl).trans (needReader_of_idle hst)
    · exact (checked_of_legal hf hl).trans (needReader_of_idle hst)
    · exact (checked_of_legal hf hl).trans (needReader_of_idle hst)
    · exact (checked_of_legal hf hl).trans (needReader_of_idle hst)
    · refine (checked_of_legal hf hl).trans ?_
      rw [hst]
      rfl
  · rcases hi with ⟨w, rfl⟩ | ⟨r, nbytes, total, src, rfl⟩ | ⟨r, nbytes, src, rfl⟩ <;>
      exact status_ne_illegalState_of_checked h ha

/-! ### Poisoned readers (60_exceptions R245) -/

section
variable {s t : State} {i : Instr}

theorem reader_take_truncated (s : State) (r q : Ctx) :
    (s.take (.truncated r)).reader q =
      if q = r then { s.reader r with st := .poisoned, cur := freeCursorUpTo s.freeCount (s.reader r).total }
      else s.reader q :=
  reader_poison s r q

/-- A command that takes a reader out of `POISONED` opens or closes it. -/
theorem opens_or_closes_of_exec {q : Ctx} (hp : (s.reader q).st = .poisoned) (h : exec i s = .next t)
    (hq : (t.reader q).st ≠ .poisoned) :
    (∃ nbytes total src, i = .rOpen q nbytes total src) ∨ (∃ nbytes src, i = .rOpenB q nbytes src) ∨ i = .rClose q := by
  have changed {t' : State} (ht : (t'.reader q).st ≠ .poisoned) : t'.reader q ≠ s.reader q :=
    fun hr => ht (hr ▸ hp)
  have other {r : Ctx} (ho : (s.reader r).st = .opened) : q ≠ r := by
    rintro rfl
    exact nomatch hp.symm.trans ho
  cases effect_of_exec h with
  | refused quiet => exact absurd (take_reader s quiet q) (changed hq)
  | truncated _ _ opened => exact absurd ((reader_take_truncated _ _ _).trans (if_neg (other opened))) (changed hq)
  | rBits _ opened => exact absurd ((reader_advanceReader _ _ _ _).trans (if_neg (other opened))) (changed hq)
  | rArray _ opened => exact absurd ((reader_advanceReader _ _ _ _).trans (if_neg (other opened))) (changed hq)
  | @rOpen r nbytes total src =>
    by_cases hr : q = r
    · exact .inl ⟨nbytes, total, src, by rw [hr]⟩
    · exact absurd ((reader_bindReader _ _ _ _ _ _).trans (if_neg hr)) (changed hq)
  | @rOpenB r nbytes src =>
    by_cases hr : q = r
    · exact .inr (.inl ⟨nbytes, src, by rw [hr]⟩)
    · exact absurd ((reader_bindReader _ _ _ _ _ _).trans (if_neg hr)) (changed hq)
  | @rClose r =>
    by_cases hr : q = r
    · exact .inr (.inr (by rw [hr]))
    · exact absurd ((reader_setReader _ _ _ _).trans (if_neg hr)) (changed hq)
  | wOpen | wBits | wAppend | wFinish | wByte | wArray | rPeek | rRemain => exact absurd rfl (changed hq)

theorem undecodable_reader (s : State) (q : Ctx) : s.undecodable.reader q = s.reader q := by
  refine take_reader s (fun r => ?_) q
  split <;> exact nofun

end

/-- Settles O18: the lifecycle check comes before the bounds check, and the other steps leave the reader as it is. -/
theorem poisonedReaderRefusesReads : Obligations.PoisonedReaderRefusesReads := by
  refine ⟨fun s i r hf hl hp hi => ?_, fun s t r hp h hr => ?_⟩
  · rcases hi with ⟨width, rfl⟩ | ⟨width, rfl⟩ | ⟨width, n, rfl⟩ | rfl <;>
      exact (checked_of_legal hf hl).trans (needReader_of_poisoned hp)
  · rcases step_cases s with ⟨_, hx⟩ | ⟨f, hl, rest, hin, _⟩ | ⟨_, _, _, _, _, hx⟩ | ⟨p, rest, i, hin, hdec, hx⟩
    · cases hx.symm.trans h
      exact absurd hp hr
    · exact .inl ⟨f, hl, rest, hin⟩
    · cases hx.symm.trans h
      exact absurd (undecodable_reader s.dropEvent r ▸ hp) hr
    · exact .inr ⟨p, rest, i, hin, hdec, opens_or_closes_of_exec (s := s.dropEvent) hp (hx.symm.trans h) hr⟩

/-! ### Reads past the end (60_exceptions R241) -/

section
variable {s t : State} {i : Instr}

theorem readersNamed_of_bitsAsked {r : Ctx} {n : Nat} (asked : bitsAsked i = some (r, n)) :
    Instr.readersNamed i = [r] := by
  cases i with
  | rBits | rPeek | rArray => cases asked; rfl
  | wOpen | wBits | wAppend | wFinish | wArray | wByte | rOpen | rOpenB | rRemain | rClose => exact nomatch asked

/-- In a good state `Truncated` says that the reader is `OPEN` and that fewer bits remain than were asked for. -/
theorem short_of_exec_eq_truncated {r : Ctx} {n : Nat} (asked : bitsAsked i = some (r, n)) (hi : Inv s)
    (h : exec i s = raise (.truncated r) s) : (s.reader r).st = .opened ∧ (s.reader r).hasBits n = false := by
  obtain ⟨_, opened⟩ := opened_of_exec_eq_truncated (readersNamed_of_bitsAsked asked ▸ List.mem_cons_self) h
  have running : s.fatal = false := by
    refine Bool.eq_false_iff.mpr fun hf => ?_
    exact nomatch status_eq_of_raise_eq ((exec_of_halted i hf).symm.trans h)
  have legal : s.legal i = true := by
    by_contra hl
    exact nomatch status_eq_of_raise_eq ((exec_of_not_legal running (Bool.eq_false_iff.mpr hl)).symm.trans h)
  refine ⟨opened, Bool.eq_false_iff.mpr fun enough => ?_⟩
  have hx := (exec_read_of_enough asked hi running legal opened enough).symm.trans h
  have hresp : (s.reader r).readResponse i = errorResponse .truncated :=
    Option.some.inj (congrArg State.resp (Host.Outcome.next.inj hx))
  exact nomatch (status_readResponse _ i).symm.trans (congrArg Response.status hresp)

/-- A read of nothing finds its zero bits in every good state. -/
theorem status_ne_truncated_of_nothing_asked {r : Ctx} {a : Response} (asked : bitsAsked i = some (r, 0)) (hi : Inv s)
    (h : exec i s = .next t) (ha : t.resp = some a) : a.status ≠ .truncated := by
  intro hstatus
  obtain ⟨e, cause, rfl⟩ := raised_of_exec h ha (by simp [hstatus])
  obtain rfl := Option.some.inj ha
  cases e with
  | truncated q =>
    obtain rfl : q = r := List.singleton_inj.mp (cause.symm.trans (readersNamed_of_bitsAsked asked))
    obtain ⟨opened, short⟩ := short_of_exec_eq_truncated asked hi h
    have enough := (hasBits_iff (s.reader q) 0).mpr (hi.cur_le_total (by simp [opened]))
    exact Bool.false_ne_true (short.symm.trans enough)
  | invalidData | illegalCommand | illegalState | poisoned | fatal => exact nomatch hstatus

end

/-- Settles O19: the bounds check fails where bits are missing, and never for zero bits. -/
theorem readPastTheEndPoisons : Obligations.ReadPastTheEndPoisons := by
  refine ⟨fun s i r n hf hl ho hi hlt => ?_, fun s t i r a hinv hi h ha => ?_⟩
  · have asked : bitsAsked i = some (r, n) := by
      rcases hi with ⟨width, rfl, rfl⟩ | ⟨width, rfl, rfl⟩ | ⟨width, count, rfl, rfl⟩ <;> rfl
    refine ⟨_, exec_read_of_short asked hf hl ho (hasBits_eq_false hlt), rfl, ?_, fun q hq => ?_,
      rfl, rfl, rfl, rfl, rfl, rfl, rfl⟩
    · rw [reader_take_truncated, if_pos rfl]
    · rw [reader_take_truncated, if_neg hq]
  · have asked : bitsAsked i = some (r, 0) := by
      rcases hi with rfl | rfl | ⟨width, rfl⟩ <;> simp [bitsAsked]
    exact status_ne_truncated_of_nothing_asked asked hinv h ha

/-! ### Exhaustion and the halted block (60_exceptions R246) -/

section
variable {s t : State}

theorem step_of_halted {p : Packet} {rest : List HostEvent} (hf : s.fatal = true) (hin : s.input = .command p :: rest) :
    step s = .next { s with input := rest, resp := some (errorResponse .fatal) } := by
  have hdrop := dropEvent_of_input hin
  cases hdec : decode p with
  | error e =>
    rw [step_of_undecodable hin hdec, undecodable_of_halted (s := s.dropEvent) hf, hdrop]
    rfl
  | ok i =>
    rw [step_of_decoded hin hdec, exec_of_halted (s := s.dropEvent) i hf, raise_eq, take_fatal_of_halted (s := s.dropEvent) hf,
      hdrop]
    rfl

theorem reset_of_step_clears_fatal (hf : s.fatal = true) (h : step s = .next t) (ht : t.fatal = false) :
    ∃ f h rest, s.input = .reset f h :: rest := by
  match hin : s.input with
  | [] =>
    cases (step_of_no_event hin).symm.trans h
    exact nomatch hf.symm.trans ht
  | .reset f h :: rest => exact ⟨f, h, rest, rfl⟩
  | .command p :: rest =>
    cases (step_of_halted hf hin).symm.trans h
    exact nomatch hf.symm.trans ht

/-- Without a reset to come, a halted block stays halted. -/
theorem halted_of_steps (hf : s.fatal = true) (hno : ∀ f h, HostEvent.reset f h ∉ s.input) (hs : Steps s t) :
    t.fatal = true ∧ ∀ f h, HostEvent.reset f h ∉ t.input := by
  induction hs with
  | none => exact ⟨hf, hno⟩
  | @step t u _ moves ih =>
    obtain ⟨htf, htno⟩ := ih
    refine ⟨?_, fun f h hmem => htno f h (List.mem_of_mem_tail (step_input_eq moves ▸ hmem))⟩
    by_contra hu
    obtain ⟨f, h, rest, hin⟩ := reset_of_step_clears_fatal htf moves (Bool.eq_false_iff.mpr hu)
    exact htno f h (hin ▸ List.mem_cons_self)

end

/-- Settles O20: the capacity check comes before any store, and `FATAL` before every other check. -/
theorem exhaustionHaltsTheBlock : Obligations.ExhaustionHaltsTheBlock := by
  refine ⟨fun s i w n hf hl ho hi hlt => ?_, fun s i hf => ?_, fun s p rest => step_of_halted,
    fun s t => reset_of_step_clears_fatal, fun s t hf hno hs => ?_⟩
  · have full : s.hasRoom w n = false := decide_eq_false (Nat.not_le.mpr hlt)
    rcases hi with ⟨width, value, rfl, rfl⟩ | ⟨v, rfl, hv, rfl⟩ | ⟨width, elems, rfl, rfl⟩
    · exact (checked_of_legal hf hl).trans <| (needWriter_of_st ho).trans (needRoom_of_no_room full)
    · exact (checked_of_legal hf hl).trans <| (needWriter_of_st ho).trans <|
        (needWriter_of_st hv).trans (needRoom_of_no_room full)
    · exact (checked_of_legal hf hl).trans <| (needWriter_of_st ho).trans (needRoom_of_no_room full)
  · rw [exec_of_halted i hf, raise_eq, take_fatal_of_halted hf]
    rfl
  · obtain ⟨ht, _⟩ := halted_of_steps hf hno hs
    have notFinal : ¬Final t := by simp [ht]
    exact ⟨ht, notFinal, fun ⟨_, final⟩ => notFinal final⟩

end Sys2Proof.Machine

namespace Sys2Proof.Machine

/-! ### The reset event (70_reset R270, R271) -/

theorem step_of_reset {s : State} {f h : Bool} {rest : List HostEvent} (hin : s.input = .reset f h :: rest) :
    step s = .next ({ s with input := rest }.applyReset f h) := by
  rw [← dropEvent_of_input hin]
  simp only [step, intake, hin]

/-- Settles O8: the contexts, `FATAL` and the straps are those of the reset state of the same build. -/
theorem resetEventResetsTheBlock : Obligations.ResetEventResetsTheBlock := by
  intro s f h rest hin
  obtain ⟨writersIdle, readersIdle, notHalted, fastEn, hostLe, _⟩ := resetStateIsIdleAndGood s.params f h
  exact ⟨_, step_of_reset hin, writersIdle, readersIdle, notHalted, fastEn, hostLe, rfl, rfl⟩

end Sys2Proof.Machine

namespace Sys2Proof

/-! ### Single packets (30_encoding R95 steps 2, 3 and 5, 95_test_vectors 2.2 to 2.5) -/

/-- The packet that encodes a command decodes to it. -/
theorem decode_of_encode_eq {p : Packet} {i : Instr} (h : encode i = p)
    (hcount : ∀ w width elems, i = .wArray w width elems → elems.length < 2 ^ 64) : decode p = .ok i :=
  h ▸ encodeThenDecodeGivesTheCommand i hcount

theorem decode_of_ofCode_none {p : Packet} (h : Opcode.ofCode (opField p.cw) = none) :
    decode p = .error .unknownOpcode := by
  simp only [decode, h]

theorem decode_of_not_masked {p : Packet} (o : Opcode) (hcode : opField p.cw = o.code)
    (hmask : p.cw &&& o.mask ≠ o.matchWord) : decode p = .error .nonzeroUnusedField := by
  simp only [decode, ofCode_eq_some.mpr hcode, if_neg hmask]

theorem decode_of_masked {p : Packet} (o : Opcode) (hcode : opField p.cw = o.code)
    (hmask : p.cw &&& o.mask = o.matchWord) :
    decode p = operandsOf o (ctxField p.cw) (ctx2Field p.cw) (widthField p.cw) p.words p.binding := by
  simp only [decode, ofCode_eq_some.mpr hcode, if_pos hmask]

/-- Settles O4: each listed packet encodes its command; the others have no row, a reserved bit set, or the wrong words. -/
theorem vectorWordsDecodeAsListed : Obligations.VectorWordsDecodeAsListed := by
  refine ⟨?wOpen, ?wBits, ?wAppend, ?wArray, ?rOpen, ?rPeek, ?noRow, ?bit23Set, ?unusedWidthSet, ?elementMissing,
    ?wordTooMany⟩
  case wOpen | wBits | wAppend | rOpen | rPeek => exact decode_of_encode_eq (by decide) nofun
  case wArray =>
    refine decode_of_encode_eq (by decide) fun w width elems h => ?_
    cases h
    decide
  case noRow => exact decode_of_ofCode_none (by decide)
  case bit23Set | unusedWidthSet => exact decode_of_not_masked .wOpen (by decide) (by decide)
  case elementMissing => exact decode_of_masked .wArray (by decide) (by decide)
  case wordTooMany => exact decode_of_masked .wFinish (by decide) (by decide)

end Sys2Proof
